-- ==== Sys2Proof/Word.lean ====
section
/-! DEFINITION. The word types of the block: 32-bit registers (R9, R11), bytes of the two buffers, bit strings (R12). -/

namespace Sys2Proof

/-- A register value or a command word: 32 bits, unsigned (`REG_WIDTH`, R7, R11). -/
abbrev Word := BitVec 32

/-- A byte of IN_BUF or OUT_BUF, and a symbol of the alphabet, 0 to 255 (R16). -/
abbrev Byte := BitVec 8

/-- A bit string, first bit first; a codeword is one (R12). -/
abbrev Bits := List Bool

end Sys2Proof
end

