-- ==== Sys2Proof/Config.lean ====
section
/-! DEFINITION. What an implementation fixes (the parameters of R7 and R62) and the free values the spec calls
`anyval` (R14): constants with no body, so that no proof can see one. -/

namespace Sys2Proof

/-- The parameters of R7 and the three aperture bases of R62. A machine state carries them unchanged, so every
statement over all states is a statement over all parameters. -/
structure Params where
  /-- `IN_BUF_SIZE`, bytes of IN_BUF. -/
  inBufSize : Nat
  /-- `OUT_BUF_SIZE`, bytes of OUT_BUF. -/
  outBufSize : Nat
  /-- `MAX_CODE_LEN`. -/
  maxCodeLen : Nat
  /-- `REG_BASE`, open (D36). -/
  regBase : Nat
  /-- `IN_BASE`, open (D36). -/
  inBase : Nat
  /-- `OUT_BASE`, open (D36). -/
  outBase : Nat
deriving DecidableEq, Repr

namespace Config

/-- Bytes of the register aperture REG (R61). -/
abbrev regBytes : Nat := 0x8000

/-- `MAX_NODES` (R7): entries of the NODE arena. -/
abbrev maxNodes : Nat := 511

/-- The constant the ID register reads, "HUF1" (R24). -/
abbrev idWord : Word := 0x48554631#32

/-- The word a host read returns where the spec says `anyval` (R75, R231, Unspec windows R39 R41), by draw number.
A free value: DESIGN CHOICE, log entry 2. -/
opaque freeWord : Nat → Word

/-- The count FREQ[s] holds after a draw (R50, R205), by draw number and symbol. A free value: DESIGN CHOICE, log entry 2. -/
opaque freeFreq : Nat → Byte → Word

/-- The byte a buffer holds where nothing has written since a draw (R50, R67, R205), by draw number and index.
A free value: DESIGN CHOICE, log entry 2. -/
opaque freeByte : Nat → Nat → Byte

end Config

/-- The parameters `State.reset` carries: the default MAX_CODE_LEN of R7, the smallest buffers R7 allows (those of
95_test_vectors.md), and bases that do not overlap (DESIGN CHOICE, log entry 4: no rule depends on them). -/
def Params.standard : Params where
  inBufSize := 8705
  outBufSize := 8705
  maxCodeLen := 255
  regBase := 0x40000000
  inBase := 0x50000000
  outBase := 0x60000000

end Sys2Proof
end

