-- ==== Sys2Proof/Machine/Transaction.lean ====
section
/-! DEFINITION. What the outside world does to the block: host bus transactions (R114, R62), the level of `rst_n`
(R230), and the point at which the engine completes among them (R212). -/

namespace Sys2Proof.Machine

/-- The three host-visible address spaces (R61). -/
inductive Space where
  | reg | inBuf | outBuf
deriving DecidableEq, Repr

/-- The direction of an access; data is present for writes (R114). A write narrower than 32 bits uses the low bits. -/
inductive Dir where
  | read
  | write (data : Word)
deriving DecidableEq, Repr

/-- A bus transaction (dir, space, offset, width, data) of R114. The width is in bytes; an ill-formed width or offset
can be written down, and the host port answers it with a bus error (R63, R64). -/
structure Txn where
  dir : Dir
  space : Space
  offset : Nat
  width : Nat
deriving DecidableEq, Repr

/-- The same transaction by host address, before the apertures of R62 select a space. -/
structure AddrTxn where
  dir : Dir
  addr : Nat
  width : Nat
deriving DecidableEq, Repr

/-- One thing the outside world does next, in the host's issue order (R76). -/
inductive HostEvent where
  /-- A host access by space and offset (R114). -/
  | access (t : Txn)
  /-- A host access by host address (R62). -/
  | accessAt (t : AddrTxn)
  /-- `rst_n` is driven to this level: `false` is low, reset asserted (R230, R231). -/
  | resetPin (level : Bool)
  /-- The running command, if any, completes at this point between host accesses (R212, R249). -/
  | engine
deriving DecidableEq, Repr

/-- What the host target port answered last (R230): the model's own record of a response. -/
inductive HostResp where
  | none
  | wrote
  | read (data : Word)
deriving DecidableEq, Repr

end Sys2Proof.Machine
end

