-- ==== Sys2Proof/Syntax.lean ====
section
/-! DEFINITION. The command set (R3, R92): one constructor per row of the opcode table. No command has an operand
field, an immediate or a mode bit (R91), so no constructor has an argument. -/

namespace Sys2Proof

/-- The commands of R92. -/
inductive Instr where
  | nop | freq | buildTree | genCodes | pack | unpack | compress | decompress | saveTable | loadTable | clear
deriving DecidableEq, Repr

end Sys2Proof
end

