-- ==== Sys2Proof/WellFormed.lean ====
section
/-! DEFINITION. Which command words (R91, R95), bus transactions (R63, R64, R81) and parameters (R7, R62) are well
formed. A command itself has no operand, so every `Instr` is well formed (R91, R94). -/

namespace Sys2Proof

/-- Every command is well formed: the word has no operand, immediate or mode bit to be out of range (R91). -/
def Instr.wellFormed : Instr → Bool
  | .nop | .freq | .buildTree | .genCodes | .pack | .unpack | .compress | .decompress | .saveTable | .loadTable
  | .clear => true

/-- The reserved field RSV, bits [31:8] of a command word, must be 0 (R91). -/
def CmdWord.reservedClear (w : Word) : Bool := w.extractLsb' 8 24 == 0#24

/-- OP, bits [7:0], must be an assigned opcode, 0x00 to 0x0A (R92). -/
def CmdWord.opcodeAssigned (w : Word) : Bool := w.extractLsb' 0 8 ≤ 0x0A#8

/-- A command word that is not illegal (R95). -/
def CmdWord.wellFormed (w : Word) : Bool := CmdWord.reservedClear w && CmdWord.opcodeAssigned w

/-- Host accesses are 1, 2 or 4 bytes wide (R114). -/
def Machine.Txn.widthOk (t : Machine.Txn) : Bool := t.width == 1 || t.width == 2 || t.width == 4

/-- A register access is a 32-bit word (R63); a buffer access may be of any width of R64. -/
def Machine.Txn.widthFits (t : Machine.Txn) : Bool :=
  match t.space with
  | .reg => t.width == 4
  | .inBuf | .outBuf => t.widthOk

/-- Accesses are naturally aligned (R63, R64). -/
def Machine.Txn.aligned (t : Machine.Txn) : Bool := t.offset % t.width == 0

/-- Bytes of a space (R61). -/
def Params.spaceBytes (p : Params) : Machine.Space → Nat
  | .reg => Config.regBytes
  | .inBuf => p.inBufSize
  | .outBuf => p.outBufSize

/-- The access reaches no offset at or beyond the end of its space (R61, R64). -/
def Machine.Txn.inside (p : Params) (t : Machine.Txn) : Bool := t.offset + t.width ≤ p.spaceBytes t.space

/-- An access the block answers without a bus error (R63, R64). -/
def Machine.Txn.wellFormed (p : Params) (t : Machine.Txn) : Bool := t.widthFits && t.aligned && t.inside p

/-- Two address ranges `[a, a + n)` and `[b, b + m)` share no address. -/
def Params.apart (a n b m : Nat) : Bool := a + n ≤ b || b + m ≤ a

/-- The constraint of R7 on a buffer size. -/
def Params.sizeOk (n : Nat) : Bool := 8705 ≤ n && n ≤ 2 ^ 28

/-- The constraints of R7 on the parameters, and of R62 on the bases: the three ranges do not overlap. -/
def Params.wellFormed (p : Params) : Bool :=
  Params.sizeOk p.inBufSize && Params.sizeOk p.outBufSize && (1 ≤ p.maxCodeLen && p.maxCodeLen ≤ 255) &&
    Params.apart p.regBase Config.regBytes p.inBase p.inBufSize &&
    Params.apart p.regBase Config.regBytes p.outBase p.outBufSize &&
    Params.apart p.inBase p.inBufSize p.outBase p.outBufSize

end Sys2Proof
end

