-- ==== Sys2Proof/Decode.lean ====
section
/-! DEFINITION. The command decoder of R93, total on any 32-bit word and rejecting by name, and the encoder of R92. -/

namespace Sys2Proof

/-- Why a word selects no command (R95): either reason raises ILLEGAL_COMMAND (R192). -/
inductive DecodeError where
  /-- A bit of RSV, [31:8], is set (R91). -/
  | reservedBitSet
  /-- OP is in 0x0B to 0xFF (R92). -/
  | opcodeUnassigned
deriving DecidableEq, Repr

/-- The row of R92 that an opcode selects. -/
def opcodeRow (op : Nat) : Except DecodeError Instr :=
  match op with
  | 0x00 => .ok .nop
  | 0x01 => .ok .freq
  | 0x02 => .ok .buildTree
  | 0x03 => .ok .genCodes
  | 0x04 => .ok .pack
  | 0x05 => .ok .unpack
  | 0x06 => .ok .compress
  | 0x07 => .ok .decompress
  | 0x08 => .ok .saveTable
  | 0x09 => .ok .loadTable
  | 0x0A => .ok .clear
  | _ => .error .opcodeUnassigned

/-- Dispatch of a command word (R93). -/
def decode (w : Word) : Except DecodeError Instr :=
  if w.extractLsb' 8 24 == 0#24 then opcodeRow (w.extractLsb' 0 8).toNat else .error .reservedBitSet

/-- The command word of each row of R92: `match`, with mask 0xFFFFFFFF. -/
def encode : Instr → Word
  | .nop => 0x00000000#32
  | .freq => 0x00000001#32
  | .buildTree => 0x00000002#32
  | .genCodes => 0x00000003#32
  | .pack => 0x00000004#32
  | .unpack => 0x00000005#32
  | .compress => 0x00000006#32
  | .decompress => 0x00000007#32
  | .saveTable => 0x00000008#32
  | .loadTable => 0x00000009#32
  | .clear => 0x0000000A#32

/-- The low `nbits` bits of `w`, as the opcode table numbers them. -/
def tableBits (nbits w : Nat) : Nat := w % 2 ^ nbits

/-- The command word whose bits are `w` (R96: a command is exactly one 32-bit word, bit 0 least significant). -/
def tableWord (nbits w : Nat) : Word := BitVec.ofNat 32 (tableBits nbits w)

/-- What the decoder reads from a table row's bits; bits above the one word of a command select nothing (R96). -/
def decodeTableWord (nbits w : Nat) : Option Instr :=
  if tableBits nbits w < 2 ^ 32 then
    match decode (tableWord nbits w) with
    | .ok i => some i
    | .error _ => none
  else none

end Sys2Proof
end

