-- ==== Sys2Proof/Machine/State.lean ====
section
/-! DEFINITION. The architectural state of R21 as plain data, the model's own three fields beside it, and the state
right after reset (R50). -/

namespace Sys2Proof.Machine

/-- Why a host access ends in a bus error response (R63, R64). -/
inductive BusError where
  /-- A width the space does not take: a register access not 32 bits wide, a buffer access not 1, 2 or 4 bytes. -/
  | width
  /-- An offset that is not a multiple of the width. -/
  | misaligned
  /-- A buffer access that reaches an offset at or beyond the buffer's size. -/
  | beyondBuffer
deriving DecidableEq, Repr

/-- The reasons a step stops with a fault. -/
inductive Fault where
  /-- Raised by the host port for an access R63 or R64 rejects: the host's step faults and the block's state is
  unchanged. Safe: R63 says to treat the access so, and hardware goes on after the bus error response. -/
  | busError (why : BusError)
deriving DecidableEq, Repr

/-- The reasons a step is refused. -/
inductive Refusal where
  /-- Raised by an arm of `exec` whose command has no meaning yet; no arm raises it now. Safe: the run stops. -/
  | notModelled (mnemonic : String)
  /-- Raised by the host port for an access outside the three apertures, which the block does not decode (R81, P5:
  out of the model). Safe: the run stops. -/
  | outsideApertures
deriving DecidableEq, Repr

/-- The sequencer phase (R22). -/
inductive Phase where
  | idle
  | busy (cw : Word)
deriving DecidableEq, Repr

/-- The error codes of R200, by name; `none` is the code of a success. -/
inductive ErrCode where
  | none | emptyAlphabet | emptyInput | truncatedStream | undecodableStream | illegalCommand | sequenceError
  | inputTooLong | outputOverflow | unmappedSymbol | invalidTable | codeTooLong
deriving DecidableEq, Repr

/-- The fields of STATUS that are state (R26); BUSY is a function of the phase. -/
structure Status where
  done : Bool
  err : Bool
  overrun : Bool
  errCode : ErrCode
deriving DecidableEq, Repr

/-- The fields of IRQ_EN (R27). -/
structure IrqEn where
  doneIE : Bool
  errIE : Bool
deriving DecidableEq, Repr

/-- The bits of VALID (R32): FREQ_VALID, TREE_VALID, TABLE_VALID. -/
structure Valid where
  freq : Bool
  tree : Bool
  table : Bool
deriving DecidableEq, Repr

/-- The 256 counts of FREQ, by symbol (R36). -/
abbrev Counts := Vector Word 256

/-- The FREQ table: counts a command wrote, or the contents the spec leaves unspecified (R50, R205), which are the
free values of one draw. Every command writes all of FREQ or none of it. -/
inductive FreqTable where
  | counts (c : Counts)
  | unspec (draw : Nat)
deriving DecidableEq, Repr

/-- An entry of the NODE arena (R38). -/
inductive NodeEntry where
  | leaf (sym : Byte) (f : Word)
  | internal (f : Word) (left right : BitVec 9)
  | unspec
deriving DecidableEq, Repr

/-- The NODE arena with the ROOT and NODES that TREE_INFO shows (R35, R38, R133). -/
structure Arena where
  entries : Vector NodeEntry 511
  root : BitVec 9
  nodes : BitVec 9
deriving DecidableEq, Repr

/-- An entry of the CODE table (R15, R40): the codeword, whose length is `len`, or Unspec. -/
inductive CodeEntry where
  | word (bits : Bits)
  | unspec
deriving DecidableEq, Repr

/-- The CODE table, by symbol (R40). -/
abbrev CodeTable := Vector CodeEntry 256

/-- A byte buffer (R46, R47): the bytes written since its contents were last unspecified, at strictly rising indices,
and the draw that names the free value of every other byte. -/
structure Memory where
  draw : Nat
  cells : List Host.Cell
deriving DecidableEq, Repr

/-- The state of the block (R21), then the pin and the parameters (R230, R7), then the model's own fields. -/
structure State where
  /-- Sequencer phase (R22). -/
  phase : Phase
  /-- CMD, the last accepted word (R25). -/
  cmd : Word
  /-- STATUS (R26). -/
  status : Status
  /-- IRQ_EN (R27). -/
  irqEn : IrqEn
  /-- IN_LEN (R28). -/
  inLen : Word
  /-- OUT_LEN (R29). -/
  outLen : Word
  /-- PAD (R30). -/
  pad : BitVec 3
  /-- BIT_LEN (R31). -/
  bitLen : Word
  /-- VALID (R32). -/
  valid : Valid
  /-- The FREQ table (R36). -/
  freq : FreqTable
  /-- The NODE arena, ROOT and NODES (R38). -/
  arena : Arena
  /-- The CODE table (R40). -/
  code : CodeTable
  /-- IN_BUF (R46). -/
  inBuf : Memory
  /-- OUT_BUF (R47). -/
  outBuf : Memory
  /-- `rst_n` is low: the block is held in reset (R231). -/
  rstLow : Bool
  /-- The parameters (R7, R62); no step writes them. -/
  params : Params
  /-- The model's own: what the outside world does next, oldest first (R17, R76; DESIGN CHOICE, log entry 1). -/
  inputs : List HostEvent
  /-- The model's own: the last response of the host target port (DESIGN CHOICE, log entry 5). -/
  resp : HostResp
  /-- The model's own: the number of the next free value (DESIGN CHOICE, log entry 2). -/
  draws : Nat
deriving DecidableEq, Repr

/-- The state after reset (R50). FREQ, IN_BUF and OUT_BUF are unspecified: the free values of draws 0, 1 and 2
(DESIGN CHOICE, log entry 2); ROOT and NODES start at 0 (DESIGN CHOICE, log entry 3); the parameters are
`Params.standard` (DESIGN CHOICE, log entry 4); nothing is pending (DESIGN CHOICE, log entry 1) and nothing has been
answered (DESIGN CHOICE, log entry 5); `rst_n` is released (R233; DEDUCED, log entry 14). -/
def State.reset : State where
  phase := .idle
  cmd := 0#32
  status := { done := false, err := false, overrun := false, errCode := .none }
  irqEn := { doneIE := false, errIE := false }
  inLen := 0#32
  outLen := 0#32
  pad := 0#3
  bitLen := 0#32
  valid := { freq := false, tree := false, table := false }
  freq := .unspec 0
  arena := { entries := Vector.replicate 511 .unspec, root := 0#9, nodes := 0#9 }
  code := Vector.replicate 256 .unspec
  inBuf := { draw := 1, cells := [] }
  outBuf := { draw := 2, cells := [] }
  rstLow := false
  params := Params.standard
  inputs := []
  resp := .none
  draws := 3

end Sys2Proof.Machine
end

