-- ==== Sys2Proof/Machine/Ops.lean ====
section
/-! DEFINITION. The named operations over the buffers, the tables and the registers; completion with success (R204);
completion with an error (R205), the block's whole "exception entry" (R213), as ONE operation; the acknowledgement a
host answers it with (R214); the accepted command write (R25) and the reset event (R231). -/

namespace Sys2Proof.Machine

/-! ### Buffers (R46, R47, R66) -/

/-- The byte written at an index since the last draw, if any. -/
def cellAt : List Host.Cell → Nat → Option Byte
  | [], _ => none
  | (k, v) :: cs, a => if k = a then some v else cellAt cs a

/-- Write one cell, keeping the indices strictly rising. -/
def insertCell (a : Nat) (v : Byte) : List Host.Cell → List Host.Cell
  | [] => [(a, v)]
  | (k, w) :: cs =>
    if a < k then (a, v) :: (k, w) :: cs else if a = k then (a, v) :: cs else (k, w) :: insertCell a v cs

/-- The canonical form: indices strictly rising. An unlisted index holds an unspecified byte, not one particular byte,
so no listed byte repeats what an unlisted index reads as (DESIGN CHOICE, log entry 2). -/
abbrev Memory.wf (m : Memory) : Prop := m.cells.Pairwise fun c d => c.1 < d.1

/-- No byte is listed at or beyond the buffer's size. -/
abbrev Memory.within (m : Memory) (size : Nat) : Prop := ∀ c ∈ m.cells, c.1 < size

/-- `MemRead` (R66): the byte at an index; one that nothing has written holds the free value of its draw (R67). -/
def Memory.read (m : Memory) (a : Nat) : Byte :=
  match cellAt m.cells a with
  | some v => v
  | none => Config.freeByte m.draw a

/-- `MemWrite` (R66). -/
def Memory.write (m : Memory) (a : Nat) (v : Byte) : Memory := { m with cells := insertCell a v m.cells }

/-- Bytes written one after the other from index `a`. -/
def Memory.writeBytes (m : Memory) (a : Nat) : List Byte → Memory
  | [] => m
  | v :: vs => (m.write a v).writeBytes (a + 1) vs

/-- The bytes at `a, a + 1, ..., a + n - 1`. -/
def Memory.readBytes (m : Memory) (a n : Nat) : List Byte := (List.range n).map fun i => m.read (a + i)

/-! ### Tables (R36, R38, R40) -/

/-- A table of 256 entries given by a function of the symbol. -/
def table256 {α : Type} (f : Byte → α) : Vector α 256 :=
  ⟨⟨(List.range 256).map fun i => f (BitVec.ofNat 8 i)⟩, by simp⟩

/-- The entry of a symbol. -/
def at256 {α : Type} (t : Vector α 256) (x : Byte) : α := t[x.toNat]'x.isLt

/-- The arena entries that begin with the given list and are Unspec after it (R133, last line). -/
def arenaEntries (ns : List NodeEntry) : Vector NodeEntry 511 :=
  ⟨⟨(List.range 511).map fun i => ns.getD i .unspec⟩, by simp⟩

/-- The arena entry at an index; there is none at or beyond MAX_NODES. -/
def Arena.entry (a : Arena) (i : Nat) : NodeEntry := a.entries.toList.getD i .unspec

/-- FREQ[s] (R36). -/
def FreqTable.countOf (t : FreqTable) (x : Byte) : Word :=
  match t with
  | .counts c => at256 c x
  | .unspec draw => Config.freeFreq draw x

/-- All of FREQ, as BUILD_TREE reads it (R94). -/
def FreqTable.all (t : FreqTable) : Counts :=
  match t with
  | .counts c => c
  | .unspec draw => table256 (Config.freeFreq draw)

/-! ### Results of commands -/

/-- FREQ[s] <- F[s] for every s; FREQ_VALID <- 1 (R121). -/
def State.setFreq (s : State) (c : Counts) : State :=
  { s with freq := .counts c, valid := { s.valid with freq := true } }

/-- The tree of R133 becomes the arena; TREE_VALID <- 1 (R131). -/
def State.setTree (s : State) (a : Arena) : State := { s with arena := a, valid := { s.valid with tree := true } }

/-- CODE[s] <- C[s] for every s; TABLE_VALID <- 1 (R141, R150). -/
def State.setCode (s : State) (t : CodeTable) : State := { s with code := t, valid := { s.valid with table := true } }

/-- The result of an output command: OUT_BUF[0 .. |S|), OUT_LEN, PAD, BIT_LEN (R160). -/
def State.putOutput (s : State) (bytes : List Byte) (pad bits : Nat) : State :=
  { s with
    outBuf := s.outBuf.writeBytes 0 bytes
    outLen := BitVec.ofNat 32 bytes.length
    pad := BitVec.ofNat 3 pad
    bitLen := BitVec.ofNat 32 bits }

/-! ### Completion (R203 to R205) -/

/-- `complete()` (R204). -/
def State.complete (s : State) : State :=
  { s with phase := .idle, status := { s.status with done := true, err := false, errCode := .none } }

/-- The target structures of a command (R205). -/
structure Targets where
  freq : Bool
  node : Bool
  code : Bool
  out : Bool
deriving DecidableEq, Repr

/-- No target structures: NOP, CLEAR and illegal words (R205). -/
def noTargets : Targets := { freq := false, node := false, code := false, out := false }

/-- The table of R205. -/
def targetsOf : Instr → Targets
  | .nop => noTargets
  | .clear => noTargets
  | .freq => { noTargets with freq := true }
  | .buildTree => { noTargets with node := true }
  | .genCodes => { noTargets with code := true }
  | .pack => { noTargets with out := true }
  | .unpack => { noTargets with out := true }
  | .decompress => { noTargets with out := true }
  | .saveTable => { noTargets with out := true }
  | .compress => { freq := true, node := true, code := true, out := true }
  | .loadTable => { noTargets with code := true }

/-- FREQ[s] <- anyval for every s; FREQ_VALID <- 0 (R205). -/
def State.spoilFreq (s : State) : State :=
  { s with freq := .unspec s.draws, draws := s.draws + 1, valid := { s.valid with freq := false } }

/-- NODE[i] <- Unspec for every i; TREE_VALID <- 0 (R205). ROOT and NODES, which TREE_VALID = 0 hides, keep their
values (DESIGN CHOICE, log entry 3). -/
def State.spoilTree (s : State) : State :=
  { s with
    arena := { s.arena with entries := Vector.replicate 511 .unspec }
    valid := { s.valid with tree := false } }

/-- CODE[s] <- Unspec for every s; TABLE_VALID <- 0 (R205). -/
def State.spoilCode (s : State) : State :=
  { s with code := Vector.replicate 256 .unspec, valid := { s.valid with table := false } }

/-- OUT_BUF[a] <- anyval for every a; OUT_LEN, PAD, BIT_LEN <- 0 (R205). -/
def State.spoilOut (s : State) : State :=
  { s with
    outBuf := { draw := s.draws, cells := [] }
    draws := s.draws + 1
    outLen := 0#32
    pad := 0#3
    bitLen := 0#32 }

/-- The failure effects on the target structures (R205, first part). -/
def State.spoil (s : State) (t : Targets) : State :=
  let s := if t.freq then s.spoilFreq else s
  let s := if t.node then s.spoilTree else s
  let s := if t.code then s.spoilCode else s
  if t.out then s.spoilOut else s

/-- The status an error leaves (R205, second part). -/
def State.recordError (s : State) (e : ErrCode) : State :=
  { s with phase := .idle, status := { s.status with done := true, err := true, errCode := e } }

/-- `raise Error(E)` (R205): the one place where an error ends a command. The block has no handler, saved program
counter or mode (R213), so this is its whole exception entry, and it leaves a next state. -/
def State.fail (s : State) (t : Targets) (e : ErrCode) : State := (s.spoil t).recordError e

/-- The one completion of a command (R203): with success in the state its rule wrote, or with the first error its
pseudocode reached (R208), which discards what it had written and spoils the target structures of `s`. -/
def State.finish (s : State) (t : Targets) (r : Except ErrCode State) : State :=
  match r with
  | .ok s' => s'.complete
  | .error e => s.fail t e

/-! ### STATUS writes, command writes, reset -/

/-- A host write of STATUS (R26): writing 1 clears DONE [1], ERR [2] and CMD_OVERRUN [3]; every other bit is ignored.
This is also how a host acknowledges an error (R214). Each bit is cleared alone, so ERR can stay 1 where DONE is
cleared (DEDUCED, log entry 9). -/
def State.clearStatus (s : State) (w : Word) : State :=
  { s with
    status :=
      { s.status with
        done := s.status.done && !w.getLsbD 1
        err := s.status.err && !w.getLsbD 2
        overrun := s.status.overrun && !w.getLsbD 3 } }

/-- The CMD write accepted in Idle (R25). -/
def State.acceptCmd (s : State) (w : Word) : State :=
  { s with cmd := w, status := { s.status with done := false, err := false }, phase := .busy w }

/-- A CMD write (R25): accepted in Idle, discarded with CMD_OVERRUN set while Busy. -/
def State.writeCmd (s : State) (w : Word) : State :=
  match s.phase with
  | .idle => s.acceptCmd w
  | .busy _ => { s with status := { s.status with overrun := true } }

/-- `rst_n` goes low (R231, R232): the block takes the reset state of R50 whatever it was doing, with fresh free
values for FREQ, IN_BUF and OUT_BUF; the parameters and what is outside the block stay. -/
def State.enterReset (s : State) : State :=
  { State.reset with
    freq := .unspec s.draws
    inBuf := { draw := s.draws + 1, cells := [] }
    outBuf := { draw := s.draws + 2, cells := [] }
    draws := s.draws + 3
    rstLow := true
    params := s.params
    inputs := s.inputs
    resp := s.resp }

/-- `rst_n` goes high: the block leaves reset (R233). -/
def State.leaveReset (s : State) : State := { s with rstLow := false }

end Sys2Proof.Machine
end

