-- ==== Sys2Proof/Machine/Operands.lean ====
section
/-! DEFINITION. The operand forms of R94 (input bytes, FREQ, CODE) and the bit-string forms every command shares:
MSB-first packing (R13), the padding formula (R161), codeword lookup (R40, R42). -/

namespace Sys2Proof.Machine

/-- `ceil_div` (R14). -/
def ceilDiv (a b : Nat) : Nat := (a + b - 1) / b

/-- `zeros(k)` (R12). -/
def zeros (k : Nat) : Bits := List.replicate k false

/-- The value of a bit, 0 or 1. -/
def bitVal (b : Bool) (weight : Nat) : Nat := if b then weight else 0

/-- The byte with the given bits, bit 7 first (R13). -/
def byteOfBits (b7 b6 b5 b4 b3 b2 b1 b0 : Bool) : Byte :=
  BitVec.ofNat 8 (bitVal b7 128 + bitVal b6 64 + bitVal b5 32 + bitVal b4 16 + bitVal b3 8 + bitVal b2 4 +
    bitVal b1 2 + bitVal b0 1)

/-- `pack_msb` (R13), defined by the rule for lengths that are multiples of 8; bits short of a whole byte, which no
command passes, give no byte. -/
def packMsb : Bits → List Byte
  | b7 :: b6 :: b5 :: b4 :: b3 :: b2 :: b1 :: b0 :: rest => byteOfBits b7 b6 b5 b4 b3 b2 b1 b0 :: packMsb rest
  | _ => []

/-- The bits of a byte, bit 7 first (R13). -/
def byteBits (v : Byte) : Bits :=
  [v.getLsbD 7, v.getLsbD 6, v.getLsbD 5, v.getLsbD 4, v.getLsbD 3, v.getLsbD 2, v.getLsbD 1, v.getLsbD 0]

/-- `unpack_msb` (R13). -/
def unpackMsb (bytes : List Byte) : Bits := bytes.flatMap byteBits

/-- The padding formula `(8 - (B mod 8)) mod 8` (R161). -/
def padCount (totalBits : Nat) : Nat := (8 - totalBits % 8) % 8

/-- A bit string filled to whole bytes with zero bits and packed (R107, R161). -/
def packPadded (bits : Bits) : List Byte := packMsb (bits ++ zeros (padCount bits.length))

/-- The alphabet in ascending order (R7). -/
def allSymbols : List Byte := (List.range 256).map (BitVec.ofNat 8)

/-- `reg[IN_LEN] > IN_BUF_SIZE` (R206). -/
def State.inputTooLong (s : State) : Bool := decide (s.params.inBufSize < s.inLen.toNat)

/-- The input bytes IN[0 .. IN_LEN) (R14, R94). -/
def State.input (s : State) : List Byte := s.inBuf.readBytes 0 s.inLen.toNat

/-- The codeword of a symbol, empty for one that has none (R15). An Unspec entry, which TABLE_VALID = 1 rules out
(R43, DEDUCED, log entry 8), reads as no codeword. -/
def bitsAt (t : CodeTable) (x : Byte) : Bits :=
  match at256 t x with
  | .word b => b
  | .unspec => []

/-- `CODE[s].len > 0` (R15). -/
def isMapped (t : CodeTable) (x : Byte) : Bool := !(bitsAt t x).isEmpty

/-- The entries of a table, each with its symbol, in ascending symbol order. -/
def bySymbol {α : Type} (t : Vector α 256) : List (Byte × α) := allSymbols.zip t.toList

/-- The codeword of an entry, with its symbol, where the entry has one. -/
def entryCodeword : Byte × CodeEntry → Option (Byte × Bits)
  | (x, .word (b :: bs)) => some (x, b :: bs)
  | (_, .word []) => none
  | (_, .unspec) => none

/-- The symbols that have a codeword, ascending, each with its codeword (R147). -/
def codewords (t : CodeTable) : List (Byte × Bits) := (bySymbol t).filterMap entryCodeword

/-- `exists s with C[s].len > MAX_CODE_LEN` (R141). -/
def anyCodeLonger (t : CodeTable) (maxLen : Nat) : Bool := (codewords t).any fun p => decide (maxLen < p.2.length)

/-- The decode direction of CODE (R42): the symbol whose codeword is `c`. -/
def symbolOf (t : CodeTable) (c : Bits) : Option Byte := ((codewords t).find? fun p => p.2 == c).map Prod.fst

/-- `prefix_free` (R152): no codeword is a prefix of another symbol's, equality included. -/
def prefixFree (t : CodeTable) : Bool :=
  (codewords t).all fun p => (codewords t).all fun q => p.1 == q.1 || !p.2.isPrefixOf q.2

/-- The CODE table that gives each listed symbol its codeword and every other symbol (0, ""). -/
def codeTableOf (rs : List (Byte × Bits)) : CodeTable := table256 fun x => .word ((rs.lookup x).getD [])

end Sys2Proof.Machine
end

