-- ==== Sys2Proof/Machine/BitPacker.lean ====
section
/-! DEFINITION. The bit packer and unpacker (43_bit_packer.md): PACK, UNPACK and the functions COMPRESS and DECOMPRESS
share. -/

namespace Sys2Proof.Machine

/-- A compressed stream as R161 returns it: the bytes S, the codeword bits B, the padding count. -/
structure Packed where
  bytes : List Byte
  bits : Nat
  pad : Nat
deriving DecidableEq, Repr

/-- The codewords of the input bytes, in input order (R161). -/
def codeBits (t : CodeTable) (x : List Byte) : Bits := x.flatMap (bitsAt t)

/-- The stream of R100 for a coded bit sequence: the padding count, then the bits and zero filler, packed. -/
def streamOf (bits : Bits) : Packed :=
  { bytes := BitVec.ofNat 8 (padCount bits.length) :: packPadded bits
    bits := bits.length
    pad := padCount bits.length }

/-- `pack_stream` (R161); the stream's length is known before any byte is written (R207). -/
def packStream (t : CodeTable) (outBufSize : Nat) (x : List Byte) : Except ErrCode Packed :=
  if x.any fun b => !isMapped t b then .error .unmappedSymbol
  else if outBufSize < 1 + ((codeBits t x).length + padCount (codeBits t x).length) / 8 then .error .outputOverflow
  else .ok (streamOf (codeBits t x))

/-- The body of PACK (R160). -/
def packCommand (s : State) : Except ErrCode State :=
  if s.inputTooLong then .error .inputTooLong
  else if s.valid.table then
    match packStream s.code s.params.outBufSize s.input with
    | .ok p => .ok (s.putOutput p.bytes p.pad p.bits)
    | .error e => .error e
  else .error .sequenceError

/-- PACK (R160). -/
def execPack (s : State) : Host.Outcome State Fault Refusal :=
  .next (s.finish (targetsOf .pack) (packCommand s))

/-- `unpack_stream` (R166): the padding count and the coded bit sequence; the filler bits are not examined. -/
def unpackStream : List Byte → Except ErrCode (Nat × Bits)
  | [] => .error .truncatedStream
  | h :: payload =>
    if 7 < h.toNat then .error .truncatedStream
    else if payload.isEmpty ∧ 0 < h.toNat then .error .truncatedStream
    else .ok (h.toNat, (unpackMsb payload).take (8 * payload.length - h.toNat))

/-- The body of UNPACK (R165). -/
def unpackCommand (s : State) : Except ErrCode State :=
  if s.inputTooLong then .error .inputTooLong
  else
    match unpackStream s.input with
    | .error e => .error e
    | .ok (pad, bits) =>
      if s.params.outBufSize < (packMsb (bits ++ zeros pad)).length then .error .outputOverflow
      else .ok (s.putOutput (packMsb (bits ++ zeros pad)) pad bits.length)

/-- UNPACK (R165). -/
def execUnpack (s : State) : Host.Outcome State Fault Refusal :=
  .next (s.finish (targetsOf .unpack) (unpackCommand s))

end Sys2Proof.Machine
end

