-- ==== Sys2Proof/Machine/CodeGenerator.lean ====
section
/-! DEFINITION. The code-table generator (42_code_table.md section 1): GEN_CODES and the traversal COMPRESS shares. -/

namespace Sys2Proof.Machine

/-- `visit` (R142): each leaf under arena index `i` with the path `p` that leads to it, 0 for left and 1 for right.
The first argument bounds the depth; a path in a tree of R44 is shorter than the arena (DEDUCED, log entry 8). -/
def visit (a : Arena) : Nat → Nat → Bits → List (Byte × Bits)
  | 0, _, _ => []
  | n + 1, i, p =>
    match a.entry i with
    | .leaf sym _ => [(sym, p)]
    | .internal _ l r => visit a n l.toNat (p ++ [false]) ++ visit a n r.toNat (p ++ [true])
    | .unspec => []

/-- The codeword of every leaf of the tree (R142); a lone leaf gets the codeword "0" (R143). -/
def leafCodes (a : Arena) : List (Byte × Bits) :=
  match a.entry a.root.toNat with
  | .leaf sym _ => [(sym, [false])]
  | .internal _ _ _ => visit a Config.maxNodes a.root.toNat []
  | .unspec => []

/-- `gen_codes` (R142). -/
def genCodes (a : Arena) : CodeTable := codeTableOf (leafCodes a)

/-- The body of GEN_CODES (R141). -/
def genCodesCommand (s : State) : Except ErrCode State :=
  if s.valid.tree then
    if anyCodeLonger (genCodes s.arena) s.params.maxCodeLen then .error .codeTooLong
    else .ok (s.setCode (genCodes s.arena))
  else .error .sequenceError

/-- GEN_CODES (R141). -/
def execGenCodes (s : State) : Host.Outcome State Fault Refusal :=
  .next (s.finish (targetsOf .genCodes) (genCodesCommand s))

end Sys2Proof.Machine
end

