-- ==== Sys2Proof/Machine/FrequencyAnalyzer.lean ====
section
/-! DEFINITION. The frequency analyzer (40_frequency_analyzer.md): FREQ and the counting function COMPRESS shares. -/

namespace Sys2Proof.Machine

/-- `count_bytes` (R122): the exact number of occurrences of each byte value, as a 32-bit count (D7). -/
def countBytes (x : List Byte) : Counts := table256 fun b => BitVec.ofNat 32 (x.count b)

/-- The body of FREQ (R121). -/
def freqCommand (s : State) : Except ErrCode State :=
  if s.inputTooLong then .error .inputTooLong else .ok (s.setFreq (countBytes s.input))

/-- FREQ (R121). -/
def execFreq (s : State) : Host.Outcome State Fault Refusal :=
  .next (s.finish (targetsOf .freq) (freqCommand s))

end Sys2Proof.Machine
end

