-- ==== Sys2Proof/Machine/TreeBuilder.lean ====
section
/-! DEFINITION. The tree builder (41_tree_builder.md): BUILD_TREE and the min-queue merge COMPRESS shares. -/

namespace Sys2Proof.Machine

/-- An element of the priority queue: an arena index with the frequency of its node (R133, R134). -/
structure Key where
  freq : Nat
  idx : Nat
deriving DecidableEq, Repr

/-- The queue order (R134): lexicographic on (frequency, arena index). -/
def Key.lt (a b : Key) : Bool := decide (a.freq < b.freq) || (a.freq == b.freq && decide (a.idx < b.idx))

/-- The element of the queue with the least key, and the queue without it (R133). -/
def popMin : List Key → Option (Key × List Key)
  | [] => none
  | k :: ks =>
    match popMin ks with
    | none => some (k, [])
    | some (m, rest) => if k.lt m then some (k, ks) else some (m, k :: rest)

/-- The arena entries made so far, by index, and the queue (R133); `next` is the number of entries. -/
structure Build where
  nodes : List NodeEntry
  queue : List Key
deriving DecidableEq, Repr

/-- One merge (R133, R135): the first node popped becomes the left child, the second the right child. With fewer than
two nodes in the queue there is none to make. -/
def mergeStep (b : Build) : Build :=
  match popMin b.queue with
  | none => b
  | some (x, q) =>
    match popMin q with
    | none => b
    | some (y, q') =>
      { nodes := b.nodes ++ [.internal (BitVec.ofNat 32 (x.freq + y.freq)) (BitVec.ofNat 9 x.idx) (BitVec.ofNat 9 y.idx)]
        queue := { freq := x.freq + y.freq, idx := b.nodes.length } :: q' }

/-- `n` merges. -/
def mergeLoop : Nat → Build → Build
  | 0, b => b
  | n + 1, b => mergeLoop n (mergeStep b)

/-- The symbols with a nonzero count, ascending, each with its count (R132). -/
def presentCounts (c : Counts) : List (Byte × Word) := (bySymbol c).filter fun p => p.2 != 0#32

/-- The leaves in the arena and in the queue, in ascending symbol order (R132, R133). -/
def initialBuild (c : Counts) : Build :=
  { nodes := (presentCounts c).map fun p => .leaf p.1 p.2
    queue := (presentCounts c).zipIdx.map fun p => { freq := p.1.2.toNat, idx := p.2 } }

/-- The arena a finished build gives: ROOT is the one element left in the queue, NODES the number of entries (R133). -/
def Build.arena (b : Build) : Arena :=
  { entries := arenaEntries b.nodes
    root := BitVec.ofNat 9 ((b.queue.map Key.idx).headD 0)
    nodes := BitVec.ofNat 9 b.nodes.length }

/-- The build after the loop of R133, which runs one time less than there are leaves. -/
def finishedBuild (c : Counts) : Build := mergeLoop ((presentCounts c).length - 1) (initialBuild c)

/-- `build_tree` (R133). -/
def buildTree (c : Counts) : Except ErrCode Arena :=
  if (presentCounts c).isEmpty then .error .emptyAlphabet else .ok (finishedBuild c).arena

/-- The body of BUILD_TREE (R131). -/
def buildTreeCommand (s : State) : Except ErrCode State :=
  if s.valid.freq then
    match buildTree s.freq.all with
    | .ok a => .ok (s.setTree a)
    | .error e => .error e
  else .error .sequenceError

/-- BUILD_TREE (R131). -/
def execBuildTree (s : State) : Host.Outcome State Fault Refusal :=
  .next (s.finish (targetsOf .buildTree) (buildTreeCommand s))

end Sys2Proof.Machine
end

