-- ==== Sys2Proof/Machine/CodecFacade.lean ====
section
/-! DEFINITION. The codec facade (44_codec_facade.md): COMPRESS, the encoder pipeline, and DECOMPRESS, the unpacker and
the symbol mapper. -/

namespace Sys2Proof.Machine

/-- What a successful COMPRESS makes of its input. -/
structure Compressed where
  counts : Counts
  tree : Arena
  table : CodeTable
  stream : Packed
deriving DecidableEq, Repr

/-- The stages of R175 on an input, in order, with the first error one of them reaches. -/
def compressStages (p : Params) (x : List Byte) : Except ErrCode Compressed :=
  match buildTree (countBytes x) with
  | .error e => .error e
  | .ok a =>
    if anyCodeLonger (genCodes a) p.maxCodeLen then .error .codeTooLong
    else
      match packStream (genCodes a) p.outBufSize x with
      | .error e => .error e
      | .ok st => .ok { counts := countBytes x, tree := a, table := genCodes a, stream := st }

/-- The body of COMPRESS (R175). -/
def compressCommand (s : State) : Except ErrCode State :=
  if s.inputTooLong then .error .inputTooLong
  else if s.inLen = 0#32 then .error .emptyInput
  else
    match compressStages s.params s.input with
    | .error e => .error e
    | .ok c =>
      .ok ((((s.setFreq c.counts).setTree c.tree).setCode c.table).putOutput c.stream.bytes c.stream.pad c.stream.bits)

/-- COMPRESS (R175). -/
def execCompress (s : State) : Host.Outcome State Fault Refusal :=
  .next (s.finish (targetsOf .compress) (compressCommand s))

/-- The greedy decode of R177 from an accumulator; `none` where bits are left that match no codeword. -/
def decodeFrom (t : CodeTable) : Bits → Bits → Option (List Byte)
  | acc, [] => if acc.isEmpty then some [] else none
  | acc, b :: bs =>
    match symbolOf t (acc ++ [b]) with
    | none => decodeFrom t (acc ++ [b]) bs
    | some x =>
      match decodeFrom t [] bs with
      | none => none
      | some ys => some (x :: ys)

/-- `decode_bits` (R177). -/
def decodeBits (t : CodeTable) (bits : Bits) : Option (List Byte) := decodeFrom t [] bits

/-- The body of DECOMPRESS (R176): the whole stream is decoded before its length is checked (R207, D31). -/
def decompressCommand (s : State) : Except ErrCode State :=
  if s.inputTooLong then .error .inputTooLong
  else if s.valid.table then
    match unpackStream s.input with
    | .error e => .error e
    | .ok (pad, bits) =>
      match decodeBits s.code bits with
      | none => .error .undecodableStream
      | some ys =>
        if s.params.outBufSize < ys.length then .error .outputOverflow
        else .ok (s.putOutput ys pad bits.length)
  else .error .sequenceError

/-- DECOMPRESS (R176). -/
def execDecompress (s : State) : Host.Outcome State Fault Refusal :=
  .next (s.finish (targetsOf .decompress) (decompressCommand s))

end Sys2Proof.Machine
end

