-- ==== Sys2Proof/Machine/Control.lean ====
section
/-! DEFINITION. The control commands (45_control.md): NOP, CLEAR, and the completion of an illegal word. -/

namespace Sys2Proof.Machine

/-- NOP (R190): complete with no effect. -/
def execNop (s : State) : Host.Outcome State Fault Refusal := .next (s.finish (targetsOf .nop) (.ok s))

/-- The tables and result registers at zero (R191). ROOT and NODES, which VALID = 0 hides, keep their values
(DESIGN CHOICE, log entry 3). -/
def State.clearTables (s : State) : State :=
  { s with
    freq := .counts (Vector.replicate 256 0#32)
    code := Vector.replicate 256 (.word [])
    arena := { s.arena with entries := Vector.replicate 511 (.internal 0#32 0#9 0#9) }
    valid := { freq := false, tree := false, table := false }
    outLen := 0#32
    pad := 0#3
    bitLen := 0#32 }

/-- CLEAR (R191). -/
def execClear (s : State) : Host.Outcome State Fault Refusal :=
  .next (s.finish (targetsOf .clear) (.ok s.clearTables))

/-- A word no row of the opcode table matches (R192): ILLEGAL_COMMAND, with no target structures. -/
def State.illegalWord (s : State) : State := s.fail noTargets .illegalCommand

end Sys2Proof.Machine
end

