-- ==== Sys2Proof/Machine/TableStore.lean ====
section
/-! DEFINITION. Saving and loading the code table (42_code_table.md sections 2 and 3): SAVE_TABLE, LOAD_TABLE and the
serialized form of R107. -/

namespace Sys2Proof.Machine

/-- One record of R107: the symbol, the codeword's length, the codeword packed. -/
def tableRecord (x : Byte) (bits : Bits) : List Byte := x :: BitVec.ofNat 8 bits.length :: packPadded bits

/-- `serialize_table` (R147). -/
def serializeTable (t : CodeTable) : List Byte :=
  BitVec.ofNat 8 ((codewords t).length - 1) :: (codewords t).flatMap fun p => tableRecord p.1 p.2

/-- The body of SAVE_TABLE (R146). -/
def saveTableCommand (s : State) : Except ErrCode State :=
  if s.valid.table then
    if s.params.outBufSize < (serializeTable s.code).length then .error .outputOverflow
    else .ok (s.putOutput (serializeTable s.code) 0 0)
  else .error .sequenceError

/-- SAVE_TABLE (R146). -/
def execSaveTable (s : State) : Host.Outcome State Fault Refusal :=
  .next (s.finish (targetsOf .saveTable) (saveTableCommand s))

/-- `n` records of R151 and nothing after them, each symbol at least `lo` (`lo` is `prev + 1`): the codeword of each
symbol. `none` where R151 raises INVALID_TABLE. -/
def parseRecords (maxLen : Nat) : Nat → Nat → List Byte → Option (List (Byte × Bits))
  | 0, _, [] => some []
  | 0, _, _ :: _ => none
  | _ + 1, _, [] => none
  | _ + 1, _, [_] => none
  | n + 1, lo, x :: len :: rest =>
    if x.toNat < lo then none
    else if len.toNat = 0 ∨ maxLen < len.toNat then none
    else if rest.length < ceilDiv len.toNat 8 then none
    else if ((unpackMsb (rest.take (ceilDiv len.toNat 8))).drop len.toNat).any id then none
    else
      match parseRecords maxLen n (x.toNat + 1) (rest.drop (ceilDiv len.toNat 8)) with
      | none => none
      | some rs => some ((x, (unpackMsb (rest.take (ceilDiv len.toNat 8))).take len.toNat) :: rs)

/-- `parse_table` (R151) with the prefix check of R152. -/
def parseTable (maxLen : Nat) : List Byte → Except ErrCode CodeTable
  | [] => .error .invalidTable
  | b :: rest =>
    match parseRecords maxLen (b.toNat + 1) 0 rest with
    | none => .error .invalidTable
    | some rs => if prefixFree (codeTableOf rs) then .ok (codeTableOf rs) else .error .invalidTable

/-- The body of LOAD_TABLE (R150). -/
def loadTableCommand (s : State) : Except ErrCode State :=
  if s.inputTooLong then .error .inputTooLong
  else
    match parseTable s.params.maxCodeLen s.input with
    | .ok t => .ok (s.setCode t)
    | .error e => .error e

/-- LOAD_TABLE (R150). -/
def execLoadTable (s : State) : Host.Outcome State Fault Refusal :=
  .next (s.finish (targetsOf .loadTable) (loadTableCommand s))

end Sys2Proof.Machine
end

