-- ==== Sys2Proof/Machine/Flags.lean ====
section
/-! DEFINITION. Every flag word the block computes: STATUS (R26, R200), IRQ_EN (R27), VALID (R32), the registers
derived from the tables (R33, R34, R35), and the interrupt output (R210). -/

namespace Sys2Proof.Machine

/-- BUSY (R26): 1 while the phase is Busy. -/
def State.busy (s : State) : Bool :=
  match s.phase with
  | .idle => false
  | .busy _ => true

/-- ERR_CODE values (R200). -/
def ErrCode.toByte : ErrCode → Byte
  | .none => 0x00#8
  | .emptyAlphabet => 0x01#8
  | .emptyInput => 0x02#8
  | .truncatedStream => 0x03#8
  | .undecodableStream => 0x04#8
  | .illegalCommand => 0x10#8
  | .sequenceError => 0x11#8
  | .inputTooLong => 0x12#8
  | .outputOverflow => 0x13#8
  | .unmappedSymbol => 0x14#8
  | .invalidTable => 0x15#8
  | .codeTooLong => 0x16#8

/-- STATUS as it reads (R26). -/
def State.statusWord (s : State) : Word :=
  BitVec.ofNat 32 (bitVal s.busy 1 + bitVal s.status.done 2 + bitVal s.status.err 4 + bitVal s.status.overrun 8 +
    s.status.errCode.toByte.toNat * 2 ^ 8)

/-- IRQ_EN as it reads (R27). -/
def State.irqEnWord (s : State) : Word := BitVec.ofNat 32 (bitVal s.irqEn.doneIE 1 + bitVal s.irqEn.errIE 2)

/-- VALID as it reads (R32). -/
def State.validWord (s : State) : Word :=
  BitVec.ofNat 32 (bitVal s.valid.freq 1 + bitVal s.valid.tree 2 + bitVal s.valid.table 4)

/-- NSYM (R33). -/
def State.nsym (s : State) : Nat := if s.valid.table then (codewords s.code).length else 0

/-- MAX_LEN (R34). -/
def State.maxLen (s : State) : Nat :=
  if s.valid.table then ((codewords s.code).map fun p => p.2.length).foldr max 0 else 0

/-- TREE_INFO (R35): ROOT in [8:0], NODES in [24:16]. -/
def State.treeInfoWord (s : State) : Word :=
  if s.valid.tree then BitVec.ofNat 32 (s.arena.nodes.toNat * 2 ^ 16 + s.arena.root.toNat) else 0#32

/-- The interrupt output (R210), a level. -/
def State.irq (s : State) : Bool := (s.status.done && s.irqEn.doneIE) || (s.status.err && s.irqEn.errIE)

end Sys2Proof.Machine
end

