-- ==== Sys2Proof/Machine/HostPort.lean ====
section
/-! DEFINITION. The host target port: the register map of R21, the table windows (R36, R39, R41), register and buffer
accesses in Idle, Busy and reset (R63 to R65, R74, R75, R231), and the apertures of R62. -/

namespace Sys2Proof.Machine

/-- What a word offset of the register aperture selects (R21). -/
inductive RegSel where
  | id | cmd | status | irqEn | inLen | outLen | pad | bitLen | valid | nsym | maxLen | treeInfo
  | inBufSize | outBufSize | maxCodeLen
  | freq (sym : Byte)
  | codeLen (sym : Byte)
  | codeBits (sym : Byte) (k : Nat)
  | node0 (i : Nat)
  | node1 (i : Nat)
  | reserved
deriving DecidableEq, Repr

/-- The windows of R21 above offset 0x3FF. -/
def windowAt (off : Nat) : RegSel :=
  if off < 0x400 then .reserved
  else if off < 0x800 then .freq (BitVec.ofNat 8 ((off - 0x400) / 4))
  else if off < 0xC00 then .codeLen (BitVec.ofNat 8 ((off - 0x800) / 4))
  else if off < 0x1000 then .reserved
  else if off < 0x3000 then .codeBits (BitVec.ofNat 8 ((off - 0x1000) / 32)) ((off - 0x1000) % 32 / 4)
  else if off < 0x4000 then .reserved
  else if off < 0x4FF8 then
    if (off - 0x4000) % 8 < 4 then .node0 ((off - 0x4000) / 8) else .node1 ((off - 0x4000) / 8)
  else .reserved

/-- The register map of R21. -/
def regAt (off : Nat) : RegSel :=
  match off with
  | 0x000 => .id
  | 0x004 => .cmd
  | 0x008 => .status
  | 0x00C => .irqEn
  | 0x010 => .inLen
  | 0x014 => .outLen
  | 0x018 => .pad
  | 0x01C => .bitLen
  | 0x020 => .valid
  | 0x024 => .nsym
  | 0x028 => .maxLen
  | 0x02C => .treeInfo
  | 0x030 => .inBufSize
  | 0x034 => .outBufSize
  | 0x038 => .maxCodeLen
  | _ => windowAt off

/-- The registers and windows that read `anyval` while Busy (R75). -/
def RegSel.hiddenWhileBusy : RegSel → Bool
  | .outLen | .pad | .bitLen | .valid | .nsym | .maxLen | .treeInfo => true
  | .freq _ | .codeLen _ | .codeBits _ _ | .node0 _ | .node1 _ => true
  | .id | .cmd | .status | .irqEn | .inLen | .inBufSize | .outBufSize | .maxCodeLen | .reserved => false

/-- Word 0 of a NODE entry (R39); `none` is `anyval`. -/
def nodeWord0 : NodeEntry → Option Word
  | .leaf _ f => some f
  | .internal f _ _ => some f
  | .unspec => none

/-- Word 1 of a NODE entry (R39): LEAF [31], RIGHT [25:17], LEFT [16:8], SYMBOL [7:0]. -/
def nodeWord1 : NodeEntry → Option Word
  | .leaf sym _ => some (BitVec.ofNat 32 (2 ^ 31 + sym.toNat))
  | .internal _ l r => some (BitVec.ofNat 32 (r.toNat * 2 ^ 17 + l.toNat * 2 ^ 8))
  | .unspec => none

/-- The CODE_LEN word of an entry (R41). -/
def codeLenWord : CodeEntry → Option Word
  | .word b => some (BitVec.ofNat 32 b.length)
  | .unspec => none

/-- The value of a list of bits, first bit most significant. -/
def bitsValue (bits : Bits) : Nat := bits.foldl (fun acc b => 2 * acc + bitVal b 1) 0

/-- Word `k` of the CODE_BITS window of an entry (R41): the codeword left-aligned, first bit at the top. -/
def codeBitsWord (k : Nat) : CodeEntry → Option Word
  | .word b => some (BitVec.ofNat 32 (bitsValue ((List.range 32).map fun j => b.getD (32 * k + j) false)))
  | .unspec => none

/-- The value of a register or window word in Idle; `none` is `anyval` (R24 to R45). -/
def State.regValue (s : State) : RegSel → Option Word
  | .id => some Config.idWord
  | .cmd => some s.cmd
  | .status => some s.statusWord
  | .irqEn => some s.irqEnWord
  | .inLen => some s.inLen
  | .outLen => some s.outLen
  | .pad => some (s.pad.setWidth 32)
  | .bitLen => some s.bitLen
  | .valid => some s.validWord
  | .nsym => some (BitVec.ofNat 32 s.nsym)
  | .maxLen => some (BitVec.ofNat 32 s.maxLen)
  | .treeInfo => some s.treeInfoWord
  | .inBufSize => some (BitVec.ofNat 32 s.params.inBufSize)
  | .outBufSize => some (BitVec.ofNat 32 s.params.outBufSize)
  | .maxCodeLen => some (BitVec.ofNat 32 s.params.maxCodeLen)
  | .freq x => some (s.freq.countOf x)
  | .codeLen x => codeLenWord (at256 s.code x)
  | .codeBits x k => codeBitsWord k (at256 s.code x)
  | .node0 i => nodeWord0 (s.arena.entry i)
  | .node1 i => nodeWord1 (s.arena.entry i)
  | .reserved => some 0#32

/-- A register read in either phase; `none` is `anyval` (R75). -/
def State.readReg (s : State) (r : RegSel) : Option Word :=
  if s.busy && r.hiddenWhileBusy then none else s.regValue r

/-- A register write in either phase (R25 to R28, R45, R74). Read-only and reserved locations ignore it. -/
def State.writeReg (s : State) (r : RegSel) (v : Word) : State :=
  match r with
  | .cmd => s.writeCmd v
  | .status => s.clearStatus v
  | .irqEn => { s with irqEn := { doneIE := v.getLsbD 0, errIE := v.getLsbD 1 } }
  | .inLen => if s.busy then s else { s with inLen := v }
  | .id | .outLen | .pad | .bitLen | .valid | .nsym | .maxLen | .treeInfo | .inBufSize | .outBufSize | .maxCodeLen => s
  | .freq _ | .codeLen _ | .codeBits _ _ | .node0 _ | .node1 _ | .reserved => s

/-- Bytes as a little-endian word (R64), zero above them (DEDUCED, log entry 13). -/
def wordOfBytes (bytes : List Byte) : Word :=
  BitVec.ofNat 32 (bytes.foldr (fun b acc => b.toNat + 2 ^ 8 * acc) 0)

/-- The low `width` bytes of a word, least significant first (R64). -/
def bytesOfWord (width : Nat) (v : Word) : List Byte := (List.range width).map fun i => v.extractLsb' (8 * i) 8

/-- What a read returns; `none` is `anyval` (R63 to R65, R75). -/
def State.readValue (s : State) (t : Txn) : Option Word :=
  match t.space with
  | .reg => s.readReg (regAt t.offset)
  | .inBuf => some (wordOfBytes (s.inBuf.readBytes t.offset t.width))
  | .outBuf => if s.busy then none else some (wordOfBytes (s.outBuf.readBytes t.offset t.width))

/-- What a write does (R63 to R65); buffer writes while Busy are ignored (R74). -/
def State.writeValue (s : State) (t : Txn) (v : Word) : State :=
  match t.space with
  | .reg => s.writeReg (regAt t.offset) v
  | .inBuf => if s.busy then s else { s with inBuf := s.inBuf.writeBytes t.offset (bytesOfWord t.width v) }
  | .outBuf => if s.busy then s else { s with outBuf := s.outBuf.writeBytes t.offset (bytesOfWord t.width v) }

/-- The port answers a read, drawing a fresh free value for `anyval`. No read has another effect (R73). -/
def State.answerRead (s : State) : Option Word → State
  | some v => { s with resp := .read v }
  | none => { s with resp := .read (Config.freeWord s.draws), draws := s.draws + 1 }

/-- The port acknowledges a write. -/
def State.answerWrite (s : State) : State := { s with resp := .wrote }

/-- A well-formed access. While `rst_n` is low, writes are ignored and reads return `anyval` (R231). -/
def State.perform (s : State) (t : Txn) : State :=
  match t.dir with
  | .read => if s.rstLow then s.answerRead none else s.answerRead (s.readValue t)
  | .write v => if s.rstLow then s.answerWrite else (s.writeValue t v).answerWrite

/-- The offset lies in no aperture: only a register offset can, since an access beyond a buffer's size is a bus error
(R64, R81). -/
def Txn.outsideApertures (t : Txn) : Bool :=
  match t.space with
  | .reg => decide (Config.regBytes ≤ t.offset)
  | .inBuf => false
  | .outBuf => false

/-- A host access (R63, R64, R81). A malformed one is a bus error in every phase and during reset (DEDUCED, log
entry 6); one in no aperture is refused (DESIGN CHOICE, log entry 10). -/
def hostAccess (t : Txn) (s : State) : Host.Outcome State Fault Refusal :=
  if t.outsideApertures then .refused .outsideApertures
  else if !t.widthFits then .fault (.busError .width)
  else if !t.aligned then .fault (.busError .misaligned)
  else if !t.inside s.params then .fault (.busError .beyondBuffer)
  else .next (s.perform t)

/-- The space and offset a host address selects (R62). -/
def apertureOf (p : Params) (addr : Nat) : Option (Space × Nat) :=
  if p.regBase ≤ addr ∧ addr < p.regBase + Config.regBytes then some (.reg, addr - p.regBase)
  else if p.inBase ≤ addr ∧ addr < p.inBase + p.inBufSize then some (.inBuf, addr - p.inBase)
  else if p.outBase ≤ addr ∧ addr < p.outBase + p.outBufSize then some (.outBuf, addr - p.outBase)
  else none

/-- A host access by host address (R62, R81). -/
def hostAccessAt (t : AddrTxn) (s : State) : Host.Outcome State Fault Refusal :=
  match apertureOf s.params t.addr with
  | none => .refused .outsideApertures
  | some (space, off) => hostAccess { dir := t.dir, space := space, offset := off, width := t.width } s

/-- A level of `rst_n` (R231, R233); the reset event is its going low (DEDUCED, log entry 14). -/
def driveReset (level : Bool) (s : State) : State := if level then s.leaveReset else s.enterReset

end Sys2Proof.Machine
end

