-- ==== Sys2Proof/Machine/Sequencer.lean ====
section
/-! DEFINITION. Who moves next (R17, R22, R212): the head of the pending inputs, or the engine when none is pending;
and the engine's one transition, the completion of the command in `phase` (R75, R93). -/

namespace Sys2Proof.Machine

/-- The engine's transition (R93): run the command of the phase to its completion. In Idle, and while `rst_n` is low,
the block keeps its state (R221, R231). -/
def engineStep (s : State) : Host.Outcome State Fault Refusal :=
  if s.rstLow then .next s
  else
    match s.phase with
    | .idle => .next s
    | .busy w =>
      match decode w with
      | .ok i => exec i s
      | .error _ => .next s.illegalWord

/-- The effect of one pending input on a state it has been taken from. -/
def eventStep (e : HostEvent) (s : State) : Host.Outcome State Fault Refusal :=
  match e with
  | .access t => hostAccess t s
  | .accessAt t => hostAccessAt t s
  | .resetPin level => .next (driveReset level s)
  | .engine => engineStep s

/-- One step of the machine: the oldest pending input, or the engine (DESIGN CHOICE, log entry 1). -/
def advance (s : State) : Host.Outcome State Fault Refusal :=
  match s.inputs with
  | [] => engineStep s
  | e :: rest => eventStep e { s with inputs := rest }

/-- The state in which the engine's next transition runs the command word `w`: `w` accepted as by a CMD write in Idle
(R25), out of reset, and the engine moving before anything pending (DESIGN CHOICE, log entry 7). -/
def State.placeCommand (s : State) (w : Word) : State :=
  { s.acceptCmd w with rstLow := false, inputs := .engine :: s.inputs }

end Sys2Proof.Machine
end

