-- ==== Sys2Proof/Safety.lean ====
section
/-! DEFINITION. What a safe state is, in the terms the statements use: the table and tree invariants (R43, R44), the
invariant of the whole state, what a tree path is (R142), and which parts of the state a command leaves as they were. -/

namespace Sys2Proof.Machine

/-! ### Invariants -/

/-- Prefix-freedom of R43 (c): two distinct symbols with codewords never have one codeword a prefix of the other,
equality included. -/
def PrefixFree (t : CodeTable) : Prop :=
  ∀ x y : Byte, x ≠ y → bitsAt t x ≠ [] → bitsAt t y ≠ [] → ¬ bitsAt t x <+: bitsAt t y

/-- No codeword is longer than `maxLen` (R40, R43 (b)). -/
def LengthsAtMost (t : CodeTable) (maxLen : Nat) : Prop := ∀ x : Byte, (bitsAt t x).length ≤ maxLen

/-- The table invariant of R43; a valid table also has no Unspec entry, since every command that sets TABLE_VALID
writes all of CODE (R141, R150, R175). -/
structure TableInv (t : CodeTable) (maxLen : Nat) : Prop where
  known : ∀ x : Byte, at256 t x ≠ .unspec
  someCodeword : ∃ x : Byte, bitsAt t x ≠ []
  lengths : LengthsAtMost t maxLen
  prefixes : PrefixFree t

/-- `x` is the serialization (R107) of the records `rs`, each a symbol and its codeword, and they are well formed
(R109): at least one record, strictly ascending symbols, codewords of 1 to `maxLen` bits, none a prefix of another's. -/
structure SerializedTable (maxLen : Nat) (rs : List (Byte × Bits)) (x : List Byte) : Prop where
  someRecord : rs ≠ []
  ascending : rs.Pairwise fun p q => p.1.toNat < q.1.toNat
  lengths : ∀ p ∈ rs, p.2 ≠ [] ∧ p.2.length ≤ maxLen
  prefixes : ∀ p ∈ rs, ∀ q ∈ rs, p.1 ≠ q.1 → ¬ p.2 <+: q.2
  bytes : x =
    BitVec.ofNat 8 (rs.length - 1) ::
      rs.flatMap fun p => p.1 :: BitVec.ofNat 8 p.2.length :: packMsb (p.2 ++ zeros ((8 - p.2.length % 8) % 8))

/-- The frequency of an arena entry. -/
def NodeEntry.freq : NodeEntry → Nat
  | .leaf _ f => f.toNat
  | .internal f _ _ => f.toNat
  | .unspec => 0

/-- An Internal entry at index `k` as R44 describes it: children below `k`, and the sum of their frequencies. -/
def InternalOk (a : Arena) (k : Nat) : Prop :=
  ∃ (f : Word) (l r : BitVec 9), a.entry k = .internal f l r ∧ l.toNat < k ∧ r.toNat < k ∧
    f.toNat = (a.entry l.toNat).freq + (a.entry r.toNat).freq

/-- The tree invariant of R44 for a tree of `n` leaves. -/
structure TreeOf (a : Arena) (n : Nat) : Prop where
  atLeast : 1 ≤ n
  atMost : n ≤ 256
  nodes : a.nodes.toNat = 2 * n - 1
  root : a.root.toNat = 2 * n - 2
  leaf : ∀ i < n, ∃ (x : Byte) (f : Word), a.entry i = .leaf x f ∧ 1 ≤ f.toNat
  ascending : ∀ i j, i < j → j < n → ∀ (x y : Byte) (f g : Word),
    a.entry i = .leaf x f → a.entry j = .leaf y g → x.toNat < y.toNat
  internal : ∀ k, n ≤ k → k < 2 * n - 1 → InternalOk a k

/-- The tree invariant of R44. -/
def TreeInv (a : Arena) : Prop := ∃ n, TreeOf a n

/-- `c` is a child of the entry at index `k`. -/
def IsChild (a : Arena) (k c : Nat) : Prop :=
  ∃ (f : Word) (l r : BitVec 9), a.entry k = .internal f l r ∧ (l.toNat = c ∨ r.toNat = c)

/-- The two children of an Internal entry are different entries (R133: they are popped one after the other). -/
def ChildrenDiffer (a : Arena) (k : Nat) : Prop :=
  ∀ (f : Word) (l r : BitVec 9), a.entry k = .internal f l r → l ≠ r

/-- The ownership law of R38 and R137 (c): every entry in use but the root is the child of exactly one Internal entry,
as one of its two different children, and the root is the child of none. -/
structure OneParent (a : Arena) : Prop where
  parent : ∀ c < a.root.toNat, ∃ k, k < a.nodes.toNat ∧ IsChild a k c
  unique : ∀ c k k', k < a.nodes.toNat → k' < a.nodes.toNat → IsChild a k c → IsChild a k' c → k = k'
  differ : ∀ k < a.nodes.toNat, ChildrenDiffer a k
  rootFree : ∀ k < a.nodes.toNat, ¬ IsChild a k a.root.toNat

/-- The queue order of R134 on arena indices: least frequency first, and at equal frequency the least index. -/
def KeyBelow (a : Arena) (i j : Nat) : Prop :=
  (a.entry i).freq < (a.entry j).freq ∨ ((a.entry i).freq = (a.entry j).freq ∧ i < j)

/-- The index `c` is in the queue when the entry `k` of a tree of `n` leaves is made (R133): it exists, and no earlier
merge has popped it. -/
def Waiting (a : Arena) (n k c : Nat) : Prop := c < k ∧ ∀ j, n ≤ j → j < k → ¬ IsChild a j c

/-- The merge that makes entry `k` pops the two least elements of the queue, the lesser one as the left child
(R133, R134, R135). -/
def MergedLeast (a : Arena) (n k : Nat) : Prop :=
  ∃ (f : Word) (l r : BitVec 9), a.entry k = .internal f l r ∧ l ≠ r ∧ Waiting a n k l.toNat ∧ Waiting a n k r.toNat ∧
    (∀ c, Waiting a n k c → c ≠ l.toNat → KeyBelow a l.toNat c) ∧
    ∀ c, Waiting a n k c → c ≠ l.toNat → c ≠ r.toNat → KeyBelow a r.toNat c

/-- The sum of all 256 counts (R123). -/
def Counts.total (c : Counts) : Nat := (allSymbols.map fun x => (at256 c x).toNat).sum

/-- The registers, tables and buffers at the values of R50 (what is unspecified there may be any draw). -/
structure State.AtReset (s : State) : Prop where
  phase : s.phase = .idle
  cmd : s.cmd = 0#32
  status : s.status = { done := false, err := false, overrun := false, errCode := .none }
  irqEn : s.irqEn = { doneIE := false, errIE := false }
  inLen : s.inLen = 0#32
  outLen : s.outLen = 0#32
  pad : s.pad = 0#3
  bitLen : s.bitLen = 0#32
  valid : s.valid = { freq := false, tree := false, table := false }
  freq : ∃ d, s.freq = .unspec d
  node : ∀ i, s.arena.entry i = .unspec
  code : ∀ x : Byte, at256 s.code x = .unspec
  inBuf : s.inBuf.cells = []
  outBuf : s.outBuf.cells = []

/-- The invariant of the block: what every reachable state satisfies. -/
structure State.Inv (s : State) : Prop where
  params : s.params.wellFormed = true
  inBuf : s.inBuf.wf ∧ s.inBuf.within s.params.inBufSize
  outBuf : s.outBuf.wf ∧ s.outBuf.within s.params.outBufSize
  freq : s.valid.freq = true → ∃ c, s.freq = .counts c ∧ c.total ≤ s.params.inBufSize
  tree : s.valid.tree = true → TreeInv s.arena ∧ OneParent s.arena
  lengths : LengthsAtMost s.code s.params.maxCodeLen
  table : s.valid.table = true → TableInv s.code s.params.maxCodeLen
  busy : s.busy = true → s.status.done = false ∧ s.status.err = false
  outLen : s.outLen.toNat ≤ s.params.outBufSize
  bitLen : s.bitLen.toNat ≤ 2 ^ 31
  reset : s.rstLow = true → s.AtReset

/-! ### Tree paths -/

/-- The arena index a string of branch bits leads to (R142): 0 takes the left child, 1 the right. -/
def follow (a : Arena) : Nat → Bits → Option Nat
  | i, [] => some i
  | i, b :: bs =>
    match a.entry i with
    | .internal _ l r => follow a (if b then r.toNat else l.toNat) bs
    | .leaf _ _ => none
    | .unspec => none

/-- The path `p` from the root ends at a leaf for `x`. -/
def LeafPath (a : Arena) (p : Bits) (x : Byte) : Prop :=
  ∃ (k : Nat) (f : Word), follow a a.root.toNat p = some k ∧ a.entry k = .leaf x f

/-- The tree COMPRESS builds from an input (R175). -/
abbrev treeFor (x : List Byte) : Arena := (finishedBuild (countBytes x)).arena

/-- The codes COMPRESS assigns from an input (R175). -/
abbrev codesFor (x : List Byte) : CodeTable := genCodes (treeFor x)

/-! ### Frames -/

/-- What no command writes, and what every completion writes: the phase is Idle and DONE is 1 (R203 to R205). -/
structure Completed (s t : State) : Prop where
  phase : t.phase = .idle
  done : t.status.done = true
  overrun : t.status.overrun = s.status.overrun
  cmd : t.cmd = s.cmd
  irqEn : t.irqEn = s.irqEn
  inLen : t.inLen = s.inLen
  inBuf : ∀ a, t.inBuf.read a = s.inBuf.read a
  rstLow : t.rstLow = s.rstLow
  params : t.params = s.params
  inputs : t.inputs = s.inputs
  resp : t.resp = s.resp

/-- The status of a success (R204). -/
def Succeeded (t : State) : Prop := t.status.err = false ∧ t.status.errCode = .none

/-- The status of a failure with code `e` (R205). -/
def FailedWith (t : State) (e : ErrCode) : Prop := t.status.err = true ∧ t.status.errCode = e

/-- FREQ and FREQ_VALID keep their values. -/
def SameFreq (s t : State) : Prop := t.freq = s.freq ∧ t.valid.freq = s.valid.freq

/-- NODE, ROOT, NODES and TREE_VALID keep their values. -/
def SameTree (s t : State) : Prop := t.arena = s.arena ∧ t.valid.tree = s.valid.tree

/-- CODE and TABLE_VALID keep their values. -/
def SameTable (s t : State) : Prop := t.code = s.code ∧ t.valid.table = s.valid.table

/-- OUT_LEN, PAD and BIT_LEN and every byte of OUT_BUF keep their values. -/
def SameOutput (s t : State) : Prop :=
  t.outLen = s.outLen ∧ t.pad = s.pad ∧ t.bitLen = s.bitLen ∧ ∀ a, t.outBuf.read a = s.outBuf.read a

/-- FREQ is unspecified and FREQ_VALID is 0 (R205). -/
def SpoiledFreq (t : State) : Prop := (∃ d, t.freq = .unspec d) ∧ t.valid.freq = false

/-- Every NODE entry is Unspec and TREE_VALID is 0 (R205). -/
def SpoiledTree (t : State) : Prop := (∀ i, t.arena.entry i = .unspec) ∧ t.valid.tree = false

/-- Every CODE entry is Unspec and TABLE_VALID is 0 (R205). -/
def SpoiledTable (t : State) : Prop := (∀ x : Byte, at256 t.code x = .unspec) ∧ t.valid.table = false

/-- Every byte of OUT_BUF is unspecified; OUT_LEN, PAD and BIT_LEN are 0 (R205). -/
def SpoiledOutput (t : State) : Prop := t.outBuf.cells = [] ∧ t.outLen = 0#32 ∧ t.pad = 0#3 ∧ t.bitLen = 0#32

/-- The failure effects of R205 on the target structures `g` of a command, and the frame of the rest. -/
structure FailureEffects (s t : State) (g : Targets) : Prop where
  freq : if g.freq then SpoiledFreq t else SameFreq s t
  node : if g.node then SpoiledTree t else SameTree s t
  code : if g.code then SpoiledTable t else SameTable s t
  out : if g.out then SpoiledOutput t else SameOutput s t

/-- The result of an output command: the bytes stand at OUT_BUF[0 .. OUT_LEN), every byte above keeps its value
(R204), and OUT_LEN, PAD and BIT_LEN say what they are. -/
structure Output (s t : State) (bytes : List Byte) (pad bits : Nat) : Prop where
  outLen : t.outLen.toNat = bytes.length
  written : t.outBuf.readBytes 0 bytes.length = bytes
  above : ∀ a, bytes.length ≤ a → t.outBuf.read a = s.outBuf.read a
  pad : t.pad.toNat = pad
  bitLen : t.bitLen.toNat = bits

end Sys2Proof.Machine
end

