-- ==== Sys2Proof/Certificates/Slice0/Obligations.lean ====
section
/-! DEFINITION. The statements for the provers, by family: reset and sequencing, decoding, the host port, the control
commands, the stage commands, the table commands, the stream commands, the facade commands, the whole machine. -/

open Sys2Proof Sys2Proof.Machine

/-! ### Reset and sequencing -/

/-- R50: the state after reset. Every register of the table reads its value, FREQ and the buffers hold unspecified
values (any draw), NODE and CODE are Unspec (their windows read `anyval`), `irq` is 0. -/
def Obligations.ResetLeavesTheTableOfR50 : Prop :=
  State.reset.AtReset ∧ State.reset.irq = false ∧
  State.reset.readReg (regAt 0x000) = some 0x48554631#32 ∧
  (∀ off ∈ [0x004, 0x008, 0x00C, 0x010, 0x014, 0x018, 0x01C, 0x020, 0x024, 0x028, 0x02C],
    State.reset.readReg (regAt off) = some 0#32) ∧
  State.reset.readReg (regAt 0x030) = some (BitVec.ofNat 32 State.reset.params.inBufSize) ∧
  State.reset.readReg (regAt 0x034) = some (BitVec.ofNat 32 State.reset.params.outBufSize) ∧
  State.reset.readReg (regAt 0x038) = some (BitVec.ofNat 32 State.reset.params.maxCodeLen) ∧
  ∀ off, 0x800 ≤ off → off < 0xC00 ∨ (0x1000 ≤ off ∧ off < 0x3000) ∨ (0x4000 ≤ off ∧ off < 0x4FF8) →
    State.reset.readReg (regAt off) = none

/-- R231, R232: when `rst_n` goes low the block takes the reset state, whatever command was running (no completion: DONE
stays 0), the parameters stay, and only what is outside the block goes on (`inputs` and `resp` are the model's own
fields, log entries 1 and 5; the event is the step that drives the pin low, log entry 14). -/
def Obligations.ResetPinAbandonsTheCommand : Prop :=
  ∀ (s : State) (rest : List HostEvent), s.inputs = .resetPin false :: rest →
    ∃ t, step s = .next t ∧ t.AtReset ∧ t.rstLow = true ∧ t.irq = false ∧ t.params = s.params ∧ t.inputs = rest ∧
      t.resp = s.resp

/-- R231: while `rst_n` is low, host writes are ignored, host reads return `anyval` (a fresh free value), and the engine
does nothing. Accesses R63 and R64 reject are a bus error at any time (the model's choice, log entry 6), so the
statement is about well-formed ones. -/
def Obligations.HeldInResetIgnoresTheHost : Prop :=
  ∀ (s : State), s.rstLow = true →
    (s.inputs = [] → step s = .next s) ∧
    ∀ (t : Txn) (rest : List HostEvent), s.inputs = .access t :: rest → t.wellFormed s.params = true →
      (∀ v, t.dir = .write v → step s = .next { s with inputs := rest, resp := .wrote }) ∧
      (t.dir = .read →
        step s = .next { s with inputs := rest, resp := .read (Config.freeWord s.draws), draws := s.draws + 1 })

/-- R221: Idle retains all state: with nothing pending, a step changes nothing. -/
def Obligations.IdleRetainsAllState : Prop :=
  ∀ (s : State), s.phase = .idle → s.inputs = [] → step s = .next s

/-- A step runs the decoded command: when it is the engine's turn (nothing is pending, or the engine's turn is the
oldest pending input) and the phase holds a word that decodes to `i`, the step is `exec i` on that state. Any other
oldest pending input is what the step does: a host access (R76), or a level of `rst_n`. Whose turn it is, is the model's
choice (log entry 1). -/
def Obligations.StepRunsTheDecodedCommand : Prop :=
  ∀ (s : State),
    (∀ (w : Word) (i : Instr), s.rstLow = false → s.phase = .busy w → decode w = .ok i →
      (s.inputs = [] → step s = exec i s) ∧
      ∀ rest, s.inputs = .engine :: rest → step s = exec i { s with inputs := rest }) ∧
    (∀ t rest, s.inputs = .access t :: rest → step s = hostAccess t { s with inputs := rest }) ∧
    (∀ t rest, s.inputs = .accessAt t :: rest → step s = hostAccessAt t { s with inputs := rest }) ∧
    ∀ level rest, s.inputs = .resetPin level :: rest → step s = .next (driveReset level { s with inputs := rest })

/-- R192, R95: an illegal word (a reserved bit set, or OP above 0x0A) in the phase completes, as the engine's one
transition, with ILLEGAL_COMMAND and changes nothing else. -/
def Obligations.IllegalWordChangesOnlyStatus : Prop :=
  ∀ (s : State) (w : Word), s.rstLow = false → s.phase = .busy w →
    w.extractLsb' 8 24 ≠ 0#24 ∨ 0x0A#8 < w.extractLsb' 0 8 →
    engineStep s = .next
        { s with
          phase := .idle
          status := { done := true, err := true, overrun := s.status.overrun, errCode := .illegalCommand } } ∧
      (s.inputs = [] → step s = engineStep s)

/-- R203 to R205: every command ends in one completion: the phase is Idle, DONE is 1, ERR says whether it failed, and
what no command writes keeps its value (IN_BUF among it, R66). -/
def Obligations.EveryCommandCompletesOnce : Prop :=
  ∀ (i : Instr) (s : State), ∃ t, exec i s = .next t ∧ Completed s t ∧ (t.status.err = true ↔ t.status.errCode ≠ .none)

/-- R205: what a failed command leaves: each of its target structures is spoiled and its VALID bit or its length
registers are 0; every structure that is no target keeps its value. -/
def Obligations.FailureSpoilsExactlyTheTargets : Prop :=
  ∀ (i : Instr) (s t : State), exec i s = .next t → t.status.err = true →
    match i with
    | .nop | .clear => False
    | .freq => SpoiledFreq t ∧ SameTree s t ∧ SameTable s t ∧ SameOutput s t
    | .buildTree => SameFreq s t ∧ SpoiledTree t ∧ SameTable s t ∧ SameOutput s t
    | .genCodes | .loadTable => SameFreq s t ∧ SameTree s t ∧ SpoiledTable t ∧ SameOutput s t
    | .pack | .unpack | .decompress | .saveTable => SameFreq s t ∧ SameTree s t ∧ SameTable s t ∧ SpoiledOutput t
    | .compress => SpoiledFreq t ∧ SpoiledTree t ∧ SpoiledTable t ∧ SpoiledOutput t

/-- R208, R200: the errors each command can report, and no other: the rows of R208's table. -/
def Obligations.EachCommandReportsOnlyItsErrors : Prop :=
  ∀ (i : Instr) (s t : State), exec i s = .next t → t.status.err = true →
    t.status.errCode ∈
      (match i with
      | .nop | .clear => []
      | .freq => [ErrCode.inputTooLong]
      | .buildTree => [.sequenceError, .emptyAlphabet]
      | .genCodes => [.sequenceError, .codeTooLong]
      | .pack => [.inputTooLong, .sequenceError, .unmappedSymbol, .outputOverflow]
      | .unpack => [.inputTooLong, .truncatedStream, .outputOverflow]
      | .compress => [.inputTooLong, .emptyInput, .codeTooLong, .outputOverflow]
      | .decompress => [.inputTooLong, .sequenceError, .truncatedStream, .undecodableStream, .outputOverflow]
      | .saveTable => [.sequenceError, .outputOverflow]
      | .loadTable => [.inputTooLong, .invalidTable])

/-- R113, R212: a host that polls STATUS while a command runs sees it complete (how many reads come first is the pending
inputs' choice, log entry 1): `n` reads of STATUS, each answered with
BUSY = 1, and one more step later the block is Idle with DONE = 1. -/
def Obligations.PollingTheStatusEnds : Prop :=
  ∀ (n : Nat) (s : State), s.busy = true → s.rstLow = false →
    s.inputs = List.replicate n (.access { dir := .read, space := .reg, offset := 0x008, width := 4 }) →
    (∀ k, k < n → ∃ t v, core.run (k + 1) s = .next t ∧ t.resp = .read v ∧ v.getLsbD 0 = true) ∧
    ∃ t, core.run (n + 1) s = .next t ∧ t.phase = .idle ∧ t.status.done = true ∧ t.inputs = []

/-! ### Decoding -/

/-- R91, R92, R93, R95: a word decodes to a row of the opcode map exactly if it is that row's word, and decodes at all
exactly if its reserved bits are 0 and its OP is at most 0x0A. -/
def Obligations.DecodeInvertsEncode : Prop :=
  ∀ w : Word,
    (∀ i : Instr, decode w = .ok i ↔ w = encode i) ∧
    ((∃ i, decode w = .ok i) ↔ w.extractLsb' 8 24 = 0#24 ∧ w.extractLsb' 0 8 ≤ 0x0A#8)

/-- The words of R92 written out bit by bit, one per row, and what they decode to; and words of R95, which are illegal. -/
def Obligations.SampleWordsDecode : Prop :=
  decode 0b00000000000000000000000000000000#32 = .ok .nop ∧
  decode 0b00000000000000000000000000000001#32 = .ok .freq ∧
  decode 0b00000000000000000000000000000010#32 = .ok .buildTree ∧
  decode 0b00000000000000000000000000000011#32 = .ok .genCodes ∧
  decode 0b00000000000000000000000000000100#32 = .ok .pack ∧
  decode 0b00000000000000000000000000000101#32 = .ok .unpack ∧
  decode 0b00000000000000000000000000000110#32 = .ok .compress ∧
  decode 0b00000000000000000000000000000111#32 = .ok .decompress ∧
  decode 0b00000000000000000000000000001000#32 = .ok .saveTable ∧
  decode 0b00000000000000000000000000001001#32 = .ok .loadTable ∧
  decode 0b00000000000000000000000000001010#32 = .ok .clear ∧
  decode 0b00000000000000000000000000001011#32 = .error .opcodeUnassigned ∧
  decode 0b00000000000000000000000011111111#32 = .error .opcodeUnassigned ∧
  decode 0b00000000000000000000000100000000#32 = .error .reservedBitSet ∧
  decode 0b10000000000000000000000000000110#32 = .error .reservedBitSet

/-! ### The host port -/

/-- R25: a CMD write in Idle is accepted: CMD holds the word, DONE and ERR are cleared, the phase is Busy with it. A CMD
write while Busy is discarded and sets CMD_OVERRUN. Nothing else of the block changes. -/
def Obligations.CmdWriteStartsOrOverruns : Prop :=
  ∀ (s : State) (w : Word) (rest : List HostEvent), s.rstLow = false →
    s.inputs = .access { dir := .write w, space := .reg, offset := 0x004, width := 4 } :: rest →
    (s.phase = .idle →
      step s = .next
        { s with
          inputs := rest
          resp := .wrote
          cmd := w
          status := { s.status with done := false, err := false }
          phase := .busy w }) ∧
    ∀ c, s.phase = .busy c →
      step s = .next { s with inputs := rest, resp := .wrote, status := { s.status with overrun := true } }

/-- R26, R200: the layout of STATUS: BUSY, DONE, ERR, CMD_OVERRUN in bits 0 to 3, ERR_CODE in [15:8] with the codes of
R200, and 0 elsewhere. R27: of IRQ_EN: DONE_IE, ERR_IE in bits 0 and 1, and 0 elsewhere. R32: of VALID: FREQ_VALID,
TREE_VALID, TABLE_VALID in bits 0 to 2, and 0 elsewhere. -/
def Obligations.StatusWordLayout : Prop :=
  ∀ s : State,
    s.statusWord.getLsbD 0 = s.busy ∧ s.statusWord.getLsbD 1 = s.status.done ∧
    s.statusWord.getLsbD 2 = s.status.err ∧ s.statusWord.getLsbD 3 = s.status.overrun ∧
    s.statusWord.extractLsb' 4 4 = 0#4 ∧ s.statusWord.extractLsb' 16 16 = 0#16 ∧
    (s.statusWord.extractLsb' 8 8 =
      match s.status.errCode with
      | .none => 0x00#8
      | .emptyAlphabet => 0x01#8
      | .emptyInput => 0x02#8
      | .truncatedStream => 0x03#8
      | .undecodableStream => 0x04#8
      | .illegalCommand => 0x10#8
      | .sequenceError => 0x11#8
      | .inputTooLong => 0x12#8
      | .outputOverflow => 0x13#8
      | .unmappedSymbol => 0x14#8
      | .invalidTable => 0x15#8
      | .codeTooLong => 0x16#8) ∧
    s.irqEnWord.getLsbD 0 = s.irqEn.doneIE ∧ s.irqEnWord.getLsbD 1 = s.irqEn.errIE ∧
    s.irqEnWord.extractLsb' 2 30 = 0#30 ∧
    s.validWord.getLsbD 0 = s.valid.freq ∧ s.validWord.getLsbD 1 = s.valid.tree ∧
    s.validWord.getLsbD 2 = s.valid.table ∧ s.validWord.extractLsb' 3 29 = 0#29

/-- R26, R27, R28, R74: writes of STATUS clear the bits written 1, each alone, in either phase, IRQ_EN takes its two bits in
either phase, IN_LEN takes any word in Idle and ignores a write while Busy. Nothing else changes. That ERR stays 1 where a
write clears DONE alone is the model's choice (DEDUCED, log entry 9). -/
def Obligations.ControlRegisterWrites : Prop :=
  ∀ (s : State) (v : Word) (off : Nat) (rest : List HostEvent), s.rstLow = false →
    s.inputs = .access { dir := .write v, space := .reg, offset := off, width := 4 } :: rest →
    (off = 0x008 →
      step s = .next
        { s with
          inputs := rest
          resp := .wrote
          status :=
            { done := s.status.done && !v.getLsbD 1
              err := s.status.err && !v.getLsbD 2
              overrun := s.status.overrun && !v.getLsbD 3
              errCode := s.status.errCode } }) ∧
    (off = 0x00C →
      step s = .next
        { s with inputs := rest, resp := .wrote, irqEn := { doneIE := v.getLsbD 0, errIE := v.getLsbD 1 } }) ∧
    (off = 0x010 →
      step s = .next { s with inputs := rest, resp := .wrote, inLen := if s.busy then s.inLen else v })

/-- R45: a write to a reserved or read-only register offset is ignored, in either phase, with no error; a reserved offset
reads 0. A write of STATUS ignores every bit but [3:1], so BUSY and ERR_CODE are read-only and the reserved bits stay 0;
a write of IRQ_EN leaves its reserved bits 0. -/
def Obligations.ReservedAndReadOnlyIgnoreWrites : Prop :=
  ∀ (s : State) (off : Nat), s.rstLow = false → off % 4 = 0 → off < 0x8000 →
    (∀ v, off ≠ 0x004 → off ≠ 0x008 → off ≠ 0x00C → off ≠ 0x010 →
      hostAccess { dir := .write v, space := .reg, offset := off, width := 4 } s = .next { s with resp := .wrote }) ∧
    ((0x03C ≤ off ∧ off < 0x400) ∨ (0xC00 ≤ off ∧ off < 0x1000) ∨ (0x3000 ≤ off ∧ off < 0x4000) ∨ 0x4FF8 ≤ off →
      hostAccess { dir := .read, space := .reg, offset := off, width := 4 } s = .next { s with resp := .read 0#32 }) ∧
    (∀ v, off = 0x008 → v.extractLsb' 1 3 = 0#3 →
      hostAccess { dir := .write v, space := .reg, offset := off, width := 4 } s = .next { s with resp := .wrote }) ∧
    ∀ v, off = 0x00C →
      ∃ t, hostAccess { dir := .write v, space := .reg, offset := off, width := 4 } s = .next t ∧
        t.irqEnWord = v &&& 3#32 ∧ t = { s with resp := .wrote, irqEn := t.irqEn }

/-- R63: a register access that is not a 32-bit word at a multiple of 4 is a host fault; every other access below 0x8000
completes. -/
def Obligations.RegisterAccessFaults : Prop :=
  ∀ (s : State) (t : Txn), t.space = .reg → t.offset < 0x8000 →
    ((t.width ≠ 4 ∨ t.offset % 4 ≠ 0) → ∃ why, hostAccess t s = .fault (.busError why)) ∧
    (t.width = 4 → t.offset % 4 = 0 → ∃ t', hostAccess t s = .next t')

/-- R64: a buffer access that is not 1, 2 or 4 bytes wide, is misaligned, or reaches an offset at or beyond the buffer's
size is a host fault; every other one completes. (That a width other than 1, 2 and 4 is a bus error too is the model's
reading, log entry 6.) -/
def Obligations.BufferAccessFaults : Prop :=
  ∀ (s : State) (t : Txn) (size : Nat),
    (t.space = .inBuf ∧ size = s.params.inBufSize) ∨ (t.space = .outBuf ∧ size = s.params.outBufSize) →
    if (t.width = 1 ∨ t.width = 2 ∨ t.width = 4) ∧ t.offset % t.width = 0 ∧ t.offset + t.width ≤ size then
      ∃ t', hostAccess t s = .next t'
    else ∃ why, hostAccess t s = .fault (.busError why)

/-- R81, R62: an access outside the three apertures is refused by name (the model's choice, log entry 10); an access by host address
inside one is the access at its offset. The three ranges do not overlap, by the constraint of R62. -/
def Obligations.AddressesSelectApertures : Prop :=
  ∀ (s : State) (t : AddrTxn), s.params.wellFormed = true →
    (∀ off, off < 0x8000 → t.addr = s.params.regBase + off →
      hostAccessAt t s = hostAccess { dir := t.dir, space := .reg, offset := off, width := t.width } s) ∧
    (∀ off, off < s.params.inBufSize → t.addr = s.params.inBase + off →
      hostAccessAt t s = hostAccess { dir := t.dir, space := .inBuf, offset := off, width := t.width } s) ∧
    (∀ off, off < s.params.outBufSize → t.addr = s.params.outBase + off →
      hostAccessAt t s = hostAccess { dir := t.dir, space := .outBuf, offset := off, width := t.width } s) ∧
    ((t.addr < s.params.regBase ∨ s.params.regBase + 0x8000 ≤ t.addr) →
      (t.addr < s.params.inBase ∨ s.params.inBase + s.params.inBufSize ≤ t.addr) →
      (t.addr < s.params.outBase ∨ s.params.outBase + s.params.outBufSize ≤ t.addr) →
      hostAccessAt t s = .refused .outsideApertures)

/-- R64, R65: a buffer write in Idle stores the low `width` bytes of the word, least significant at the lowest offset,
and leaves every other byte of both buffers and everything else of the block as it was. -/
def Obligations.BufferWriteIsLittleEndian : Prop :=
  ∀ (s : State) (t : Txn) (v : Word) (rest : List HostEvent), s.rstLow = false → s.phase = .idle → t.dir = .write v →
    t.space ≠ .reg → t.wellFormed s.params = true → s.inputs = .access t :: rest →
    ∃ i o, step s = .next { s with inputs := rest, resp := .wrote, inBuf := i, outBuf := o } ∧
      (t.space = .inBuf →
        (∀ k < t.width, i.read (t.offset + k) = v.extractLsb' (8 * k) 8) ∧
        (∀ a, a < t.offset ∨ t.offset + t.width ≤ a → i.read a = s.inBuf.read a) ∧
        ∀ a, o.read a = s.outBuf.read a) ∧
      (t.space = .outBuf →
        (∀ k < t.width, o.read (t.offset + k) = v.extractLsb' (8 * k) 8) ∧
        (∀ a, a < t.offset ∨ t.offset + t.width ≤ a → o.read a = s.outBuf.read a) ∧
        ∀ a, i.read a = s.inBuf.read a)

/-- R64, R75: a buffer read returns the bytes little-endian: IN_BUF in either phase, OUT_BUF in Idle. That a read narrower
than a word is zero above its bytes is the model's reading (log entry 13). -/
def Obligations.BufferReadIsLittleEndian : Prop :=
  ∀ (s : State) (t : Txn), s.rstLow = false → t.dir = .read → t.wellFormed s.params = true →
    (t.space = .inBuf →
      ∃ v, hostAccess t s = .next { s with resp := .read v } ∧
        (∀ k < t.width, v.extractLsb' (8 * k) 8 = s.inBuf.read (t.offset + k)) ∧ v.toNat < 2 ^ (8 * t.width)) ∧
    (t.space = .outBuf → s.phase = .idle →
      ∃ v, hostAccess t s = .next { s with resp := .read v } ∧
        (∀ k < t.width, v.extractLsb' (8 * k) 8 = s.outBuf.read (t.offset + k)) ∧ v.toNat < 2 ^ (8 * t.width))

/-- R73: no read has a side effect on the block: only the port's response and the number of the next free value (the
model's own fields) can differ. -/
def Obligations.ReadsHaveNoSideEffect : Prop :=
  ∀ (s t : State) (x : Txn), x.dir = .read → hostAccess x s = .next t → t = { s with resp := t.resp, draws := t.draws }

/-- R74: while Busy, no host access changes what the running command reads or where it writes (IN_BUF, IN_LEN, FREQ,
NODE, CODE, VALID, OUT_BUF and its lengths), or the command itself. -/
def Obligations.HostCannotDisturbARunningCommand : Prop :=
  ∀ (s t : State) (x : Txn), s.busy = true → hostAccess x s = .next t →
    t.phase = s.phase ∧ t.cmd = s.cmd ∧ t.inLen = s.inLen ∧ t.inBuf = s.inBuf ∧ t.freq = s.freq ∧ t.arena = s.arena ∧
      t.code = s.code ∧ t.valid = s.valid ∧ t.outBuf = s.outBuf ∧ t.outLen = s.outLen ∧ t.pad = s.pad ∧
      t.bitLen = s.bitLen ∧ t.params = s.params ∧ t.rstLow = s.rstLow

/-- R75, R240: what host reads return while Busy: ID, CMD, STATUS, IRQ_EN, IN_LEN and the parameter registers read as in
Idle, and STATUS reads BUSY = 1, DONE = 0, ERR = 0; the result registers, the table windows and OUT_BUF read `anyval`, a
fresh free value. -/
def Obligations.ReadsWhileBusy : Prop :=
  ∀ (s : State), s.busy = true → s.Inv → s.rstLow = false →
    s.statusWord.extractLsb' 0 3 = 0b001#3 ∧
    (∀ p ∈ [(0x000, 0x48554631#32), (0x004, s.cmd), (0x008, s.statusWord), (0x00C, s.irqEnWord), (0x010, s.inLen),
        (0x030, BitVec.ofNat 32 s.params.inBufSize), (0x034, BitVec.ofNat 32 s.params.outBufSize),
        (0x038, BitVec.ofNat 32 s.params.maxCodeLen)],
      hostAccess { dir := .read, space := .reg, offset := p.1, width := 4 } s = .next { s with resp := .read p.2 }) ∧
    (∀ off, off % 4 = 0 →
      (0x014 ≤ off ∧ off < 0x030) ∨ (0x400 ≤ off ∧ off < 0xC00) ∨ (0x1000 ≤ off ∧ off < 0x3000) ∨
        (0x4000 ≤ off ∧ off < 0x4FF8) →
      hostAccess { dir := .read, space := .reg, offset := off, width := 4 } s =
        .next { s with resp := .read (Config.freeWord s.draws), draws := s.draws + 1 }) ∧
    ∀ x : Txn, x.dir = .read → x.space = .outBuf → x.wellFormed s.params = true →
      hostAccess x s = .next { s with resp := .read (Config.freeWord s.draws), draws := s.draws + 1 }

/-- R21, R24 to R35, R37: what a host read of each register returns in Idle, at its offset (the layout of STATUS, IRQ_EN
and VALID is StatusWordLayout, of NSYM, MAX_LEN and TREE_INFO DerivedRegistersDescribeTheTables); and a read of any
register offset returns its word of the register map, or a fresh free value where that is `anyval`.
R36, R39, R41: what the table windows show in Idle: FREQ[s]; word 0 and word 1 of a NODE entry; the length of a
codeword; and its bits, left-aligned, first bit at the top. An Unspec entry reads `anyval`. -/
def Obligations.WindowsShowTheTables : Prop :=
  ∀ (s : State), s.busy = false →
    (s.rstLow = false →
      (∀ p ∈ [(0x000, 0x48554631#32), (0x004, s.cmd), (0x008, s.statusWord), (0x00C, s.irqEnWord), (0x010, s.inLen),
          (0x014, s.outLen), (0x018, s.pad.setWidth 32), (0x01C, s.bitLen), (0x020, s.validWord),
          (0x024, BitVec.ofNat 32 s.nsym), (0x028, BitVec.ofNat 32 s.maxLen), (0x02C, s.treeInfoWord),
          (0x030, BitVec.ofNat 32 s.params.inBufSize), (0x034, BitVec.ofNat 32 s.params.outBufSize),
          (0x038, BitVec.ofNat 32 s.params.maxCodeLen)],
        hostAccess { dir := .read, space := .reg, offset := p.1, width := 4 } s = .next { s with resp := .read p.2 }) ∧
      ∀ off, off % 4 = 0 → off < 0x8000 →
        (∀ v, s.readReg (regAt off) = some v →
          hostAccess { dir := .read, space := .reg, offset := off, width := 4 } s = .next { s with resp := .read v }) ∧
        (s.readReg (regAt off) = none →
          hostAccess { dir := .read, space := .reg, offset := off, width := 4 } s =
            .next { s with resp := .read (Config.freeWord s.draws), draws := s.draws + 1 })) ∧
    (∀ x : Byte, s.readReg (regAt (0x400 + 4 * x.toNat)) = some (s.freq.countOf x)) ∧
    (∀ i < 511, ∀ (x : Byte) (f : Word), s.arena.entry i = .leaf x f →
      s.readReg (regAt (0x4000 + 8 * i)) = some f ∧
      ∃ w, s.readReg (regAt (0x4004 + 8 * i)) = some w ∧ w.getLsbD 31 = true ∧ w.extractLsb' 8 23 = 0#23 ∧
        w.extractLsb' 0 8 = x) ∧
    (∀ i < 511, ∀ (f : Word) (l r : BitVec 9), s.arena.entry i = .internal f l r →
      s.readReg (regAt (0x4000 + 8 * i)) = some f ∧
      ∃ w, s.readReg (regAt (0x4004 + 8 * i)) = some w ∧ w.extractLsb' 26 6 = 0#6 ∧ w.extractLsb' 17 9 = r ∧
        w.extractLsb' 8 9 = l ∧ w.extractLsb' 0 8 = 0#8) ∧
    (∀ i < 511, s.arena.entry i = .unspec →
      s.readReg (regAt (0x4000 + 8 * i)) = none ∧ s.readReg (regAt (0x4004 + 8 * i)) = none) ∧
    (∀ (x : Byte) (c : Bits), at256 s.code x = .word c →
      s.readReg (regAt (0x800 + 4 * x.toNat)) = some (BitVec.ofNat 32 c.length) ∧
      ∀ k < 8, ∃ w, s.readReg (regAt (0x1000 + 32 * x.toNat + 4 * k)) = some w ∧
        ∀ j < 32, w.getLsbD (31 - j) = c.getD (32 * k + j) false) ∧
    ∀ x : Byte, at256 s.code x = .unspec →
      s.readReg (regAt (0x800 + 4 * x.toNat)) = none ∧
      ∀ k < 8, s.readReg (regAt (0x1000 + 32 * x.toNat + 4 * k)) = none

/-- R33, R34, R35: NSYM, MAX_LEN and TREE_INFO are functions of the tables: the number of symbols with a codeword, 1 to
256; the length of the longest, at most 255; ROOT and NODES. Each is 0 when its VALID bit is 0. -/
def Obligations.DerivedRegistersDescribeTheTables : Prop :=
  ∀ (s : State), s.Inv →
    (s.valid.table = true →
      s.nsym = (allSymbols.countP fun x => decide (bitsAt s.code x ≠ [])) ∧ 1 ≤ s.nsym ∧ s.nsym ≤ 256 ∧
      (∀ x : Byte, (bitsAt s.code x).length ≤ s.maxLen) ∧ (∃ x : Byte, (bitsAt s.code x).length = s.maxLen) ∧
      s.maxLen ≤ 255) ∧
    (s.valid.table = false → s.nsym = 0 ∧ s.maxLen = 0) ∧
    (s.valid.tree = true →
      s.treeInfoWord.extractLsb' 0 9 = s.arena.root ∧ s.treeInfoWord.extractLsb' 9 7 = 0#7 ∧
      s.treeInfoWord.extractLsb' 16 9 = s.arena.nodes ∧ s.treeInfoWord.extractLsb' 25 7 = 0#7) ∧
    (s.valid.tree = false → s.treeInfoWord = 0#32)

/-- R210, R211: the interrupt follows STATUS and IRQ_EN as a level. A completion (R204, R205) raises it exactly if DONE_IE
is set, or ERR_IE is set and the command failed; the completion of an illegal word (R95), which fails, exactly if one of
the two is set. An accepted command write (R25) lowers it. A write of STATUS (R26) sets the level from what is left of DONE
and ERR, each bit cleared alone, and a write of IRQ_EN (R27) in either phase sets it at once from the new enables. Reset
(R231, R233) lowers it; the event is the step that drives the pin low (log entry 14). The clause on STATUS is the model's
choice (DEDUCED, log entry 9) where a write clears DONE alone: R26 lets it, ERR then stays 1 and with ERR_IE keeps
driving the interrupt, although R211 says that ERR = 1 implies DONE = 1. -/
def Obligations.InterruptFollowsCompletion : Prop :=
  (∀ (i : Instr) (s t : State), exec i s = .next t →
    (t.irq = true ↔ s.irqEn.doneIE = true ∨ (s.irqEn.errIE = true ∧ t.status.err = true))) ∧
  (∀ (s t : State) (w : Word) (e : DecodeError), s.rstLow = false → s.phase = .busy w → decode w = .error e →
    engineStep s = .next t → (t.irq = true ↔ s.irqEn.doneIE = true ∨ s.irqEn.errIE = true)) ∧
  (∀ (s t : State) (w : Word), s.phase = .idle → s.rstLow = false →
    hostAccess { dir := .write w, space := .reg, offset := 0x004, width := 4 } s = .next t → t.irq = false) ∧
  (∀ (s t : State) (w : Word), s.rstLow = false →
    hostAccess { dir := .write w, space := .reg, offset := 0x008, width := 4 } s = .next t →
    (t.irq = true ↔
      (s.status.done = true ∧ w.getLsbD 1 = false ∧ s.irqEn.doneIE = true) ∨
      (s.status.err = true ∧ w.getLsbD 2 = false ∧ s.irqEn.errIE = true))) ∧
  (∀ (s t : State) (w : Word), s.rstLow = false →
    hostAccess { dir := .write w, space := .reg, offset := 0x00C, width := 4 } s = .next t →
    (t.irq = true ↔
      (s.status.done = true ∧ w.getLsbD 0 = true) ∨ (s.status.err = true ∧ w.getLsbD 1 = true))) ∧
  ∀ s : State, (driveReset false s).irq = false

/-! ### Control commands -/

/-- R190: NOP completes with no effect: only the phase, DONE, ERR and ERR_CODE change. -/
def Obligations.NopChangesOnlyStatus : Prop :=
  ∀ s : State, exec .nop s = .next
    { s with phase := .idle, status := { done := true, err := false, overrun := s.status.overrun, errCode := .none } }

/-- R191: CLEAR zeroes FREQ, NODE and CODE, clears VALID, OUT_LEN, PAD and BIT_LEN, keeps IN_LEN, IRQ_EN, CMD_OVERRUN and
every byte of both buffers, and afterwards every window word reads 0. -/
def Obligations.ClearZeroesTheTables : Prop :=
  ∀ s : State, ∃ t, exec .clear s = .next t ∧ Completed s t ∧ Succeeded t ∧
    (∀ x : Byte, t.freq.countOf x = 0#32) ∧ (∀ x : Byte, at256 t.code x = .word []) ∧
    (∀ i < 511, t.arena.entry i = .internal 0#32 0#9 0#9) ∧
    t.valid = { freq := false, tree := false, table := false } ∧
    t.outLen = 0#32 ∧ t.pad = 0#3 ∧ t.bitLen = 0#32 ∧ (∀ a, t.outBuf.read a = s.outBuf.read a) ∧
    ∀ off, off % 4 = 0 →
      (0x400 ≤ off ∧ off < 0xC00) ∨ (0x1000 ≤ off ∧ off < 0x3000) ∨ (0x4000 ≤ off ∧ off < 0x4FF8) →
      t.readReg (regAt off) = some 0#32

/-! ### Stage commands -/

/-- R121, R122: FREQ counts every byte value of IN_BUF[0 .. IN_LEN) exactly and sets FREQ_VALID; every other structure
keeps its value. -/
def Obligations.FreqCountsTheInput : Prop :=
  ∀ s : State, s.inLen.toNat ≤ s.params.inBufSize →
    ∃ t, exec .freq s = .next t ∧ Completed s t ∧ Succeeded t ∧ t.valid.freq = true ∧
      (∀ x : Byte, (t.freq.countOf x).toNat = (List.range s.inLen.toNat).countP fun a => s.inBuf.read a == x) ∧
      SameTree s t ∧ SameTable s t ∧ SameOutput s t

/-- R123: the counts FREQ leaves sum to IN_LEN, none exceeds it, and IN_LEN is at most IN_BUF_SIZE, at most 2^28, so
none wraps; the number of symbols present is at most 256 and at most IN_LEN. -/
def Obligations.CountsSumToTheInputLength : Prop :=
  ∀ s t : State, s.params.wellFormed = true → exec .freq s = .next t → t.status.err = false →
    (allSymbols.map fun x => (t.freq.countOf x).toNat).sum = s.inLen.toNat ∧
      (∀ x : Byte, (t.freq.countOf x).toNat ≤ s.inLen.toNat) ∧
      s.inLen.toNat ≤ s.params.inBufSize ∧ s.params.inBufSize ≤ 2 ^ 28 ∧
      (allSymbols.countP fun x => t.freq.countOf x != 0#32) ≤ 256 ∧
      (allSymbols.countP fun x => t.freq.countOf x != 0#32) ≤ s.inLen.toNat

/-- R131, R132, R133, R136, R44: BUILD_TREE on valid counts that are not all 0 makes a tree of R44 with one leaf per symbol
present, carrying its count, NODES = 2n - 1 and ROOT = 2n - 2 for n leaves, and Unspec entries above; every other
structure keeps its value. -/
def Obligations.BuildTreeMakesATree : Prop :=
  ∀ s : State, s.Inv → s.valid.freq = true → (∃ x : Byte, s.freq.countOf x ≠ 0#32) →
    ∃ t n, exec .buildTree s = .next t ∧ Completed s t ∧ Succeeded t ∧ t.valid.tree = true ∧ TreeOf t.arena n ∧
      n = (allSymbols.countP fun x => s.freq.countOf x != 0#32) ∧
      (∀ x : Byte, s.freq.countOf x ≠ 0#32 → ∃ i < n, t.arena.entry i = .leaf x (s.freq.countOf x)) ∧
      (∀ i, 2 * n - 1 ≤ i → t.arena.entry i = .unspec) ∧
      SameFreq s t ∧ SameTable s t ∧ SameOutput s t

/-- R133, R134, R135: every merge of BUILD_TREE pops the two least elements of the queue, by frequency and then by arena
index, and the lesser becomes the left child. -/
def Obligations.EveryMergeTakesTheTwoLeast : Prop :=
  ∀ s t : State, s.Inv → exec .buildTree s = .next t → t.status.err = false →
    ∃ n, TreeOf t.arena n ∧ ∀ k, n ≤ k → k < 2 * n - 1 → MergedLeast t.arena n k

/-- R137: laws of the tree BUILD_TREE makes: (a) the root's frequency is the sum of all counts; (b), (d) an Internal
entry at `k` has its children below `k`, its frequency is the sum of theirs, and that is at most 2^28; (c) every entry in
use but the root is the child of exactly one Internal entry and the root of none; (e) no root-to-leaf path is longer than
n - 1, which is at most 255. -/
def Obligations.TreeLaws : Prop :=
  ∀ s t : State, s.Inv → exec .buildTree s = .next t → t.status.err = false →
    (t.arena.entry t.arena.root.toNat).freq = (allSymbols.map fun x => (s.freq.countOf x).toNat).sum ∧
    OneParent t.arena ∧
    ∃ n, TreeOf t.arena n ∧ n ≤ 256 ∧
      (∀ k, n ≤ k → k < 2 * n - 1 → InternalOk t.arena k ∧ (t.arena.entry k).freq ≤ 2 ^ 28) ∧
      ∀ p x, LeafPath t.arena p x → p.length ≤ n - 1

/-- R141, R142, R143: GEN_CODES on a valid tree no leaf of which is deeper than MAX_CODE_LEN: in a tree of two or more
leaves a symbol's codeword is the branch bits of the path to its leaf, and a symbol with no leaf has none; a lone symbol
gets "0". The table satisfies R43; every other structure keeps its value. -/
def Obligations.GenCodesAssignsTreePaths : Prop :=
  ∀ s : State, s.Inv → s.valid.tree = true →
    (∀ p x, LeafPath s.arena p x → p.length ≤ s.params.maxCodeLen) →
    ∃ t, exec .genCodes s = .next t ∧ Completed s t ∧ Succeeded t ∧ t.valid.table = true ∧
      TableInv t.code s.params.maxCodeLen ∧
      (∀ f l r, s.arena.entry s.arena.root.toNat = .internal f l r → ∀ x : Byte,
        (∀ p, LeafPath s.arena p x → at256 t.code x = .word p) ∧
        ((∀ p, ¬ LeafPath s.arena p x) → at256 t.code x = .word [])) ∧
      (∀ x f, s.arena.entry s.arena.root.toNat = .leaf x f → ∀ y : Byte,
        at256 t.code y = .word (if y = x then [false] else [])) ∧
      SameFreq s t ∧ SameTree s t ∧ SameOutput s t

/-- R10: a tree of `n` leaves has depth at most n - 1, which is at most 255, so a codeword GEN_CODES assigns has at most
255 bits; with MAX_CODE_LEN = 255, GEN_CODES and COMPRESS (and every other command) never raise CODE_TOO_LONG. -/
def Obligations.NoCodeIsTooLongAt255 : Prop :=
  (∀ (a : Arena) (n : Nat), TreeOf a n → ∀ p x, LeafPath a p x → p.length ≤ n - 1 ∧ n - 1 ≤ 255) ∧
  (∀ a : Arena, TreeInv a → LengthsAtMost (genCodes a) 255) ∧
  ∀ (s t : State) (i : Instr), s.Inv → s.params.maxCodeLen = 255 → exec i s = .next t → t.status.errCode ≠ .codeTooLong

/-- R144: a symbol's codeword is as long as the path to its leaf. In a tree of two or more leaves the codewords GEN_CODES
assigns fill the code space: the sum of 2^(-len), scaled by 2^255, is 2^255. For a lone symbol the sum is half that. -/
def Obligations.CodeLengthsFillTheCodeSpace : Prop :=
  ∀ s t : State, s.Inv → exec .genCodes s = .next t → t.status.err = false →
    (∀ f l r, s.arena.entry s.arena.root.toNat = .internal f l r →
      (∀ p x, LeafPath s.arena p x → (bitsAt t.code x).length = p.length ∧ 1 ≤ p.length) ∧
      (allSymbols.map fun x => if bitsAt t.code x = [] then 0 else 2 ^ (255 - (bitsAt t.code x).length)).sum =
        2 ^ 255) ∧
    ∀ x f, s.arena.entry s.arena.root.toNat = .leaf x f →
      (bitsAt t.code x).length = 1 ∧
      (allSymbols.map fun y => if bitsAt t.code y = [] then 0 else 2 ^ (255 - (bitsAt t.code y).length)).sum =
        2 ^ 254

/-- R208, R131, R141, R206: the first error the stage commands reach: FREQ with too long an input; BUILD_TREE without
valid counts, then with no symbol; GEN_CODES without a valid tree, then with a leaf deeper than MAX_CODE_LEN. -/
def Obligations.StageErrorsInOrder : Prop :=
  ∀ s : State,
    (s.params.inBufSize < s.inLen.toNat → ∃ t, exec .freq s = .next t ∧ FailedWith t .inputTooLong) ∧
    (s.valid.freq = false → ∃ t, exec .buildTree s = .next t ∧ FailedWith t .sequenceError) ∧
    (s.valid.freq = true → (∀ x : Byte, s.freq.countOf x = 0#32) →
      ∃ t, exec .buildTree s = .next t ∧ FailedWith t .emptyAlphabet) ∧
    (s.valid.tree = false → ∃ t, exec .genCodes s = .next t ∧ FailedWith t .sequenceError) ∧
    (s.valid.tree = true → s.Inv → (∃ p x, LeafPath s.arena p x ∧ s.params.maxCodeLen < p.length) →
      ∃ t, exec .genCodes s = .next t ∧ FailedWith t .codeTooLong)

/-! ### Table commands -/

/-- R146, R147, R107: SAVE_TABLE on a valid table writes the serialized table: the number of mapped symbols less one, then
per symbol, ascending, the symbol, the codeword's length and the codeword packed with zero filler. PAD and BIT_LEN are 0;
every other structure keeps its value. With the buffer sizes of R7 it never overflows (R8). -/
def Obligations.SaveTableWritesTheRecords : Prop :=
  ∀ s : State, s.Inv → s.valid.table = true →
    ∃ (t : State) (rs : List (Byte × Bits)), exec .saveTable s = .next t ∧ Completed s t ∧ Succeeded t ∧
      rs.Pairwise (fun p q : Byte × Bits => p.1.toNat < q.1.toNat) ∧
      (∀ (x : Byte) (c : Bits), (x, c) ∈ rs ↔ at256 s.code x = .word c ∧ c ≠ []) ∧
      Output s t
        (BitVec.ofNat 8 (rs.length - 1) ::
          rs.flatMap fun p => p.1 :: BitVec.ofNat 8 p.2.length :: packMsb (p.2 ++ zeros ((8 - p.2.length % 8) % 8))) 0 0 ∧
      SameFreq s t ∧ SameTree s t ∧ SameTable s t

/-- R150, R151: LOAD_TABLE of a well-formed serialized table (R107, R109: records of strictly ascending symbols,
codewords of 1 to MAX_CODE_LEN bits, none a prefix of another) makes it the current table; every other structure keeps
its value. -/
def Obligations.LoadTableTakesWellFormedBytes : Prop :=
  ∀ (s : State) (rs : List (Byte × Bits)), s.Inv → s.inLen.toNat ≤ s.params.inBufSize →
    SerializedTable s.params.maxCodeLen rs s.input →
    ∃ t, exec .loadTable s = .next t ∧ Completed s t ∧ Succeeded t ∧ t.valid.table = true ∧
      (∀ p ∈ rs, at256 t.code p.1 = .word p.2) ∧
      (∀ x : Byte, (∀ c, (x, c) ∉ rs) → at256 t.code x = .word []) ∧
      SameFreq s t ∧ SameTree s t ∧ SameOutput s t

/-- R109, R151, R152: LOAD_TABLE accepts nothing else: where it succeeds, IN_BUF[0 .. IN_LEN) is byte for byte the
serialization of the table it leaves, and that table satisfies R43. -/
def Obligations.LoadTableAcceptsOnlySerializedTables : Prop :=
  ∀ s t : State, s.Inv → exec .loadTable s = .next t → t.status.err = false →
    TableInv t.code s.params.maxCodeLen ∧
    ∃ rs : List (Byte × Bits), SerializedTable s.params.maxCodeLen rs s.input ∧
      ∀ (x : Byte) (c : Bits), (x, c) ∈ rs ↔ at256 t.code x = .word c ∧ c ≠ []

/-- R153: LOAD_TABLE of the bytes SAVE_TABLE wrote, copied to IN_BUF of any state `u` of the same parameters, succeeds and
leaves CODE equal to the saved table. -/
def Obligations.TableRoundTrip : Prop :=
  ∀ s t u : State, s.Inv → s.valid.table = true → exec .saveTable s = .next t →
    u.params = s.params → u.inLen = t.outLen → (∀ a < t.outLen.toNat, u.inBuf.read a = t.outBuf.read a) →
    ∃ v, exec .loadTable u = .next v ∧ Succeeded v ∧ v.valid.table = true ∧ v.code = s.code

/-- R208, R146, R150, R151, R152: the first error of the table commands: SAVE_TABLE without a valid table
(SEQUENCE_ERROR); LOAD_TABLE with too long an input (INPUT_TOO_LONG), then with any input that is not the serialization
of a well-formed table (INVALID_TABLE): whether its record headers or codewords are cut off, its symbols do not ascend, a
codeword length is 0 or above MAX_CODE_LEN, a filler bit is set, bytes are left over, or a codeword is a prefix of
another. In particular, with fewer than 3 bytes, and, where the first byte says one record, with a codeword length of 0 or
above MAX_CODE_LEN or another number of codeword bytes than that length has. -/
def Obligations.TableErrorsInOrder : Prop :=
  ∀ s : State,
    (s.valid.table = false → ∃ t, exec .saveTable s = .next t ∧ FailedWith t .sequenceError) ∧
    (s.params.inBufSize < s.inLen.toNat → ∃ t, exec .loadTable s = .next t ∧ FailedWith t .inputTooLong) ∧
    (s.Inv → s.inLen.toNat ≤ s.params.inBufSize →
      (∀ rs : List (Byte × Bits), ¬ SerializedTable s.params.maxCodeLen rs s.input) →
      ∃ t, exec .loadTable s = .next t ∧ FailedWith t .invalidTable) ∧
    (s.inLen.toNat ≤ s.params.inBufSize →
      (s.inLen.toNat < 3 ∨
        (∃ x l rest, s.input = 0#8 :: x :: l :: rest ∧
          (l = 0#8 ∨ s.params.maxCodeLen < l.toNat ∨ rest.length ≠ ceilDiv l.toNat 8))) →
      ∃ t, exec .loadTable s = .next t ∧ FailedWith t .invalidTable)

/-! ### Stream commands -/

/-- R13, R68: packing is MSB-first, and unpacking is its inverse. -/
def Obligations.PackingIsMostSignificantBitFirst : Prop :=
  (∀ bits : Bits, bits.length % 8 = 0 →
    (packMsb bits).length = bits.length / 8 ∧
    ∀ k j, 8 * k + j < bits.length → j < 8 → ((packMsb bits).getD k 0#8).getLsbD (7 - j) = bits.getD (8 * k + j) false) ∧
  (∀ bits : Bits, bits.length % 8 = 0 → unpackMsb (packMsb bits) = bits) ∧
  ∀ bytes : List Byte, packMsb (unpackMsb bytes) = bytes

/-- R160, R161, R103, R162: PACK of an input every byte of which has a codeword, whose stream fits OUT_BUF, writes the
padding count (8 - B mod 8) mod 8 and then the codewords, in input order, with zero filler, packed; OUT_LEN, PAD and
BIT_LEN say so; FREQ, NODE, CODE and VALID keep their values. -/
def Obligations.PackWritesTheStream : Prop :=
  ∀ (s : State) (bits : Bits), s.params.wellFormed = true → s.inLen.toNat ≤ s.params.inBufSize → s.valid.table = true →
    (∀ x ∈ s.input, bitsAt s.code x ≠ []) → bits = s.input.flatMap (bitsAt s.code) →
    1 + ceilDiv bits.length 8 ≤ s.params.outBufSize →
    ∃ t, exec .pack s = .next t ∧ Completed s t ∧ Succeeded t ∧
      Output s t (BitVec.ofNat 8 ((8 - bits.length % 8) % 8) :: packMsb (bits ++ zeros ((8 - bits.length % 8) % 8)))
        ((8 - bits.length % 8) % 8) bits.length ∧
      t.outLen.toNat = 1 + (bits.length + (8 - bits.length % 8) % 8) / 8 ∧
      t.outLen.toNat = 1 + ceilDiv bits.length 8 ∧ SameFreq s t ∧ SameTree s t ∧ SameTable s t

/-- R165, R166: UNPACK of a stream with padding count `h` at most 7 (0 when there is no payload byte), whose payload fits
OUT_BUF, writes the payload with its last `h` bits forced to 0; OUT_LEN = IN_LEN - 1, PAD = h, BIT_LEN = 8 (IN_LEN - 1) -
h; FREQ, NODE, CODE and VALID keep their values. -/
def Obligations.UnpackStripsThePadding : Prop :=
  ∀ (s : State) (h : Byte) (payload : List Byte), s.params.wellFormed = true → s.inLen.toNat ≤ s.params.inBufSize →
    s.input = h :: payload → h.toNat ≤ 7 → (payload = [] → h = 0#8) → payload.length ≤ s.params.outBufSize →
    ∃ (t : State) (bytes : List Byte), exec .unpack s = .next t ∧ Completed s t ∧ Succeeded t ∧
      Output s t bytes h.toNat (8 * payload.length - h.toNat) ∧ bytes.length = payload.length ∧
      unpackMsb bytes = (unpackMsb payload).take (8 * payload.length - h.toNat) ++ zeros h.toNat ∧
      SameFreq s t ∧ SameTree s t ∧ SameTable s t

/-- R167: unpacking a packed stream gives back the padding count and the concatenated codewords. -/
def Obligations.UnpackInvertsPack : Prop :=
  ∀ (t : CodeTable) (size : Nat) (x : List Byte) (p : Packed), packStream t size x = .ok p →
    unpackStream p.bytes = .ok (p.pad, x.flatMap (bitsAt t)) ∧ (x.flatMap (bitsAt t)).length = p.bits

/-- R208, R160, R165, R206, R207: the first error of the stream commands, in order: PACK: INPUT_TOO_LONG, SEQUENCE_ERROR,
UNMAPPED_SYMBOL, OUTPUT_OVERFLOW; UNPACK: INPUT_TOO_LONG, TRUNCATED_STREAM (empty input, padding count above 7, or above 0
without a payload byte), OUTPUT_OVERFLOW. -/
def Obligations.StreamErrorsInOrder : Prop :=
  ∀ s : State,
    (s.params.inBufSize < s.inLen.toNat →
      (∃ t, exec .pack s = .next t ∧ FailedWith t .inputTooLong) ∧
      ∃ t, exec .unpack s = .next t ∧ FailedWith t .inputTooLong) ∧
    (s.inLen.toNat ≤ s.params.inBufSize →
      (s.valid.table = false → ∃ t, exec .pack s = .next t ∧ FailedWith t .sequenceError) ∧
      (s.valid.table = true → (∃ x ∈ s.input, bitsAt s.code x = []) →
        ∃ t, exec .pack s = .next t ∧ FailedWith t .unmappedSymbol) ∧
      (s.valid.table = true → (∀ x ∈ s.input, bitsAt s.code x ≠ []) →
        s.params.outBufSize < 1 + ceilDiv (s.input.flatMap (bitsAt s.code)).length 8 →
        ∃ t, exec .pack s = .next t ∧ FailedWith t .outputOverflow) ∧
      ((s.input = [] ∨ ∃ h payload, s.input = h :: payload ∧ (7 < h.toNat ∨ (payload = [] ∧ 0 < h.toNat))) →
        ∃ t, exec .unpack s = .next t ∧ FailedWith t .truncatedStream) ∧
      ∀ h payload, s.input = h :: payload → h.toNat ≤ 7 → (payload = [] → h = 0#8) →
        s.params.outBufSize < payload.length → ∃ t, exec .unpack s = .next t ∧ FailedWith t .outputOverflow)

/-! ### Facade commands -/

/-- R175, R178: COMPRESS of a non-empty input whose codewords are not longer than MAX_CODE_LEN and whose stream fits
OUT_BUF: the counts, a tree of R44, a table of R43 that maps every input byte, and the stream of the input under that
table; all VALID bits are 1. -/
def Obligations.CompressWritesAllFourResults : Prop :=
  ∀ s : State, s.Inv → s.inLen ≠ 0#32 → s.inLen.toNat ≤ s.params.inBufSize →
    LengthsAtMost (codesFor s.input) s.params.maxCodeLen →
    1 + ceilDiv (s.input.flatMap (bitsAt (codesFor s.input))).length 8 ≤ s.params.outBufSize →
    ∃ t, exec .compress s = .next t ∧ Completed s t ∧ Succeeded t ∧
      t.valid = { freq := true, tree := true, table := true } ∧
      (∀ x : Byte, (t.freq.countOf x).toNat = s.input.count x) ∧ TreeInv t.arena ∧ OneParent t.arena ∧
      TableInv t.code s.params.maxCodeLen ∧ (∀ x ∈ s.input, bitsAt t.code x ≠ []) ∧
      ∃ bits, bits = s.input.flatMap (bitsAt t.code) ∧
        Output s t (BitVec.ofNat 8 ((8 - bits.length % 8) % 8) :: packMsb (bits ++ zeros ((8 - bits.length % 8) % 8)))
          ((8 - bits.length % 8) % 8) bits.length

/-- R175: COMPRESS is frequency analysis, tree building, code assignment and packing, in that order: where the four stage
commands run one after the other with success on a non-empty input, COMPRESS gives the state they end in. -/
def Obligations.CompressIsTheFourStages : Prop :=
  ∀ s a b c d : State, s.inLen ≠ 0#32 →
    exec .freq s = .next a → a.status.err = false → exec .buildTree a = .next b → b.status.err = false →
    exec .genCodes b = .next c → c.status.err = false → exec .pack c = .next d → d.status.err = false →
    exec .compress s = .next d

/-- R48, 90_conflicts.md C5: every COMPRESS builds its own FREQ, NODE and CODE from its own input: two states with the
same parameters and input bytes compress to the same tables, stream and error, whatever their tables held. -/
def Obligations.CompressDependsOnItsInputAlone : Prop :=
  ∀ s s' t t' : State, s.params = s'.params → s.inLen = s'.inLen →
    (∀ a < s.inLen.toNat, s.inBuf.read a = s'.inBuf.read a) →
    exec .compress s = .next t → exec .compress s' = .next t' →
    t.status.err = t'.status.err ∧ t.status.errCode = t'.status.errCode ∧ t.valid = t'.valid ∧
      t.outLen = t'.outLen ∧ t.pad = t'.pad ∧ t.bitLen = t'.bitLen ∧
      (t.status.err = false → t.freq = t'.freq ∧ t.arena = t'.arena ∧ t.code = t'.code ∧
        ∀ a < t.outLen.toNat, t.outBuf.read a = t'.outBuf.read a)

/-- R176, R177: DECOMPRESS under a valid table of a stream whose bits are the codewords of `ys`, with any filler, writes
`ys`; OUT_LEN, PAD and BIT_LEN say so; FREQ, NODE, CODE and VALID keep their values. -/
def Obligations.DecompressWritesTheSymbols : Prop :=
  ∀ (s : State) (h : Byte) (payload ys : List Byte), s.Inv → s.inLen.toNat ≤ s.params.inBufSize → s.valid.table = true →
    s.input = h :: payload → h.toNat ≤ 7 → (payload = [] → h = 0#8) →
    (∀ y ∈ ys, bitsAt s.code y ≠ []) →
    ys.flatMap (bitsAt s.code) = (unpackMsb payload).take (8 * payload.length - h.toNat) →
    ys.length ≤ s.params.outBufSize →
    ∃ t, exec .decompress s = .next t ∧ Completed s t ∧ Succeeded t ∧
      Output s t ys h.toNat (8 * payload.length - h.toNat) ∧ SameFreq s t ∧ SameTree s t ∧ SameTable s t

/-- R179: the round trip: DECOMPRESS of the stream COMPRESS wrote, copied to IN_BUF of any state `u` of the same
parameters that holds the table COMPRESS left, gives back exactly the bytes COMPRESS read, if the stream fits IN_BUF and
the bytes fit OUT_BUF. -/
def Obligations.CompressThenDecompressIsIdentity : Prop :=
  ∀ s t u : State, s.Inv → exec .compress s = .next t → t.status.err = false →
    u.Inv → u.params = s.params → u.code = t.code → u.valid.table = true → u.inLen = t.outLen →
    (∀ a < t.outLen.toNat, u.inBuf.read a = t.outBuf.read a) →
    t.outLen.toNat ≤ s.params.inBufSize → s.inLen.toNat ≤ s.params.outBufSize →
    ∃ v, exec .decompress u = .next v ∧ Succeeded v ∧ v.outLen = s.inLen ∧
      ∀ a < s.inLen.toNat, v.outBuf.read a = s.inBuf.read a

/-- R208, R175, R176, R178, R207: the first error of the facade commands, in order: COMPRESS: INPUT_TOO_LONG, EMPTY_INPUT,
CODE_TOO_LONG, OUTPUT_OVERFLOW, and no other; DECOMPRESS: INPUT_TOO_LONG, SEQUENCE_ERROR, TRUNCATED_STREAM,
UNDECODABLE_STREAM (the bits are no concatenation of codewords), OUTPUT_OVERFLOW. -/
def Obligations.FacadeErrorsInOrder : Prop :=
  ∀ s : State,
    (s.params.inBufSize < s.inLen.toNat →
      (∃ t, exec .compress s = .next t ∧ FailedWith t .inputTooLong) ∧
      ∃ t, exec .decompress s = .next t ∧ FailedWith t .inputTooLong) ∧
    (s.inLen.toNat ≤ s.params.inBufSize →
      (s.inLen = 0#32 → ∃ t, exec .compress s = .next t ∧ FailedWith t .emptyInput) ∧
      (s.inLen ≠ 0#32 → ¬ LengthsAtMost (codesFor s.input) s.params.maxCodeLen →
        ∃ t, exec .compress s = .next t ∧ FailedWith t .codeTooLong) ∧
      (s.inLen ≠ 0#32 → LengthsAtMost (codesFor s.input) s.params.maxCodeLen →
        s.params.outBufSize < 1 + ceilDiv (s.input.flatMap (bitsAt (codesFor s.input))).length 8 →
        ∃ t, exec .compress s = .next t ∧ FailedWith t .outputOverflow) ∧
      (s.valid.table = false → ∃ t, exec .decompress s = .next t ∧ FailedWith t .sequenceError) ∧
      (s.valid.table = true →
        (s.input = [] ∨ ∃ h payload, s.input = h :: payload ∧ (7 < h.toNat ∨ (payload = [] ∧ 0 < h.toNat))) →
        ∃ t, exec .decompress s = .next t ∧ FailedWith t .truncatedStream) ∧
      (s.valid.table = true → s.Inv → ∀ h payload, s.input = h :: payload → h.toNat ≤ 7 → (payload = [] → h = 0#8) →
        ((∀ ys : List Byte, (∀ y ∈ ys, bitsAt s.code y ≠ []) →
            ys.flatMap (bitsAt s.code) ≠ (unpackMsb payload).take (8 * payload.length - h.toNat)) →
          ∃ t, exec .decompress s = .next t ∧ FailedWith t .undecodableStream) ∧
        ∀ ys : List Byte, (∀ y ∈ ys, bitsAt s.code y ≠ []) →
          ys.flatMap (bitsAt s.code) = (unpackMsb payload).take (8 * payload.length - h.toNat) →
          s.params.outBufSize < ys.length → ∃ t, exec .decompress s = .next t ∧ FailedWith t .outputOverflow))

/-! ### The whole machine -/

/-- The frame of every command, in every state, whether it succeeds or fails (R66, R204, R205): what it leaves unchanged.
No command writes IN_BUF; only the output commands write OUT_BUF, and only below OUT_BUF_SIZE; CLEAR keeps the bytes of
OUT_BUF. A command that succeeds keeps the bytes of OUT_BUF at OUT_LEN and above (with the buffer sizes of R7). What no command at all writes is in `Completed`. -/
def Obligations.EngineWritesOnlyOutputs : Prop :=
  ∀ (i : Instr) (s t : State), exec i s = .next t →
    (∀ a, t.inBuf.read a = s.inBuf.read a) ∧
    (match i with
    | .nop => SameFreq s t ∧ SameTree s t ∧ SameTable s t ∧ SameOutput s t
    | .clear => ∀ a, t.outBuf.read a = s.outBuf.read a
    | .freq => SameTree s t ∧ SameTable s t ∧ SameOutput s t
    | .buildTree => SameFreq s t ∧ SameTable s t ∧ SameOutput s t
    | .genCodes | .loadTable => SameFreq s t ∧ SameTree s t ∧ SameOutput s t
    | .pack | .unpack | .decompress | .saveTable => SameFreq s t ∧ SameTree s t ∧ SameTable s t
    | .compress => True) ∧
    (s.outBuf.within s.params.outBufSize → t.outBuf.within s.params.outBufSize) ∧
    (s.params.wellFormed = true → t.status.err = false →
      ∀ a, t.outLen.toNat ≤ a → t.outBuf.read a = s.outBuf.read a)

/-- R66: no command reads IN_BUF at an index at or beyond IN_LEN: other bytes there change nothing it does. -/
def Obligations.CommandsReadOnlyTheirInput : Prop :=
  ∀ (i : Instr) (s t : State) (m : Memory), (∀ a < s.inLen.toNat, m.read a = s.inBuf.read a) →
    exec i s = .next t → exec i { s with inBuf := m } = .next { t with inBuf := m }

/-- The invariant holds after reset. -/
def Obligations.ResetSatisfiesTheInvariant : Prop := State.reset.Inv

/-- R43, R44 and the rest of the invariant are kept by every step: a valid table is prefix-free with codewords no longer
than MAX_CODE_LEN, a valid tree is a tree of R44 with one parent per entry, valid counts sum to no more than IN_BUF_SIZE,
the buffers keep their canonical form inside their sizes, DONE and ERR are 0 while Busy, OUT_LEN stays within OUT_BUF,
and the block held in reset is in the reset state. -/
def Obligations.EveryStepKeepsTheInvariant : Prop :=
  ∀ s t : State, s.Inv → step s = .next t → t.Inv

/-- R7, R37: no step changes a parameter. -/
def Obligations.ParametersNeverChange : Prop :=
  ∀ s t : State, step s = .next t → t.params = s.params

/-- R201: no command stops the machine: a step faults only for a bus error of a pending host access, and is refused only
for one outside the apertures. -/
def Obligations.OnlyHostAccessesStopTheMachine : Prop :=
  ∀ (s : State),
    (∀ f, step s = .fault f → ∃ e rest, s.inputs = e :: rest ∧ ((∃ t, e = .access t) ∨ ∃ t, e = .accessAt t)) ∧
    (∀ r, step s = .refused r →
      r = .outsideApertures ∧ ∃ e rest, s.inputs = e :: rest ∧ ((∃ t, e = .access t) ∨ ∃ t, e = .accessAt t))
end

