-- ==== Sys2Proof/Laws/Bits.lean ====
section
/-! SUPPORT. MSB-first packing (R13) and the padding formula (R103, R161, R162): packing and unpacking are inverse, and
their lengths. -/

namespace Sys2Proof.Machine

/-! ### Padding -/

theorem padCount_le (n : Nat) : padCount n ≤ 7 := by unfold padCount; omega

theorem add_padCount_mod (n : Nat) : (n + padCount n) % 8 = 0 := by unfold padCount; omega

theorem add_padCount_div (n : Nat) : (n + padCount n) / 8 = ceilDiv n 8 := by unfold padCount ceilDiv; omega

theorem padCount_eq_zero_iff (n : Nat) : padCount n = 0 ↔ n % 8 = 0 := by unfold padCount; omega

@[simp] theorem length_zeros (k : Nat) : (zeros k).length = k := by simp [zeros]

/-! ### Whole bytes -/

@[simp] theorem length_byteBits (v : Byte) : (byteBits v).length = 8 := rfl

@[simp] theorem unpackMsb_nil : unpackMsb [] = [] := rfl

@[simp] theorem unpackMsb_cons (v : Byte) (vs : List Byte) : unpackMsb (v :: vs) = byteBits v ++ unpackMsb vs := rfl

theorem unpackMsb_append (u v : List Byte) : unpackMsb (u ++ v) = unpackMsb u ++ unpackMsb v := by
  simp [unpackMsb]

@[simp] theorem length_unpackMsb (vs : List Byte) : (unpackMsb vs).length = 8 * vs.length := by
  induction vs with
  | nil => rfl
  | cons v vs ih => simp [ih]; omega

theorem byteBits_byteOfBits (b7 b6 b5 b4 b3 b2 b1 b0 : Bool) :
    byteBits (byteOfBits b7 b6 b5 b4 b3 b2 b1 b0) = [b7, b6, b5, b4, b3, b2, b1, b0] := by
  revert b7 b6 b5 b4 b3 b2 b1 b0; decide

theorem packMsb_byteBits_append (v : Byte) (bits : Bits) : packMsb (byteBits v ++ bits) = v :: packMsb bits := by
  have h : ∀ v : Byte, byteOfBits (v.getLsbD 7) (v.getLsbD 6) (v.getLsbD 5) (v.getLsbD 4) (v.getLsbD 3)
      (v.getLsbD 2) (v.getLsbD 1) (v.getLsbD 0) = v := by decide
  simp only [byteBits, List.cons_append, List.nil_append, packMsb, h]

/-- Packing gives back unpacked bytes. -/
theorem packMsb_unpackMsb (vs : List Byte) : packMsb (unpackMsb vs) = vs := by
  induction vs with
  | nil => rfl
  | cons v vs ih => rw [unpackMsb_cons, packMsb_byteBits_append, ih]

/-- A bit string of whole bytes is the unpacking of some bytes. -/
theorem exists_unpackMsb {bits : Bits} (h : bits.length % 8 = 0) : ∃ vs, unpackMsb vs = bits := by
  induction hn : bits.length / 8 generalizing bits with
  | zero => exact ⟨[], by have : bits.length = 0 := by omega
                          rw [List.length_eq_zero_iff.1 this]; rfl⟩
  | succ n ih =>
    match bits, h, hn with
    | b7 :: b6 :: b5 :: b4 :: b3 :: b2 :: b1 :: b0 :: rest, h, hn =>
      obtain ⟨vs, hvs⟩ := ih (bits := rest) (by simp at h; omega) (by simp at hn; omega)
      exact ⟨byteOfBits b7 b6 b5 b4 b3 b2 b1 b0 :: vs, by rw [unpackMsb_cons, byteBits_byteOfBits, hvs]; rfl⟩
    | [], _, hn => simp at hn
    | [_], _, hn | [_, _], _, hn | [_, _, _], _, hn | [_, _, _, _], _, hn | [_, _, _, _, _], _, hn
    | [_, _, _, _, _, _], _, hn | [_, _, _, _, _, _, _], _, hn => simp at hn

/-- Unpacking gives back packed bits, for a whole number of bytes. -/
theorem unpackMsb_packMsb {bits : Bits} (h : bits.length % 8 = 0) : unpackMsb (packMsb bits) = bits := by
  obtain ⟨vs, rfl⟩ := exists_unpackMsb h
  rw [packMsb_unpackMsb]

theorem length_packMsb {bits : Bits} (h : bits.length % 8 = 0) : (packMsb bits).length = bits.length / 8 := by
  have := length_unpackMsb (packMsb bits)
  rw [unpackMsb_packMsb h] at this
  omega

/-! ### Padded strings -/

theorem length_padded (bits : Bits) : (bits ++ zeros (padCount bits.length)).length % 8 = 0 := by
  simpa using add_padCount_mod bits.length

theorem unpackMsb_packPadded (bits : Bits) : unpackMsb (packPadded bits) = bits ++ zeros (padCount bits.length) :=
  unpackMsb_packMsb (length_padded bits)

@[simp] theorem length_packPadded (bits : Bits) : (packPadded bits).length = ceilDiv bits.length 8 := by
  rw [packPadded, length_packMsb (length_padded bits)]
  simpa using add_padCount_div bits.length

end Sys2Proof.Machine
end

