-- ==== Sys2Proof/Laws/Buffer.lean ====
section
/-! SUPPORT. The byte buffers: a read after a write, what a write leaves alone, and the canonical form, which every
write keeps. -/

namespace Sys2Proof.Machine

/-! ### Cells -/

theorem cellAt_insertCell (a b : Nat) (v : Byte) (cs : List Host.Cell) :
    cellAt (insertCell a v cs) b = if a = b then some v else cellAt cs b := by
  induction cs with
  | nil => simp [insertCell, cellAt]
  | cons c cs ih =>
    obtain ⟨k, w⟩ := c
    simp only [insertCell]
    split
    · simp [cellAt]
    · split
      · subst_vars; simp only [cellAt]; split <;> rfl
      · simp only [cellAt, ih]
        split
        · rw [if_neg (by omega)]
        · rfl

theorem mem_insertCell {a : Nat} {v : Byte} {cs : List Host.Cell} {c : Host.Cell} (h : c ∈ insertCell a v cs) :
    c = (a, v) ∨ c ∈ cs := by
  induction cs with
  | nil => simp only [insertCell, List.mem_singleton] at h; exact .inl h
  | cons d cs ih =>
    obtain ⟨k, w⟩ := d
    simp only [insertCell] at h
    split at h
    · simpa using h
    · split at h
      · rcases List.mem_cons.1 h with h | h
        · exact .inl h
        · exact .inr (List.mem_cons_of_mem _ h)
      · rcases List.mem_cons.1 h with h | h
        · exact .inr (h ▸ List.mem_cons_self)
        · rcases ih h with h | h
          · exact .inl h
          · exact .inr (List.mem_cons_of_mem _ h)

theorem insertCell_rising {a : Nat} {v : Byte} {cs : List Host.Cell} (h : cs.Pairwise fun c d => c.1 < d.1) :
    (insertCell a v cs).Pairwise fun c d => c.1 < d.1 := by
  induction cs with
  | nil => simp [insertCell]
  | cons c cs ih =>
    obtain ⟨k, w⟩ := c
    obtain ⟨hk, hcs⟩ := List.pairwise_cons.1 h
    simp only [insertCell]
    split
    next hak =>
      refine List.pairwise_cons.2 ⟨fun d hd => ?_, h⟩
      rcases List.mem_cons.1 hd with rfl | hd
      · exact hak
      · exact lt_trans hak (hk d hd)
    next hak =>
      split
      next hak' => subst hak'; exact List.pairwise_cons.2 ⟨hk, hcs⟩
      next hak' =>
        refine List.pairwise_cons.2 ⟨fun d hd => ?_, ih hcs⟩
        rcases mem_insertCell hd with rfl | hd
        · exact (by omega : k < a)
        · exact hk d hd

/-! ### One byte -/

theorem Memory.read_write (m : Memory) (a b : Nat) (v : Byte) :
    (m.write a v).read b = if a = b then v else m.read b := by
  simp only [Memory.read, Memory.write, cellAt_insertCell]
  by_cases h : a = b <;> simp [h]

theorem Memory.write_wf {m : Memory} (a : Nat) (v : Byte) (h : m.wf) : (m.write a v).wf := insertCell_rising h

theorem Memory.write_within {m : Memory} {a size : Nat} {v : Byte} (ha : a < size) (h : m.within size) :
    (m.write a v).within size := by
  intro c hc
  rcases mem_insertCell hc with rfl | hc
  · exact ha
  · exact h c hc

/-! ### A run of bytes -/

theorem Memory.read_writeBytes (m : Memory) (a : Nat) (vs : List Byte) (b : Nat) :
    (m.writeBytes a vs).read b = if h : a ≤ b ∧ b < a + vs.length then vs[b - a]'(by omega) else m.read b := by
  induction vs generalizing m a with
  | nil => rw [dif_neg (by rw [List.length_nil]; omega)]; rfl
  | cons v vs ih =>
    rw [Memory.writeBytes, ih]
    by_cases hab : b = a
    · subst hab; simp [Memory.read_write]
    · by_cases h : a + 1 ≤ b ∧ b < a + 1 + vs.length
      · rw [dif_pos h, dif_pos (by simp; omega)]
        rw [List.getElem_cons, dif_neg (by omega)]
        congr 1
      · rw [dif_neg h, dif_neg (by simp; omega), Memory.read_write, if_neg (Ne.symm hab)]

/-- Bytes below the run keep their values, and so do bytes above it. -/
theorem Memory.read_writeBytes_outside {m : Memory} {a : Nat} {vs : List Byte} {b : Nat}
    (h : b < a ∨ a + vs.length ≤ b) : (m.writeBytes a vs).read b = m.read b := by
  rw [Memory.read_writeBytes, dif_neg (by omega)]

/-- The bytes written are the bytes read back. -/
theorem Memory.readBytes_writeBytes (m : Memory) (a : Nat) (vs : List Byte) :
    (m.writeBytes a vs).readBytes a vs.length = vs := by
  apply List.ext_getElem
  · simp [Memory.readBytes]
  · intro i h _
    have hi : i < vs.length := by simpa [Memory.readBytes] using h
    simp [Memory.readBytes, Memory.read_writeBytes, hi]

theorem Memory.writeBytes_wf {m : Memory} (a : Nat) (vs : List Byte) (h : m.wf) : (m.writeBytes a vs).wf := by
  induction vs generalizing m a with
  | nil => exact h
  | cons v vs ih => exact ih _ (Memory.write_wf a v h)

theorem Memory.writeBytes_within {m : Memory} {a size : Nat} {vs : List Byte} (hs : a + vs.length ≤ size)
    (h : m.within size) : (m.writeBytes a vs).within size := by
  induction vs generalizing m a with
  | nil => exact h
  | cons v vs ih =>
    simp only [List.length_cons] at hs
    exact ih (by omega) (Memory.write_within (by omega) h)

@[simp] theorem Memory.length_readBytes (m : Memory) (a n : Nat) : (m.readBytes a n).length = n := by
  simp [Memory.readBytes]

@[simp] theorem Memory.getElem_readBytes (m : Memory) (a n i : Nat) (h : i < (m.readBytes a n).length) :
    (m.readBytes a n)[i] = m.read (a + i) := by
  simp [Memory.readBytes]

theorem Memory.readBytes_congr {m m' : Memory} {a n : Nat} (h : ∀ i < n, m.read (a + i) = m'.read (a + i)) :
    m.readBytes a n = m'.readBytes a n := by
  apply List.map_congr_left
  intro i hi
  exact h i (List.mem_range.1 hi)

theorem Memory.readBytes_succ (m : Memory) (a n : Nat) :
    m.readBytes a (n + 1) = m.read a :: m.readBytes (a + 1) n := by
  simp only [Memory.readBytes, List.range_succ_eq_map, List.map_cons, List.map_map, Nat.add_zero]
  congr 1
  apply List.map_congr_left
  intro i _
  simp [Nat.add_comm, Nat.add_left_comm]

/-- The buffers after reset have the canonical form. -/
theorem State.reset_wf : State.reset.inBuf.wf ∧ State.reset.outBuf.wf := ⟨List.Pairwise.nil, List.Pairwise.nil⟩

@[simp] theorem State.length_input (s : State) : s.input.length = s.inLen.toNat := by simp [State.input]

end Sys2Proof.Machine
end

