-- ==== Sys2Proof/Laws/Tables.lean ====
section
/-! SUPPORT. The 256-entry tables: reading an entry, the list of codewords (R147), decode lookup (R42), the prefix
check (R152). -/

namespace Sys2Proof.Machine

/-! ### Entries by symbol -/

theorem mem_allSymbols (x : Byte) : x ∈ allSymbols :=
  List.mem_map.2 ⟨x.toNat, List.mem_range.2 x.isLt, by simp⟩

@[simp] theorem length_allSymbols : allSymbols.length = 256 := by simp [allSymbols]

theorem getElem_allSymbols (i : Nat) (h : i < allSymbols.length) : allSymbols[i] = BitVec.ofNat 8 i := by
  simp [allSymbols]

/-- The alphabet is listed in strictly ascending order. -/
theorem allSymbols_ascending : allSymbols.Pairwise fun x y => x.toNat < y.toNat := by
  rw [List.pairwise_iff_getElem]
  intro i j hi hj hij
  simp only [length_allSymbols] at hi hj
  simp only [getElem_allSymbols, BitVec.toNat_ofNat]
  omega

theorem allSymbols_nodup : allSymbols.Nodup :=
  allSymbols_ascending.imp fun h e => by subst e; exact lt_irrefl _ h

theorem getElem_table256 {α : Type} (f : Byte → α) (i : Nat) (h : i < 256) :
    (table256 f)[i] = f (BitVec.ofNat 8 i) := by
  simp [table256]

@[simp] theorem at256_table256 {α : Type} (f : Byte → α) (x : Byte) : at256 (table256 f) x = f x := by
  rw [at256, getElem_table256]; simp

@[simp] theorem at256_replicate {α : Type} (v : α) (x : Byte) : at256 (Vector.replicate 256 v) x = v := by
  rw [at256]; exact Vector.getElem_replicate _

/-- The entries by symbol are the alphabet with each symbol's entry. -/
theorem bySymbol_eq {α : Type} (t : Vector α 256) : bySymbol t = allSymbols.map fun x => (x, at256 t x) := by
  apply List.ext_getElem
  · simp [bySymbol]
  · intro i h _
    have hi : i < 256 := by simpa [bySymbol] using h
    simp only [bySymbol, List.getElem_zip, List.getElem_map, getElem_allSymbols, at256, Vector.getElem_toList]
    congr 2
    simp; omega

@[simp] theorem map_fst_bySymbol {α : Type} (t : Vector α 256) : (bySymbol t).map Prod.fst = allSymbols := by
  rw [bySymbol_eq, List.map_map]
  exact List.map_id' _

theorem mem_bySymbol {α : Type} {t : Vector α 256} {p : Byte × α} : p ∈ bySymbol t ↔ at256 t p.1 = p.2 := by
  obtain ⟨x, v⟩ := p
  rw [bySymbol_eq, List.mem_map]
  exact ⟨fun ⟨y, _, h⟩ => by cases h; rfl, fun h => ⟨x, mem_allSymbols x, by simp at h; rw [h]⟩⟩

/-- Two tables with the same entry for every symbol are the same table. -/
theorem table_ext {α : Type} {t u : Vector α 256} (h : ∀ x, at256 t x = at256 u x) : t = u := by
  apply Vector.ext
  intro i hi
  have := h (BitVec.ofNat 8 i)
  simp only [at256, BitVec.toNat_ofNat] at this
  simpa [Nat.mod_eq_of_lt (show i < 256 by omega)] using this

@[simp] theorem countOf_counts (c : Counts) (x : Byte) : (FreqTable.counts c).countOf x = at256 c x := rfl

/-- BUILD_TREE reads the counts the host reads. -/
@[simp] theorem at256_freqAll (t : FreqTable) (x : Byte) : at256 t.all x = t.countOf x := by
  cases t with
  | counts c => rfl
  | unspec d => simp [FreqTable.all, FreqTable.countOf]

/-! ### Codewords -/

theorem bitsAt_of_word {t : CodeTable} {x : Byte} {b : Bits} (h : at256 t x = .word b) : bitsAt t x = b := by
  rw [bitsAt, h]

theorem isMapped_iff {t : CodeTable} {x : Byte} : isMapped t x = true ↔ bitsAt t x ≠ [] := by
  simp [isMapped]

theorem entryCodeword_eq (x : Byte) (t : CodeTable) :
    entryCodeword (x, at256 t x) = if bitsAt t x = [] then none else some (x, bitsAt t x) := by
  rw [bitsAt]
  rcases at256 t x with ⟨_ | ⟨b, bs⟩⟩ | _ <;> simp [entryCodeword]

theorem mem_codewords {t : CodeTable} {p : Byte × Bits} : p ∈ codewords t ↔ bitsAt t p.1 = p.2 ∧ p.2 ≠ [] := by
  obtain ⟨x, b⟩ := p
  simp only [codewords, bySymbol_eq, List.filterMap_map, List.mem_filterMap, Function.comp_apply, entryCodeword_eq]
  constructor
  · rintro ⟨y, _, h⟩
    split at h
    · cases h
    next hy => cases h; exact ⟨rfl, hy⟩
  · rintro ⟨h, hb⟩
    exact ⟨x, mem_allSymbols x, by rw [if_neg (h ▸ hb), h]⟩

/-- The codewords are listed by strictly ascending symbol (R107). -/
theorem codewords_ascending (t : CodeTable) : (codewords t).Pairwise fun p q => p.1.toNat < q.1.toNat := by
  rw [codewords, bySymbol_eq, List.filterMap_map]
  refine allSymbols_ascending.filterMap _ ?_
  intro x y hxy p hp q hq
  simp only [Function.comp_apply, entryCodeword_eq] at hp hq
  split at hp <;> simp at hp
  split at hq <;> simp at hq
  rw [← hp, ← hq]; exact hxy

theorem length_codewords_le (t : CodeTable) : (codewords t).length ≤ 256 := by
  have h := List.length_filterMap_le entryCodeword (bySymbol t)
  rw [← codewords] at h
  simpa [bySymbol_eq] using h

/-- The decode lookup finds a symbol with that codeword (R42). -/
theorem symbolOf_some {t : CodeTable} {c : Bits} {x : Byte} (h : symbolOf t c = some x) :
    bitsAt t x = c ∧ c ≠ [] := by
  simp only [symbolOf, Option.map_eq_some_iff] at h
  obtain ⟨p, hp, rfl⟩ := h
  have hc : p.2 = c := by simpa using List.find?_some hp
  subst hc
  exact mem_codewords.1 (List.mem_of_find?_eq_some hp)

/-- The decode lookup fails only where no symbol has that codeword (R42). -/
theorem symbolOf_none {t : CodeTable} {c : Bits} (h : symbolOf t c = none) (x : Byte) (hx : bitsAt t x = c) : c = [] := by
  by_contra hc
  simp only [symbolOf, Option.map_eq_none_iff, List.find?_eq_none] at h
  exact h (x, c) (mem_codewords.2 ⟨hx, hc⟩) (by simp)

/-- In a prefix-free table the decode lookup inverts the codeword of a symbol (R42, R43). -/
theorem symbolOf_bitsAt {t : CodeTable} (ht : PrefixFree t) {x : Byte} (hx : bitsAt t x ≠ []) :
    symbolOf t (bitsAt t x) = some x := by
  cases h : symbolOf t (bitsAt t x) with
  | none => exact absurd (symbolOf_none h x rfl) hx
  | some y =>
    obtain ⟨hy, -⟩ := symbolOf_some h
    by_contra hne
    exact ht y x (fun e => hne (by rw [e])) (hy ▸ hx) hx (hy ▸ List.prefix_rfl)

/-- The prefix check of R152 is prefix-freedom (R43). -/
theorem prefixFree_iff {t : CodeTable} : prefixFree t = true ↔ PrefixFree t := by
  simp only [prefixFree, List.all_eq_true, Bool.or_eq_true, Bool.not_eq_true', beq_iff_eq]
  constructor
  · intro h x y hne hx hy hp
    rcases h (x, _) (mem_codewords.2 ⟨rfl, hx⟩) (y, _) (mem_codewords.2 ⟨rfl, hy⟩) with h | h
    · exact hne h
    · exact absurd (List.isPrefixOf_iff_prefix.2 hp) (by rw [Bool.not_eq_true]; exact h)
  · intro h p hp q hq
    obtain ⟨hp, hp0⟩ := mem_codewords.1 hp
    obtain ⟨hq, hq0⟩ := mem_codewords.1 hq
    rw [or_iff_not_imp_left]
    intro hne
    rw [← Bool.not_eq_true, List.isPrefixOf_iff_prefix, ← hp, ← hq]
    exact h _ _ hne (hp ▸ hp0) (hq ▸ hq0)

theorem anyCodeLonger_eq_false {t : CodeTable} {maxLen : Nat} :
    anyCodeLonger t maxLen = false ↔ LengthsAtMost t maxLen := by
  simp only [anyCodeLonger, List.any_eq_false, decide_eq_true_eq, not_lt, LengthsAtMost]
  constructor
  · intro h x
    by_cases hx : bitsAt t x = []
    · simp [hx]
    · exact h (x, _) (mem_codewords.2 ⟨rfl, hx⟩)
  · intro h p hp
    rw [← (mem_codewords.1 hp).1]; exact h _

/-! ### Tables given by a list of codewords -/

@[simp] theorem at256_codeTableOf (rs : List (Byte × Bits)) (x : Byte) :
    at256 (codeTableOf rs) x = .word ((rs.lookup x).getD []) := by
  simp [codeTableOf]

@[simp] theorem bitsAt_codeTableOf (rs : List (Byte × Bits)) (x : Byte) :
    bitsAt (codeTableOf rs) x = (rs.lookup x).getD [] := by
  simp [bitsAt]

/-- A symbol's codeword, where it has one, is one the list gives it. -/
theorem mem_of_bitsAt_codeTableOf {rs : List (Byte × Bits)} {x : Byte} (h : bitsAt (codeTableOf rs) x ≠ []) :
    (x, bitsAt (codeTableOf rs) x) ∈ rs := by
  rw [bitsAt_codeTableOf] at h ⊢
  cases hl : rs.lookup x with
  | none => simp [hl] at h
  | some b =>
    simp only [Option.getD_some]
    obtain ⟨l₁, l₂, rfl, -⟩ := List.lookup_eq_some_iff.1 hl
    simp

/-- A symbol the list names has a codeword, if the list gives no empty one. -/
theorem bitsAt_codeTableOf_ne_nil {rs : List (Byte × Bits)} (hne : ∀ p ∈ rs, p.2 ≠ []) {x : Byte} {b : Bits}
    (h : (x, b) ∈ rs) : bitsAt (codeTableOf rs) x ≠ [] := by
  rw [bitsAt_codeTableOf]
  cases hl : rs.lookup x with
  | none =>
    rw [List.lookup_eq_none_iff] at hl
    exact absurd (hl _ h) (by simp)
  | some c =>
    simp only [Option.getD_some]
    obtain ⟨l₁, l₂, rfl, -⟩ := List.lookup_eq_some_iff.1 hl
    exact hne (x, c) (by simp)

/-- A table whose entries are known is the table of its own codewords. -/
theorem codeTableOf_codewords {t : CodeTable} (h : ∀ x : Byte, at256 t x ≠ .unspec) : codeTableOf (codewords t) = t := by
  apply table_ext
  intro x
  have hx : at256 t x = .word (bitsAt t x) := by
    rw [bitsAt]; cases hx : at256 t x with
    | word b => rfl
    | unspec => exact absurd hx (h x)
  rw [at256_codeTableOf, hx, ← bitsAt_codeTableOf]
  congr 1
  by_cases hn : bitsAt (codeTableOf (codewords t)) x = []
  · by_contra hne
    exact bitsAt_codeTableOf_ne_nil (fun p hp => (mem_codewords.1 hp).2)
      (mem_codewords.2 ⟨rfl, fun e => hne (by rw [hn]; exact e.symm)⟩) hn
  · exact (mem_codewords.1 (mem_of_bitsAt_codeTableOf hn)).1.symm

/-- A known entry is the codeword `bitsAt` gives. -/
theorem at256_eq_word_iff {t : CodeTable} {x : Byte} {c : Bits} (hk : at256 t x ≠ .unspec) :
    at256 t x = .word c ↔ bitsAt t x = c := by
  constructor
  · exact bitsAt_of_word
  · intro h
    cases he : at256 t x with
    | word b => rw [bitsAt_of_word he] at h; rw [h]
    | unspec => exact absurd he hk

/-- The number of codewords is the number of symbols that have one (R33). -/
theorem length_codewords (t : CodeTable) :
    (codewords t).length = allSymbols.countP fun x => decide (bitsAt t x ≠ []) := by
  have h1 : (codewords t).map Prod.fst = allSymbols.filter fun x => decide (bitsAt t x ≠ []) := by
    unfold codewords
    rw [bySymbol_eq, List.filterMap_map, List.map_filterMap, ← List.filterMap_eq_filter]
    congr 1
    funext x
    simp only [Function.comp, entryCodeword_eq]
    by_cases h : bitsAt t x = [] <;> simp [h, Option.guard]
  rw [← List.length_map (f := Prod.fst), h1, List.countP_eq_length_filter]

end Sys2Proof.Machine
end

