-- ==== Sys2Proof/Laws/Tree.lean ====
section
/-! SUPPORT. What the tree builder does (R133 to R137): the min-queue pops the least key, and the loop leaves a tree
that satisfies R44 and in which every entry but the root has one parent. -/

namespace Sys2Proof.Machine

/-! ### The queue (R134) -/

theorem popMin_eq_none {q : List Key} : popMin q = none ↔ q = [] := by
  cases q with
  | nil => simp [popMin]
  | cons k ks =>
    simp only [popMin, reduceCtorEq, iff_false]
    split
    · simp
    · split <;> simp

theorem Key.lt_iff {a b : Key} : a.lt b = true ↔ a.freq < b.freq ∨ a.freq = b.freq ∧ a.idx < b.idx := by
  simp [Key.lt]

/-- What a pop answers: an element no other is below, and the queue without it. -/
theorem popMin_least {q rest : List Key} {m : Key} (h : popMin q = some (m, rest)) :
    q.Perm (m :: rest) ∧ ∀ k ∈ q, ¬ k.lt m = true := by
  induction q generalizing m rest with
  | nil => cases h
  | cons k ks ih =>
    simp only [popMin] at h
    split at h
    next hn =>
      cases h
      rw [popMin_eq_none.1 hn]
      simp [Key.lt_iff]
    next m' rest' hm =>
      obtain ⟨hp, hl⟩ := ih hm
      simp only [Key.lt_iff] at hl ⊢
      split at h
      next hlt =>
        cases h
        refine ⟨List.Perm.refl _, fun j hj => ?_⟩
        rw [Key.lt_iff] at hlt
        rcases List.mem_cons.1 hj with rfl | hj
        · omega
        · have := hl j hj; omega
      next hlt =>
        cases h
        refine ⟨(hp.cons k).trans (List.Perm.swap _ _ _), fun j hj => ?_⟩
        rw [Key.lt_iff] at hlt
        rcases List.mem_cons.1 hj with rfl | hj
        · exact hlt
        · exact hl j hj

/-! ### The entries of a build -/

/-- The entry a build has made at an index. -/
def Build.at (b : Build) (i : Nat) : NodeEntry := b.nodes.getD i .unspec

theorem entry_arena (b : Build) (h : b.nodes.length ≤ 511) (i : Nat) : b.arena.entry i = b.at i := by
  simp only [Arena.entry, Build.arena, arenaEntries, Build.at, Vector.toList_mk, List.getD_eq_getElem?_getD,
    List.getElem?_map]
  by_cases hi : i < 511
  · simp [List.getElem?_range hi]
  · rw [List.getElem?_eq_none (by simp; omega), List.getElem?_eq_none (by omega)]
    rfl

/-- `c` is a child of the entry at `k`, for any assignment of entries. -/
def Child (e : Nat → NodeEntry) (k c : Nat) : Prop :=
  ∃ (f : Word) (l r : BitVec 9), e k = .internal f l r ∧ (l.toNat = c ∨ r.toNat = c)

/-- The queue order on indices, for any assignment of entries (R134). -/
def Below (e : Nat → NodeEntry) (i j : Nat) : Prop := (e i).freq < (e j).freq ∨ ((e i).freq = (e j).freq ∧ i < j)

/-- In the queue when entry `k` is made, for any assignment of entries (R133). -/
def InQueue (e : Nat → NodeEntry) (n k c : Nat) : Prop := c < k ∧ ∀ j, n ≤ j → j < k → ¬ Child e j c

/-- The merge that made entry `k` popped the two least, for any assignment of entries (R133, R135). -/
def PoppedLeast (e : Nat → NodeEntry) (n k : Nat) : Prop :=
  ∃ (f : Word) (l r : BitVec 9), e k = .internal f l r ∧ l ≠ r ∧ InQueue e n k l.toNat ∧ InQueue e n k r.toNat ∧
    (∀ c, InQueue e n k c → c ≠ l.toNat → Below e l.toNat c) ∧
    ∀ c, InQueue e n k c → c ≠ l.toNat → c ≠ r.toNat → Below e r.toNat c

/-- The merge that made entry `k` depends on the entries up to `k` alone. -/
theorem PoppedLeast.congr {e e' : Nat → NodeEntry} {n k : Nat} (he : ∀ i ≤ k, e i = e' i) (h : PoppedLeast e n k) :
    PoppedLeast e' n k := by
  have hc : ∀ {c}, InQueue e' n k c ↔ InQueue e n k c := by
    intro c
    refine and_congr_right fun _ => forall_congr' fun j => forall_congr' fun _ => forall_congr' fun hj => ?_
    simp only [Child, he j (by omega)]
  have hb : ∀ {i j}, i ≤ k → j ≤ k → (Below e' i j ↔ Below e i j) := by
    intro i j hi hj; simp only [Below, he i hi, he j hj]
  obtain ⟨f, l, r, h1, h2, h3, h4, h5, h6⟩ := h
  refine ⟨f, l, r, by rw [← he k le_rfl, h1], h2, hc.2 h3, hc.2 h4, fun c hq hne => ?_, fun c hq hne hne' => ?_⟩
  · rw [hb h3.1.le (hc.1 hq).1.le]; exact h5 c (hc.1 hq) hne
  · rw [hb h4.1.le (hc.1 hq).1.le]; exact h6 c (hc.1 hq) hne hne'

/-- What holds of a build of `n` leaves whose counts sum to `total` after any number of merges. -/
structure BuildOk (n total : Nat) (b : Build) : Prop where
  len : n ≤ b.nodes.length
  queueLen : b.queue.length + b.nodes.length = 2 * n
  leaf : ∀ i < n, ∃ (x : Byte) (f : Word), b.at i = .leaf x f ∧ 1 ≤ f.toNat
  ascending : ∀ i j, i < j → j < n → ∀ (x y : Byte) (f g : Word),
    b.at i = .leaf x f → b.at j = .leaf y g → x.toNat < y.toNat
  internal : ∀ k, n ≤ k → k < b.nodes.length → ∃ (f : Word) (l r : BitVec 9), b.at k = .internal f l r ∧
    l.toNat < k ∧ r.toNat < k ∧ l ≠ r ∧ f.toNat = (b.at l.toNat).freq + (b.at r.toNat).freq
  keys : ∀ q ∈ b.queue, q.idx < b.nodes.length ∧ q.freq = (b.at q.idx).freq
  nodup : (b.queue.map Key.idx).Nodup
  sum : (b.queue.map Key.freq).sum = total
  parent : ∀ c < b.nodes.length, c ∈ b.queue.map Key.idx ∨ ∃ k < b.nodes.length, Child b.at k c
  orphan : ∀ c ∈ b.queue.map Key.idx, ∀ k < b.nodes.length, ¬ Child b.at k c
  unique : ∀ c k k', k < b.nodes.length → k' < b.nodes.length → Child b.at k c → Child b.at k' c → k = k'
  least : ∀ k, n ≤ k → k < b.nodes.length → PoppedLeast b.at n k

/-- A merge pops the two least elements (R133, R134). -/
theorem mergeStep_pops {b : Build} (h : 2 ≤ b.queue.length) :
    ∃ x y q, b.queue.Perm (x :: y :: q) ∧ (∀ k ∈ b.queue, ¬ k.lt x = true) ∧ (∀ k ∈ q, ¬ k.lt y = true) ∧
      mergeStep b =
        { nodes := b.nodes ++ [.internal (BitVec.ofNat 32 (x.freq + y.freq)) (BitVec.ofNat 9 x.idx) (BitVec.ofNat 9 y.idx)]
          queue := { freq := x.freq + y.freq, idx := b.nodes.length } :: q } := by
  cases hx : popMin b.queue with
  | none => rw [popMin_eq_none.1 hx] at h; simp at h
  | some p =>
    obtain ⟨x, q⟩ := p
    obtain ⟨hpx, hlx⟩ := popMin_least hx
    cases hy : popMin q with
    | none =>
      have := hpx.length_eq
      rw [popMin_eq_none.1 hy] at this
      simp at this; omega
    | some p' =>
      obtain ⟨y, q'⟩ := p'
      obtain ⟨hpy, hly⟩ := popMin_least hy
      exact ⟨x, y, q', hpx.trans (hpy.cons x), hlx, fun k hk => hly k (hpy.mem_iff.2 (by simp [hk])),
        by simp only [mergeStep, hx, hy]⟩

theorem at_append_old {ns ms : List NodeEntry} {q q' : List Key} {i : Nat} (h : i < ns.length) :
    Build.at ⟨ns ++ ms, q⟩ i = Build.at ⟨ns, q'⟩ i := by
  simp only [Build.at]; exact List.getD_append _ _ _ _ h

theorem at_append_new {ns : List NodeEntry} {e : NodeEntry} {q : List Key} :
    Build.at ⟨ns ++ [e], q⟩ ns.length = e := by
  simp [Build.at]

/-- One merge keeps what holds of a build, and makes one entry. -/
theorem mergeStep_ok {n total : Nat} {b : Build} (hn : n ≤ 256) (ht : total < 2 ^ 32) (hb : BuildOk n total b)
    (h2 : 2 ≤ b.queue.length) :
    BuildOk n total (mergeStep b) ∧ (mergeStep b).queue.length + 1 = b.queue.length := by
  obtain ⟨ns, queue⟩ := b
  obtain ⟨x, y, q, hperm, hleast, hleast', hstep⟩ := mergeStep_pops h2
  simp only at h2 hperm hstep hleast hleast'
  obtain ⟨len, queueLen, leaf, ascending, internal, keys, nodup, sum, parent, orphan, unique, least⟩ := hb
  simp only at len queueLen internal keys nodup sum parent orphan unique least
  have hlen := hperm.length_eq
  simp only [List.length_cons] at hlen
  have hidx := hperm.map Key.idx
  have hsum := (hperm.map Key.freq).sum_eq
  simp only [List.map_cons, List.sum_cons] at hidx hsum
  rw [hidx.nodup_iff] at nodup
  simp only [hidx.mem_iff] at parent orphan
  have hm : ∀ k, k ∈ x :: y :: q → k.idx < ns.length ∧ k.freq = (Build.at ⟨ns, queue⟩ k.idx).freq :=
    fun k hk => keys k (hperm.mem_iff.2 hk)
  obtain ⟨hxi, hxf⟩ := hm x (by simp)
  obtain ⟨hyi, hyf⟩ := hm y (by simp)
  obtain ⟨hnx, hnodup⟩ := List.nodup_cons.1 nodup
  obtain ⟨hny, hnq⟩ := List.nodup_cons.1 hnodup
  have hxy : x.idx ≠ y.idx := fun e => hnx (by simp [e])
  have hx9 : (BitVec.ofNat 9 x.idx).toNat = x.idx := by rw [BitVec.toNat_ofNat]; omega
  have hy9 : (BitVec.ofNat 9 y.idx).toNat = y.idx := by rw [BitVec.toNat_ofNat]; omega
  have hf32 : (BitVec.ofNat 32 (x.freq + y.freq)).toNat = x.freq + y.freq := by
    rw [BitVec.toNat_ofNat]; omega
  rw [hstep]
  generalize hq' : ({ freq := x.freq + y.freq, idx := ns.length } :: q : List Key) = q'
  generalize hnew : NodeEntry.internal (BitVec.ofNat 32 (x.freq + y.freq)) (BitVec.ofNat 9 x.idx) (BitVec.ofNat 9 y.idx)
    = new
  have old : ∀ {i}, i < ns.length → Build.at ⟨ns ++ [new], q'⟩ i = Build.at ⟨ns, queue⟩ i :=
    fun h => at_append_old h
  have last : Build.at ⟨ns ++ [new], q'⟩ ns.length =
      .internal (BitVec.ofNat 32 (x.freq + y.freq)) (BitVec.ofNat 9 x.idx) (BitVec.ofNat 9 y.idx) :=
    at_append_new.trans hnew.symm
  have childOld : ∀ {k c}, k < ns.length → (Child (Build.at ⟨ns ++ [new], q'⟩) k c ↔ Child (Build.at ⟨ns, queue⟩) k c) := by
    intro k c hk; simp only [Child, old hk]
  have childNew : ∀ {c}, Child (Build.at ⟨ns ++ [new], q'⟩) ns.length c ↔ c = x.idx ∨ c = y.idx := by
    intro c
    simp only [Child, last]
    constructor
    · rintro ⟨f, l, r, he, hc⟩
      cases he
      rw [hx9, hy9] at hc
      exact hc.imp Eq.symm Eq.symm
    · intro hc
      refine ⟨_, _, _, rfl, ?_⟩
      rw [hx9, hy9]; exact hc.imp Eq.symm Eq.symm
  have mem' : ∀ {c}, c ∈ q'.map Key.idx ↔ c = ns.length ∨ c ∈ q.map Key.idx := by
    intro c; rw [← hq']; simp
  have hqlt : ∀ c ∈ q.map Key.idx, c < ns.length := by
    intro c hc
    obtain ⟨k, hk, rfl⟩ := List.mem_map.1 hc
    exact (hm k (by simp [hk])).1
  have hchildlt : ∀ {k c}, k < ns.length → Child (Build.at ⟨ns, queue⟩) k c → c < ns.length := by
    rintro k c hk ⟨f, l, r, he, hc⟩
    by_cases hkn : k < n
    · obtain ⟨x', f', h1, -⟩ := leaf k hkn
      rw [h1] at he; cases he
    · obtain ⟨f', l', r', h1, hl, hr, -⟩ := internal k (by omega) hk
      rw [h1] at he
      cases he
      omega
  have hlen' : (ns ++ [new]).length = ns.length + 1 := by simp
  have hqlen : q'.length = q.length + 1 := by rw [← hq']; simp
  refine ⟨⟨by simp only [hlen']; omega, by simp only [hlen', hqlen]; omega, ?_, ?_, ?_, ?_, ?_, ?_, ?_, ?_, ?_, ?_⟩,
    by simp only [hqlen]; omega⟩
  · intro i hi
    rw [old (by omega)]; exact leaf i hi
  · intro i j hij hj x' y' f g hi' hj'
    rw [old (by omega)] at hi' hj'
    exact ascending i j hij hj x' y' f g hi' hj'
  · intro k hk hk'
    simp only [hlen'] at hk'
    rcases Nat.lt_succ_iff_lt_or_eq.1 hk' with hk' | rfl
    · obtain ⟨f, l, r, h1, h2, h3, h4, h5⟩ := internal k hk hk'
      exact ⟨f, l, r, by rw [old hk', h1], h2, h3, h4, by rw [old (by omega), old (by omega)]; exact h5⟩
    · refine ⟨_, _, _, last, by omega, by omega, ?_, ?_⟩
      · intro e; have := congrArg BitVec.toNat e; omega
      · rw [hf32, hx9, hy9, old hxi, old hyi, ← hxf, ← hyf]
  · intro k hk
    rw [← hq'] at hk
    rcases List.mem_cons.1 hk with rfl | hk
    · refine ⟨by simp only [hlen']; omega, ?_⟩
      rw [last]; exact hf32.symm
    · obtain ⟨h1, h2⟩ := hm k (by simp [hk])
      exact ⟨by simp only [hlen']; omega, by rw [old h1]; exact h2⟩
  · rw [← hq', List.map_cons, List.nodup_cons]
    exact ⟨fun h => lt_irrefl _ (hqlt _ h), hnq⟩
  · rw [← hq']; simp only [List.map_cons, List.sum_cons]; omega
  · intro c hc
    simp only [hlen'] at hc ⊢
    rcases Nat.lt_succ_iff_lt_or_eq.1 hc with hc | rfl
    · rcases parent c hc with h | ⟨k, hk, h⟩
      · simp only [List.mem_cons] at h
        rcases h with h | h | h
        · exact .inr ⟨ns.length, by omega, childNew.2 (.inl h)⟩
        · exact .inr ⟨ns.length, by omega, childNew.2 (.inr h)⟩
        · exact .inl (mem'.2 (.inr h))
      · exact .inr ⟨k, by omega, (childOld hk).2 h⟩
    · exact .inl (mem'.2 (.inl rfl))
  · intro c hc k hk hch
    simp only [hlen'] at hk
    rcases Nat.lt_succ_iff_lt_or_eq.1 hk with hk | rfl
    · rw [childOld hk] at hch
      rcases mem'.1 hc with rfl | hc
      · exact lt_irrefl _ (hchildlt hk hch)
      · exact orphan c (by simp [hc]) k hk hch
    · rcases mem'.1 hc with rfl | hc
      · rcases childNew.1 hch with h | h <;> omega
      · rcases childNew.1 hch with rfl | rfl
        · exact hnx (by simp [hc])
        · exact hny hc
  · intro c k k' hk hk' hch hch'
    simp only [hlen'] at hk hk'
    rcases Nat.lt_succ_iff_lt_or_eq.1 hk with hk | rfl <;> rcases Nat.lt_succ_iff_lt_or_eq.1 hk' with hk' | rfl
    · exact unique c k k' hk hk' ((childOld hk).1 hch) ((childOld hk').1 hch')
    · exfalso
      rw [childOld hk] at hch
      rcases childNew.1 hch' with rfl | rfl
      · exact orphan _ (by simp) k hk hch
      · exact orphan _ (by simp) k hk hch
    · exfalso
      rw [childOld hk'] at hch'
      rcases childNew.1 hch with rfl | rfl
      · exact orphan _ (by simp) k' hk' hch'
      · exact orphan _ (by simp) k' hk' hch'
    · rfl
  · intro k hk hk'
    simp only [hlen'] at hk'
    rcases Nat.lt_succ_iff_lt_or_eq.1 hk' with hk' | rfl
    · exact (least k hk hk').congr fun i hi => (old (by omega)).symm
    · have inq : ∀ {c}, InQueue (Build.at ⟨ns ++ [new], q'⟩) n ns.length c ↔ c ∈ x.idx :: y.idx :: q.map Key.idx := by
        intro c
        constructor
        · rintro ⟨hc, hno⟩
          rcases parent c hc with h | ⟨j, hj, h⟩
          · exact h
          · refine absurd ((childOld hj).2 h) (hno j ?_ hj)
            by_contra hjn
            obtain ⟨x', f', h1, -⟩ := leaf j (by omega)
            obtain ⟨f, l, r, h2, -⟩ := h
            rw [h1] at h2; cases h2
        · intro hc
          have hclt : c < ns.length := by
            rw [← List.map_cons, ← List.map_cons] at hc
            obtain ⟨k, hk, rfl⟩ := List.mem_map.1 hc
            exact (hm k hk).1
          exact ⟨hclt, fun j _ hj h => orphan c hc j hj ((childOld hj).1 h)⟩
      have below : ∀ {k k' : Key}, k ∈ x :: y :: q → k' ∈ x :: y :: q → ¬ k'.lt k = true → k'.idx ≠ k.idx →
          Below (Build.at ⟨ns ++ [new], q'⟩) k.idx k'.idx := by
        intro k k' hk hk' hlt hne
        rw [Key.lt_iff] at hlt
        obtain ⟨h1, h2⟩ := hm k hk
        obtain ⟨h3, h4⟩ := hm k' hk'
        simp only [Below, old h1, old h3, ← h2, ← h4]
        omega
      refine ⟨_, _, _, last, fun e => hxy (by rw [← hx9, ← hy9, e]), ?_, ?_, ?_, ?_⟩
      · rw [hx9]; exact inq.2 (by simp)
      · rw [hy9]; exact inq.2 (by simp)
      · intro c hc hne
        rw [hx9] at hne ⊢
        have hc := inq.1 hc
        rw [← List.map_cons, ← List.map_cons] at hc
        obtain ⟨k, hk, rfl⟩ := List.mem_map.1 hc
        exact below (by simp) hk (hleast k (hperm.mem_iff.2 hk)) hne
      · intro c hc hne hne'
        rw [hx9] at hne
        rw [hy9] at hne' ⊢
        have hc := inq.1 hc
        simp only [List.mem_cons, hne, hne', false_or] at hc
        obtain ⟨k, hk, rfl⟩ := List.mem_map.1 hc
        exact below (by simp) (by simp [hk]) (hleast' k hk) hne'

/-- `j` merges keep what holds of a build, while there are nodes left to merge. -/
theorem mergeLoop_ok {n total : Nat} (hn : n ≤ 256) (ht : total < 2 ^ 32) (j : Nat) {b : Build}
    (hb : BuildOk n total b) (hj : j < b.queue.length) :
    BuildOk n total (mergeLoop j b) ∧ (mergeLoop j b).queue.length + j = b.queue.length := by
  induction j generalizing b with
  | zero => exact ⟨hb, rfl⟩
  | succ j ih =>
    obtain ⟨hs, hl⟩ := mergeStep_ok hn ht hb (by omega)
    obtain ⟨h1, h2⟩ := ih hs (by omega)
    exact ⟨h1, by rw [mergeLoop]; omega⟩

/-! ### The leaves (R132) -/

theorem mem_presentCounts {c : Counts} {p : Byte × Word} : p ∈ presentCounts c ↔ at256 c p.1 = p.2 ∧ p.2 ≠ 0#32 := by
  simp [presentCounts, mem_bySymbol]

theorem presentCounts_ascending (c : Counts) : (presentCounts c).Pairwise fun p q => p.1.toNat < q.1.toNat := by
  rw [presentCounts, bySymbol_eq]
  refine List.Pairwise.filter _ (List.pairwise_map.2 ?_)
  exact allSymbols_ascending

theorem length_presentCounts_le (c : Counts) : (presentCounts c).length ≤ 256 := by
  have h := List.length_filter_le (fun p : Byte × Word => p.2 != 0#32) (bySymbol c)
  simpa [presentCounts, bySymbol_eq] using h

/-- The counts of the symbols present sum to the total. -/
theorem sum_presentCounts (c : Counts) : ((presentCounts c).map fun p => p.2.toNat).sum = c.total := by
  rw [Counts.total, presentCounts, bySymbol_eq]
  generalize allSymbols = l
  induction l with
  | nil => rfl
  | cons x l ih =>
    rw [List.map_cons, List.filter_cons]
    split
    · simp only [List.map_cons, List.sum_cons, ih]
    next h =>
      have h0 : at256 c x = 0#32 := by simpa using h
      simp only [List.map_cons, List.sum_cons, ih, h0, BitVec.toNat_zero, Nat.zero_add]

theorem at_initialBuild (c : Counts) (i : Nat) (h : i < (presentCounts c).length) :
    (initialBuild c).at i = .leaf (presentCounts c)[i].1 (presentCounts c)[i].2 := by
  simp [Build.at, initialBuild, List.getD_eq_getElem?_getD, h]

theorem map_idx_initialBuild (c : Counts) :
    (initialBuild c).queue.map Key.idx = List.range (presentCounts c).length := by
  simp only [initialBuild, List.map_map, Function.comp_def]
  rw [List.range_eq_range', ← List.zipIdx_map_snd]

theorem initialBuild_ok (c : Counts) : BuildOk (presentCounts c).length c.total (initialBuild c) := by
  have hleaf := at_initialBuild c
  have hlen : (initialBuild c).nodes.length = (presentCounts c).length := by simp [initialBuild]
  have hno : ∀ {k d}, k < (initialBuild c).nodes.length → ¬ Child (initialBuild c).at k d := by
    rintro k d hk ⟨f, l, r, he, -⟩
    rw [hleaf k (by omega)] at he; cases he
  refine ⟨by omega, by rw [hlen]; simp [initialBuild]; omega, ?_, ?_, ?_, ?_, ?_, ?_, ?_, ?_, ?_, ?_⟩
  · intro i hi
    refine ⟨_, _, hleaf i hi, ?_⟩
    have := (mem_presentCounts.1 (List.getElem_mem hi)).2
    rw [Nat.one_le_iff_ne_zero]
    intro h0; exact this (BitVec.eq_of_toNat_eq (by simpa using h0))
  · intro i j hij hj x y f g hi' hj'
    rw [hleaf i (by omega)] at hi'
    rw [hleaf j hj] at hj'
    cases hi'; cases hj'
    exact List.pairwise_iff_getElem.1 (presentCounts_ascending c) i j (by omega) hj hij
  · intro k hk hk'; omega
  · intro q hq
    simp only [initialBuild, List.mem_map] at hq
    obtain ⟨⟨p, i⟩, hp, rfl⟩ := hq
    obtain ⟨hi, hpi⟩ := List.mem_zipIdx' hp
    refine ⟨by rw [hlen]; exact hi, ?_⟩
    change p.2.toNat = ((initialBuild c).at i).freq
    rw [hleaf i hi, hpi]; rfl
  · rw [map_idx_initialBuild]; exact List.nodup_range
  · simp only [initialBuild, List.map_map, Function.comp_def]
    rw [← sum_presentCounts]
    congr 1
    conv_rhs => rw [← List.zipIdx_map_fst 0 (presentCounts c)]
    rw [List.map_map]; rfl
  · intro d hd
    left
    rw [map_idx_initialBuild, List.mem_range]; omega
  · intro d _ k hk; exact hno hk
  · intro d k k' hk _ h; exact absurd h (hno hk)
  · intro k hk hk'; omega

/-! ### The finished tree -/

/-- What the builder's loop leaves (R133): all of a tree of R44 in which every entry but the root has one parent, and
whose root carries the total (R137 (a)). -/
theorem finishedBuild_ok {c : Counts} (ht : c.total < 2 ^ 32) (hne : presentCounts c ≠ []) :
    BuildOk (presentCounts c).length c.total (finishedBuild c) ∧ (finishedBuild c).queue.length = 1 := by
  have hpos : 0 < (presentCounts c).length := List.length_pos_iff.2 hne
  have h0 := initialBuild_ok c
  have hq : (initialBuild c).queue.length = (presentCounts c).length := by simp [initialBuild]
  obtain ⟨h1, h2⟩ := mergeLoop_ok (length_presentCounts_le c) ht ((presentCounts c).length - 1) h0 (by omega)
  exact ⟨h1, by rw [finishedBuild]; omega⟩

/-- The leaves of the finished tree are the symbols present, in ascending order (R132). -/
theorem mergeLoop_keeps {b : Build} (j : Nat) {i : Nat} (hi : i < b.nodes.length) : (mergeLoop j b).at i = b.at i := by
  induction j generalizing b with
  | zero => rfl
  | succ j ih =>
    rw [mergeLoop]
    have hstep : (mergeStep b).at i = b.at i ∧ i < (mergeStep b).nodes.length := by
      simp only [mergeStep]
      split
      · exact ⟨rfl, hi⟩
      · split
        · exact ⟨rfl, hi⟩
        · exact ⟨at_append_old hi, by simp; omega⟩
    rw [ih hstep.2, hstep.1]

theorem at_finishedBuild_leaf (c : Counts) (i : Nat) (h : i < (presentCounts c).length) :
    (finishedBuild c).at i = .leaf (presentCounts c)[i].1 (presentCounts c)[i].2 := by
  rw [finishedBuild, mergeLoop_keeps _ (by simpa [initialBuild] using h), at_initialBuild c i h]

theorem isChild_iff {b : Build} (h : b.nodes.length ≤ 511) {k d : Nat} : IsChild b.arena k d ↔ Child b.at k d := by
  simp only [IsChild, Child, entry_arena b h]

/-- Everything `build_tree` guarantees of the tree it answers (R44, R133, R137). -/
structure Built (c : Counts) (a : Arena) : Prop where
  tree : TreeOf a (presentCounts c).length
  oneParent : OneParent a
  leaves : ∀ i (h : i < (presentCounts c).length), a.entry i = .leaf (presentCounts c)[i].1 (presentCounts c)[i].2
  rest : ∀ i, 2 * (presentCounts c).length - 1 ≤ i → a.entry i = .unspec
  total : (a.entry a.root.toNat).freq = c.total
  merged : ∀ k, (presentCounts c).length ≤ k → k < 2 * (presentCounts c).length - 1 →
    MergedLeast a (presentCounts c).length k

theorem built_of_ok {c : Counts} {b : Build} (hb : BuildOk (presentCounts c).length c.total b)
    (h1 : b.queue.length = 1)
    (hl : ∀ i (h : i < (presentCounts c).length), b.at i = .leaf (presentCounts c)[i].1 (presentCounts c)[i].2) :
    Built c b.arena := by
  have hn := length_presentCounts_le c
  have hlen := hb.queueLen
  have h511 : b.nodes.length ≤ 511 := by omega
  have hpos : 1 ≤ (presentCounts c).length := by have := hb.len; omega
  obtain ⟨k, hk⟩ := List.length_eq_one_iff.1 h1
  have hnodes : b.arena.nodes.toNat = b.nodes.length := by
    simp only [Build.arena, BitVec.toNat_ofNat]; omega
  have hchild : ∀ {k d}, k < b.nodes.length → Child b.at k d → d < k := by
    rintro k d hk ⟨f, l, r, he, hd⟩
    by_cases hkn : k < (presentCounts c).length
    · rw [hl k hkn] at he; cases he
    · obtain ⟨f', l', r', h1, hl, hr, -⟩ := hb.internal k (by omega) hk
      rw [h1] at he; cases he; omega
  have hkidx : k.idx = b.nodes.length - 1 := by
    rcases hb.parent (b.nodes.length - 1) (by omega) with h | ⟨j, hj, h⟩
    · rw [hk, List.map_singleton, List.mem_singleton] at h; exact h.symm
    · have := hchild hj h; omega
  have hroot : b.arena.root.toNat = b.nodes.length - 1 := by
    simp only [Build.arena, hk, List.map_cons, List.map_nil, List.headD_cons, BitVec.toNat_ofNat, hkidx]; omega
  refine ⟨⟨hpos, hn, by rw [hnodes]; omega, by rw [hroot]; omega, ?_, ?_, ?_⟩, ⟨?_, ?_, ?_, ?_⟩, ?_, ?_, ?_, ?_⟩
  · intro i hi; simpa only [entry_arena b h511] using hb.leaf i hi
  · intro i j hij hj x y f g; simpa only [entry_arena b h511] using hb.ascending i j hij hj x y f g
  · intro j hj hj'
    obtain ⟨f, l, r, h1, h2, h3, -, h5⟩ := hb.internal j hj (by omega)
    exact ⟨f, l, r, by rw [entry_arena b h511, h1], h2, h3, by simpa only [entry_arena b h511] using h5⟩
  · intro d hd
    rw [hroot] at hd
    rcases hb.parent d (by omega) with h | ⟨j, hj, h⟩
    · rw [hk] at h; simp at h; omega
    · exact ⟨j, by omega, (isChild_iff h511).2 h⟩
  · intro d j j' hj hj' h h'
    rw [hnodes] at hj hj'
    exact hb.unique d j j' hj hj' ((isChild_iff h511).1 h) ((isChild_iff h511).1 h')
  · intro j hj f l r he
    rw [hnodes] at hj
    rw [entry_arena b h511] at he
    by_cases hjn : j < (presentCounts c).length
    · rw [hl j hjn] at he; cases he
    · obtain ⟨f', l', r', h1, -, -, h4, -⟩ := hb.internal j (by omega) hj
      rw [h1] at he; cases he; exact h4
  · intro j hj h
    rw [hnodes] at hj
    have := hchild hj ((isChild_iff h511).1 h)
    rw [hroot] at this; omega
  · intro i hi; rw [entry_arena b h511, hl i hi]
  · intro i hi
    rw [entry_arena b h511, Build.at, List.getD_eq_getElem?_getD, List.getElem?_eq_none (by omega)]; rfl
  · have h := (hb.keys k (by simp [hk])).2
    have hs := hb.sum
    rw [hk] at hs
    simp only [List.map_cons, List.map_nil, List.sum_cons, List.sum_nil, Nat.add_zero] at hs
    rw [hroot, entry_arena b h511, ← hkidx, ← h, hs]
  · intro j hj hj'
    have h := hb.least j hj (by omega)
    have he : b.arena.entry = b.at := funext fun i => entry_arena b h511 i
    rw [← he] at h
    exact h

/-- What the tree builder answers (R131, R133): EMPTY_ALPHABET without a symbol, else a tree as `Built` says. -/
theorem buildTree_cases {c : Counts} (ht : c.total < 2 ^ 32) :
    (buildTree c = .error .emptyAlphabet ∧ presentCounts c = []) ∨
    (buildTree c = .ok (finishedBuild c).arena ∧ presentCounts c ≠ [] ∧ Built c (finishedBuild c).arena) := by
  simp only [buildTree, List.isEmpty_iff]
  split
  next h => exact .inl ⟨rfl, h⟩
  next h =>
    obtain ⟨h1, h2⟩ := finishedBuild_ok ht h
    exact .inr ⟨rfl, h, built_of_ok h1 h2 (at_finishedBuild_leaf c)⟩

theorem buildTree_error {c : Counts} {e : ErrCode} (h : buildTree c = .error e) :
    e = .emptyAlphabet ∧ presentCounts c = [] := by
  simp only [buildTree, List.isEmpty_iff] at h
  split at h
  next hp => cases h; exact ⟨rfl, hp⟩
  next hp => cases h

end Sys2Proof.Machine
end

