-- ==== Sys2Proof/Laws/Codes.lean ====
section
/-! SUPPORT. What code assignment does (R142, R143): the codeword of a symbol is a root-to-leaf path, so the codes are
prefix-free; a lone leaf has the codeword "0"; no path is longer than the number of merges. -/

namespace Sys2Proof.Machine

/-! ### Paths -/

@[simp] theorem follow_nil (a : Arena) (i : Nat) : follow a i [] = some i := by unfold follow; rfl

theorem follow_cons_of_internal {a : Arena} {i : Nat} {f : Word} {l r : BitVec 9} (h : a.entry i = .internal f l r)
    (b : Bool) (bs : Bits) : follow a i (b :: bs) = follow a (if b then r.toNat else l.toNat) bs := by
  rw [follow, h]

/-- A path that takes a branch starts at an Internal entry. -/
theorem follow_cons_some {a : Arena} {i k : Nat} {b : Bool} {bs : Bits} (h : follow a i (b :: bs) = some k) :
    ∃ f l r, a.entry i = .internal f l r ∧ follow a (if b then r.toNat else l.toNat) bs = some k := by
  rw [follow] at h
  split at h
  next f l r he => exact ⟨f, l, r, he, h⟩
  · cases h
  · cases h

theorem follow_append (a : Arena) (i : Nat) (p q : Bits) :
    follow a i (p ++ q) = (follow a i p).bind fun k => follow a k q := by
  induction p generalizing i with
  | nil => simp
  | cons b p ih =>
    rw [List.cons_append, follow]
    cases he : a.entry i with
    | internal f l r => simp only [ih, follow, he]
    | leaf x f => simp [follow, he]
    | unspec => simp [follow, he]

/-- No path goes on from a leaf. -/
theorem follow_leaf {a : Arena} {i k : Nat} {x : Byte} {f : Word} {p : Bits} (h : a.entry i = .leaf x f)
    (hp : follow a i p = some k) : p = [] ∧ k = i := by
  cases p with
  | nil => simp at hp; exact ⟨rfl, hp.symm⟩
  | cons b p =>
    obtain ⟨f', l, r, he, -⟩ := follow_cons_some hp
    rw [h] at he; cases he

/-- One leaf path is a prefix of another only where they end at the same leaf (R142). -/
theorem leafPath_prefix {a : Arena} {p q : Bits} {x y : Byte} (hp : LeafPath a p x) (hq : LeafPath a q y)
    (h : p <+: q) : p = q ∧ x = y := by
  obtain ⟨k, f, hk, he⟩ := hp
  obtain ⟨k', f', hk', he'⟩ := hq
  obtain ⟨d, rfl⟩ := h
  rw [follow_append, hk, Option.bind_some] at hk'
  obtain ⟨rfl, rfl⟩ := follow_leaf he hk'
  rw [he] at he'
  cases he'
  simp

/-! ### The traversal -/

/-- Everything a traversal emits is a leaf with the path to it. -/
theorem mem_visit {a : Arena} {n i : Nat} {p : Bits} {x : Byte} {q : Bits} (h : (x, q) ∈ visit a n i p) :
    ∃ r k f, q = p ++ r ∧ follow a i r = some k ∧ a.entry k = .leaf x f := by
  induction n generalizing i p with
  | zero => cases h
  | succ n ih =>
    simp only [visit] at h
    split at h
    next x' f he =>
      simp only [List.mem_singleton, Prod.mk.injEq] at h
      obtain ⟨rfl, rfl⟩ := h
      exact ⟨[], i, f, by simp, by simp, he⟩
    next f l r he =>
      rcases List.mem_append.1 h with h | h
      · obtain ⟨d, k, f', rfl, hk, hl⟩ := ih h
        exact ⟨false :: d, k, f', by simp, by rw [follow_cons_of_internal he]; exact hk, hl⟩
      · obtain ⟨d, k, f', rfl, hk, hl⟩ := ih h
        exact ⟨true :: d, k, f', by simp, by rw [follow_cons_of_internal he]; exact hk, hl⟩
    · cases h

/-- A traversal that may go deep enough emits every leaf below its start. -/
theorem visit_complete {a : Arena} {n i k : Nat} {p r : Bits} {x : Byte} {f : Word} (hr : r.length < n)
    (hk : follow a i r = some k) (he : a.entry k = .leaf x f) : (x, p ++ r) ∈ visit a n i p := by
  induction n generalizing i p r with
  | zero => omega
  | succ n ih =>
    cases r with
    | nil =>
      simp at hk
      subst hk
      simp [visit, he]
    | cons b r =>
      obtain ⟨f', l, r', hi, hk⟩ := follow_cons_some hk
      simp only [visit, hi, List.mem_append]
      simp only [List.length_cons] at hr
      cases b with
      | false =>
        left
        have := ih (p := p ++ [false]) (r := r) (by omega) hk
        simpa using this
      | true =>
        right
        have := ih (p := p ++ [true]) (r := r) (by omega) hk
        simpa using this

/-! ### Paths in a tree of R44 -/

/-- Below index `n` stand the leaves, so a path shortens the distance to them at every branch. -/
theorem TreeOf.follow_length {a : Arena} {n i k : Nat} (h : TreeOf a n) (hi : i < 2 * n - 1) {p : Bits}
    (hp : follow a i p = some k) : p.length + n ≤ max n (i + 1) ∧ k ≤ i := by
  induction p generalizing i with
  | nil => simp at hp; subst hp; simp
  | cons b p ih =>
    obtain ⟨f, l, r, he, hp⟩ := follow_cons_some hp
    by_cases hin : i < n
    · obtain ⟨x, g, hl, -⟩ := h.leaf i hin
      rw [hl] at he; cases he
    · obtain ⟨f', l', r', he', hl, hr, -⟩ := h.internal i (by omega) hi
      rw [he] at he'; cases he'
      have hlt : (if b then r.toNat else l.toNat) < i := by split <;> assumption
      obtain ⟨h1, h2⟩ := ih (by omega) hp
      simp only [List.length_cons]
      omega

/-- From every entry in use some path leads to a leaf. -/
theorem TreeOf.exists_leaf {a : Arena} {n : Nat} (h : TreeOf a n) (i : Nat) (hi : i < 2 * n - 1) :
    ∃ p k x f, follow a i p = some k ∧ a.entry k = .leaf x f := by
  induction i using Nat.strong_induction_on with
  | _ i ih =>
    by_cases hin : i < n
    · obtain ⟨x, f, he, -⟩ := h.leaf i hin
      exact ⟨[], i, x, f, by simp, he⟩
    · obtain ⟨f, l, r, he, hl, -, -⟩ := h.internal i (by omega) hi
      obtain ⟨p, k, x, f', hp, hk⟩ := ih l.toNat hl (by omega)
      exact ⟨false :: p, k, x, f', by rw [follow_cons_of_internal he]; exact hp, hk⟩

theorem TreeOf.root_lt {a : Arena} {n : Nat} (h : TreeOf a n) : a.root.toNat < 2 * n - 1 := by
  have := h.root; have := h.atLeast; omega

/-- A root-to-leaf path takes at most one branch per merge (R137 (e), R10). -/
theorem TreeOf.leafPath_length {a : Arena} {n : Nat} (h : TreeOf a n) {p : Bits} {x : Byte} (hp : LeafPath a p x) :
    p.length ≤ n - 1 := by
  obtain ⟨k, f, hk, -⟩ := hp
  have := (h.follow_length h.root_lt hk).1
  have := h.root; have := h.atLeast
  omega

/-- With one parent for every entry, every entry in use lies on a path from the root. -/
theorem TreeOf.reached {a : Arena} {n : Nat} (h : TreeOf a n) (ho : OneParent a) (c : Nat) (hc : c ≤ a.root.toNat) :
    ∃ p, follow a a.root.toNat p = some c := by
  induction hd : a.root.toNat - c using Nat.strong_induction_on generalizing c with
  | _ d ih =>
    by_cases hroot : c = a.root.toNat
    · exact ⟨[], by simp [hroot]⟩
    · obtain ⟨k, hk, f, l, r, he, hch⟩ := ho.parent c (by omega)
      have hkn : ¬ k < n := by
        intro hkn
        obtain ⟨x, g, hl, -⟩ := h.leaf k hkn
        rw [hl] at he; cases he
      have hnodes := h.nodes
      have hroot' := h.root
      obtain ⟨f', l', r', he', hl, hr, -⟩ := h.internal k (by omega) (by omega)
      rw [he] at he'; cases he'
      have hck : c < k := by omega
      obtain ⟨p, hp⟩ := ih (a.root.toNat - k) (by omega) k (by omega) rfl
      rcases hch with hch | hch
      · exact ⟨p ++ [false], by rw [follow_append, hp, Option.bind_some, follow_cons_of_internal he]; simp [hch]⟩
      · exact ⟨p ++ [true], by rw [follow_append, hp, Option.bind_some, follow_cons_of_internal he]; simp [hch]⟩

/-- The branch into the end of a path comes from the entry's one parent. -/
theorem follow_snoc {a : Arena} {i k : Nat} {p : Bits} {b : Bool} (h : follow a i (p ++ [b]) = some k) :
    ∃ j f l r, follow a i p = some j ∧ a.entry j = .internal f l r ∧ (if b then r.toNat else l.toNat) = k := by
  rw [follow_append, Option.bind_eq_some_iff] at h
  obtain ⟨j, hj, h⟩ := h
  obtain ⟨f, l, r, he, h⟩ := follow_cons_some h
  exact ⟨j, f, l, r, hj, he, by simpa using h⟩

/-- With one parent for every entry, only one path leads from the root to an entry (R142). -/
theorem TreeOf.path_unique {a : Arena} {n : Nat} (h : TreeOf a n) (ho : OneParent a) {p q : Bits} {k : Nat}
    (hp : follow a a.root.toNat p = some k) (hq : follow a a.root.toNat q = some k) : p = q := by
  have lt : ∀ {p : Bits} {j : Nat}, follow a a.root.toNat p = some j → j < a.nodes.toNat := by
    intro p j hj
    have := (h.follow_length h.root_lt hj).2
    have := h.nodes; have := h.root_lt; omega
  induction p using List.reverseRecOn generalizing q k with
  | nil =>
    simp at hp; subst hp
    cases q using List.reverseRecOn with
    | nil => rfl
    | append_singleton q b =>
      obtain ⟨j, f, l, r, hj, he, hk⟩ := follow_snoc hq
      refine absurd ⟨f, l, r, he, ?_⟩ (ho.rootFree j (lt hj))
      cases b
      · exact .inl hk
      · exact .inr hk
  | append_singleton p b ih =>
    obtain ⟨j, f, l, r, hj, he, hk⟩ := follow_snoc hp
    cases q using List.reverseRecOn with
    | nil =>
      simp at hq; subst hq
      refine absurd ⟨f, l, r, he, ?_⟩ (ho.rootFree j (lt hj))
      cases b
      · exact .inl hk
      · exact .inr hk
    | append_singleton q b' =>
      obtain ⟨j', f', l', r', hj', he', hk'⟩ := follow_snoc hq
      have hjj : j = j' := by
        refine ho.unique k j j' (lt hj) (lt hj') ⟨f, l, r, he, ?_⟩ ⟨f', l', r', he', ?_⟩
        · cases b
          · exact .inl hk
          · exact .inr hk
        · cases b'
          · exact .inl hk'
          · exact .inr hk'
      subst hjj
      rw [he] at he'; cases he'
      have hne : l.toNat ≠ r.toNat := fun e => ho.differ j (lt hj) f l r he (BitVec.eq_of_toNat_eq e)
      rw [ih hj hj']
      cases b <;> cases b' <;> simp_all

/-- A symbol stands at one leaf. -/
theorem TreeOf.leaf_unique {a : Arena} {n i j : Nat} (h : TreeOf a n) {x : Byte} {f g : Word} (hi : i < 2 * n - 1)
    (hj : j < 2 * n - 1) (hx : a.entry i = .leaf x f) (hy : a.entry j = .leaf x g) : i = j := by
  have leaf_lt : ∀ {i : Nat} {f : Word}, i < 2 * n - 1 → a.entry i = .leaf x f → i < n := by
    intro i f hi hx
    by_contra hn
    obtain ⟨_, _, _, he, -⟩ := h.internal i (by omega) hi
    rw [hx] at he; cases he
  rcases Nat.lt_trichotomy i j with hlt | heq | hlt
  · exact absurd (h.ascending i j hlt (leaf_lt hj hy) x x f g hx hy) (lt_irrefl _)
  · exact heq
  · exact absurd (h.ascending j i hlt (leaf_lt hi hx) x x g f hy hx) (lt_irrefl _)

/-- Each symbol of the tree has one leaf path (R142). -/
theorem TreeOf.leafPath_unique {a : Arena} {n : Nat} (h : TreeOf a n) (ho : OneParent a) {p q : Bits} {x : Byte}
    (hp : LeafPath a p x) (hq : LeafPath a q x) : p = q := by
  obtain ⟨k, f, hk, he⟩ := hp
  obtain ⟨k', f', hk', he'⟩ := hq
  have lt : ∀ {p : Bits} {j : Nat}, follow a a.root.toNat p = some j → j < 2 * n - 1 := by
    intro p j hj
    have := (h.follow_length h.root_lt hj).2
    have := h.root_lt; omega
  obtain rfl := h.leaf_unique (lt hk) (lt hk') he he'
  exact h.path_unique ho hk hk'

/-! ### The code table of a tree -/

/-- A tree of one leaf has that leaf at its root; a tree of more has an Internal root. -/
theorem TreeOf.root_cases {a : Arena} {n : Nat} (h : TreeOf a n) :
    (n = 1 ∧ a.root.toNat = 0 ∧ ∃ x f, a.entry 0 = .leaf x f) ∨
    (2 ≤ n ∧ ∃ f l r, a.entry a.root.toNat = .internal f l r) := by
  have h1 := h.atLeast
  have hr := h.root
  by_cases hn : n = 1
  · subst hn
    obtain ⟨x, f, he, -⟩ := h.leaf 0 (by omega)
    exact .inl ⟨rfl, hr, x, f, he⟩
  · obtain ⟨f, l, r, he, -⟩ := h.internal a.root.toNat (by omega) h.root_lt
    exact .inr ⟨by omega, f, l, r, he⟩

/-- The lone-symbol table (R143). -/
theorem bitsAt_genCodes_lone {a : Arena} {x : Byte} {f : Word} (h : a.entry a.root.toNat = .leaf x f) (y : Byte) :
    bitsAt (genCodes a) y = if y = x then [false] else [] := by
  rw [genCodes, bitsAt_codeTableOf, leafCodes, h]
  by_cases hy : y = x
  · simp [hy]
  · rw [if_neg hy, List.lookup_cons, beq_eq_false_iff_ne.2 hy]; rfl

theorem leafCodes_internal {a : Arena} {f : Word} {l r : BitVec 9} (h : a.entry a.root.toNat = .internal f l r) :
    leafCodes a = visit a Config.maxNodes a.root.toNat [] := by
  rw [leafCodes, h]

/-- Every codeword of a tree with an Internal root is the path to a leaf of its symbol (R142). -/
theorem genCodes_path {a : Arena} {f : Word} {l r : BitVec 9} (h : a.entry a.root.toNat = .internal f l r) {x : Byte}
    (hx : bitsAt (genCodes a) x ≠ []) : LeafPath a (bitsAt (genCodes a) x) x := by
  have hm := mem_of_bitsAt_codeTableOf (rs := leafCodes a) hx
  rw [leafCodes_internal h] at hm
  obtain ⟨p, k, g, hq, hk, he⟩ := mem_visit hm
  rw [← leafCodes_internal h] at hq
  refine ⟨k, g, ?_, he⟩
  rw [genCodes, hq]; simpa using hk

/-- Every symbol at the end of a path from an Internal root has a codeword (R142). -/
theorem TreeOf.genCodes_mapped {a : Arena} {n : Nat} (ht : TreeOf a n) {f : Word} {l r : BitVec 9}
    (h : a.entry a.root.toNat = .internal f l r) {p : Bits} {x : Byte} (hp : LeafPath a p x) :
    bitsAt (genCodes a) x ≠ [] := by
  have hlen := ht.leafPath_length hp
  obtain ⟨k, g, hk, he⟩ := hp
  refine bitsAt_codeTableOf_ne_nil (rs := leafCodes a) (b := p) ?_ ?_
  · rintro ⟨y, q⟩ hm hq
    have hq : q = [] := hq
    subst hq
    rw [leafCodes_internal h] at hm
    obtain ⟨d, k', g', hd, hk', he'⟩ := mem_visit hm
    have : d = [] := by simpa using hd.symm
    subst this
    simp at hk'
    rw [← hk', h] at he'; cases he'
  · rw [leafCodes_internal h]
    have hfuel : p.length < Config.maxNodes := by
      have := ht.atMost
      show p.length < 511
      omega
    simpa using visit_complete (p := []) hfuel hk he

theorem at256_genCodes_known (a : Arena) (x : Byte) : at256 (genCodes a) x ≠ .unspec := by
  simp [genCodes]

/-- The codes of a tree of R44 are prefix-free (R142, R43). -/
theorem TreeOf.genCodes_prefixFree {a : Arena} {n : Nat} (h : TreeOf a n) : PrefixFree (genCodes a) := by
  intro x y hne hx hy hp
  rcases h.root_cases with ⟨-, hr, z, f, he⟩ | ⟨-, f, l, r, he⟩
  · rw [← hr] at he
    rw [bitsAt_genCodes_lone he] at hx hy
    split at hx <;> split at hy
    next h1 h2 => exact hne (h1.trans h2.symm)
    all_goals simp at hx hy
  · exact hne (leafPath_prefix (genCodes_path he hx) (genCodes_path he hy) hp).2

/-- Some symbol has a codeword. -/
theorem TreeOf.genCodes_some {a : Arena} {n : Nat} (h : TreeOf a n) : ∃ x : Byte, bitsAt (genCodes a) x ≠ [] := by
  rcases h.root_cases with ⟨-, hr, z, f, he⟩ | ⟨-, f, l, r, he⟩
  · rw [← hr] at he
    exact ⟨z, by rw [bitsAt_genCodes_lone he]; simp⟩
  · obtain ⟨p, k, x, g, hp, hk⟩ := h.exists_leaf _ h.root_lt
    exact ⟨x, h.genCodes_mapped he ⟨k, g, hp, hk⟩⟩

/-- No codeword is longer than the structural bound (R10). -/
theorem TreeOf.genCodes_lengths {a : Arena} {n : Nat} (h : TreeOf a n) : LengthsAtMost (genCodes a) 255 := by
  intro x
  have hn := h.atMost
  rcases h.root_cases with ⟨-, hr, z, f, he⟩ | ⟨-, f, l, r, he⟩
  · rw [← hr] at he
    rw [bitsAt_genCodes_lone he]
    split <;> simp
  · by_cases hx : bitsAt (genCodes a) x = []
    · simp [hx]
    · have := h.leafPath_length (genCodes_path he hx); omega

/-- The codes of a tree of R44 satisfy the table invariant, if none is longer than allowed (R43, R142). -/
theorem TreeOf.genCodes_inv {a : Arena} {n maxLen : Nat} (h : TreeOf a n)
    (hl : anyCodeLonger (genCodes a) maxLen = false) : TableInv (genCodes a) maxLen :=
  ⟨at256_genCodes_known a, h.genCodes_some, anyCodeLonger_eq_false.1 hl, h.genCodes_prefixFree⟩

/-- Every leaf's symbol gets a codeword, with one parent for every entry (R142, R178). -/
theorem TreeOf.genCodes_leaf {a : Arena} {n i : Nat} (h : TreeOf a n) (ho : OneParent a) (hi : i < n) {x : Byte}
    {f : Word} (he : a.entry i = .leaf x f) : bitsAt (genCodes a) x ≠ [] := by
  rcases h.root_cases with ⟨h1, hr, z, g, hz⟩ | ⟨h2, g, l, r, hz⟩
  · have h0 : i = 0 := by omega
    subst h0
    rw [he] at hz; cases hz
    rw [← hr] at he
    rw [bitsAt_genCodes_lone he]; simp
  · obtain ⟨p, hp⟩ := h.reached ho i (by have := h.root; omega)
    exact h.genCodes_mapped hz ⟨i, f, hp, he⟩

theorem at256_genCodes (a : Arena) (x : Byte) : at256 (genCodes a) x = .word (bitsAt (genCodes a) x) := by
  have h := at256_genCodes_known a x
  cases he : at256 (genCodes a) x with
  | word b => rw [bitsAt_of_word he]
  | unspec => exact absurd he h

/-- A length bound on the codewords is a depth bound on the leaves (R141, R144). -/
theorem TreeOf.lengthsAtMost_iff {a : Arena} {n m : Nat} (h : TreeOf a n) (ho : OneParent a) (hm : 1 ≤ m) :
    LengthsAtMost (genCodes a) m ↔ ∀ p x, LeafPath a p x → p.length ≤ m := by
  rcases h.root_cases with ⟨-, hr, z, f, he⟩ | ⟨-, f, l, r, he⟩
  · rw [← hr] at he
    constructor
    · rintro - p x ⟨k, g, hk, -⟩
      rw [(follow_leaf he hk).1]
      exact Nat.zero_le m
    · rintro - x
      rw [bitsAt_genCodes_lone he]
      split
      · exact hm
      · exact Nat.zero_le m
  · constructor
    · intro hl p x hp
      rw [h.leafPath_unique ho hp (genCodes_path he (h.genCodes_mapped he hp))]
      exact hl x
    · intro hl x
      by_cases hx : bitsAt (genCodes a) x = []
      · rw [hx]; exact Nat.zero_le m
      · exact hl _ _ (genCodes_path he hx)

end Sys2Proof.Machine
end

