-- ==== Sys2Proof/Laws/Counting.lean ====
section
/-! SUPPORT. What counting does (R122, R123): exact counts, which sum to the number of bytes and never wrap. -/

namespace Sys2Proof.Machine

theorem sum_map_indicator (y : Byte) (l : List Byte) :
    (l.map fun b => if y == b then 1 else 0).sum = l.count y := by
  induction l with
  | nil => rfl
  | cons b l ih =>
    rw [List.map_cons, List.sum_cons, ih, List.count_cons]
    by_cases h : b = y
    · simp [h, Nat.add_comm]
    · simp [h, Ne.symm h]

/-- Every list of symbols is counted once by counting each symbol of the alphabet. -/
theorem sum_count_allSymbols (x : List Byte) : (allSymbols.map fun b => x.count b).sum = x.length := by
  induction x with
  | nil => generalize allSymbols = l; simp
  | cons y x ih =>
    have hsplit : (allSymbols.map fun b => (y :: x).count b) =
        allSymbols.map fun b => x.count b + if y == b then 1 else 0 := by
      simp only [List.count_cons]
    rw [hsplit, List.sum_map_add, ih, sum_map_indicator,
      List.count_eq_one_of_mem allSymbols_nodup (mem_allSymbols y), List.length_cons]

/-- Each count is exact while it fits 32 bits (R122, R123). -/
theorem at256_countBytes {x : List Byte} (h : x.length < 2 ^ 32) (b : Byte) :
    (at256 (countBytes x) b).toNat = x.count b := by
  have := List.count_le_length (a := b) (l := x)
  simp only [countBytes, at256_table256, BitVec.toNat_ofNat]
  omega

/-- The counts sum to the number of bytes (R123). -/
theorem total_countBytes {x : List Byte} (h : x.length < 2 ^ 32) : (countBytes x).total = x.length := by
  rw [Counts.total, ← sum_count_allSymbols x]
  congr 1
  apply List.map_congr_left
  intro b _
  exact at256_countBytes h b

/-- The symbols present are the bytes of the input. -/
theorem mem_presentCounts_countBytes {x : List Byte} (h : x.length < 2 ^ 32) {b : Byte} (hb : b ∈ x) :
    (b, at256 (countBytes x) b) ∈ presentCounts (countBytes x) := by
  refine mem_presentCounts.2 ⟨rfl, fun h0 => ?_⟩
  have h0 : at256 (countBytes x) b = 0#32 := h0
  have := at256_countBytes h b
  rw [h0] at this
  have := List.count_pos_iff.2 hb
  rw [BitVec.toNat_zero] at *; omega

end Sys2Proof.Machine
end

