-- ==== Sys2Proof/Laws/State.lean ====
section
/-! SUPPORT. One lemma per field of the state per named update, true by unfolding the update once, so that no later proof
unfolds a record update. -/

namespace Sys2Proof.Machine

variable (s : State)

/-! ### setFreq -/

@[simp] theorem State.setFreq_phase (c : Counts) : (s.setFreq c).phase = s.phase := rfl
@[simp] theorem State.setFreq_cmd (c : Counts) : (s.setFreq c).cmd = s.cmd := rfl
@[simp] theorem State.setFreq_status (c : Counts) : (s.setFreq c).status = s.status := rfl
@[simp] theorem State.setFreq_irqEn (c : Counts) : (s.setFreq c).irqEn = s.irqEn := rfl
@[simp] theorem State.setFreq_inLen (c : Counts) : (s.setFreq c).inLen = s.inLen := rfl
@[simp] theorem State.setFreq_outLen (c : Counts) : (s.setFreq c).outLen = s.outLen := rfl
@[simp] theorem State.setFreq_pad (c : Counts) : (s.setFreq c).pad = s.pad := rfl
@[simp] theorem State.setFreq_bitLen (c : Counts) : (s.setFreq c).bitLen = s.bitLen := rfl
@[simp] theorem State.setFreq_valid (c : Counts) : (s.setFreq c).valid = { s.valid with freq := true } := rfl
@[simp] theorem State.setFreq_freq (c : Counts) : (s.setFreq c).freq = .counts c := rfl
@[simp] theorem State.setFreq_arena (c : Counts) : (s.setFreq c).arena = s.arena := rfl
@[simp] theorem State.setFreq_code (c : Counts) : (s.setFreq c).code = s.code := rfl
@[simp] theorem State.setFreq_inBuf (c : Counts) : (s.setFreq c).inBuf = s.inBuf := rfl
@[simp] theorem State.setFreq_outBuf (c : Counts) : (s.setFreq c).outBuf = s.outBuf := rfl
@[simp] theorem State.setFreq_rstLow (c : Counts) : (s.setFreq c).rstLow = s.rstLow := rfl
@[simp] theorem State.setFreq_params (c : Counts) : (s.setFreq c).params = s.params := rfl
@[simp] theorem State.setFreq_inputs (c : Counts) : (s.setFreq c).inputs = s.inputs := rfl
@[simp] theorem State.setFreq_resp (c : Counts) : (s.setFreq c).resp = s.resp := rfl
@[simp] theorem State.setFreq_draws (c : Counts) : (s.setFreq c).draws = s.draws := rfl

/-! ### setTree -/

@[simp] theorem State.setTree_phase (a : Arena) : (s.setTree a).phase = s.phase := rfl
@[simp] theorem State.setTree_cmd (a : Arena) : (s.setTree a).cmd = s.cmd := rfl
@[simp] theorem State.setTree_status (a : Arena) : (s.setTree a).status = s.status := rfl
@[simp] theorem State.setTree_irqEn (a : Arena) : (s.setTree a).irqEn = s.irqEn := rfl
@[simp] theorem State.setTree_inLen (a : Arena) : (s.setTree a).inLen = s.inLen := rfl
@[simp] theorem State.setTree_outLen (a : Arena) : (s.setTree a).outLen = s.outLen := rfl
@[simp] theorem State.setTree_pad (a : Arena) : (s.setTree a).pad = s.pad := rfl
@[simp] theorem State.setTree_bitLen (a : Arena) : (s.setTree a).bitLen = s.bitLen := rfl
@[simp] theorem State.setTree_valid (a : Arena) : (s.setTree a).valid = { s.valid with tree := true } := rfl
@[simp] theorem State.setTree_freq (a : Arena) : (s.setTree a).freq = s.freq := rfl
@[simp] theorem State.setTree_arena (a : Arena) : (s.setTree a).arena = a := rfl
@[simp] theorem State.setTree_code (a : Arena) : (s.setTree a).code = s.code := rfl
@[simp] theorem State.setTree_inBuf (a : Arena) : (s.setTree a).inBuf = s.inBuf := rfl
@[simp] theorem State.setTree_outBuf (a : Arena) : (s.setTree a).outBuf = s.outBuf := rfl
@[simp] theorem State.setTree_rstLow (a : Arena) : (s.setTree a).rstLow = s.rstLow := rfl
@[simp] theorem State.setTree_params (a : Arena) : (s.setTree a).params = s.params := rfl
@[simp] theorem State.setTree_inputs (a : Arena) : (s.setTree a).inputs = s.inputs := rfl
@[simp] theorem State.setTree_resp (a : Arena) : (s.setTree a).resp = s.resp := rfl
@[simp] theorem State.setTree_draws (a : Arena) : (s.setTree a).draws = s.draws := rfl

/-! ### setCode -/

@[simp] theorem State.setCode_phase (t : CodeTable) : (s.setCode t).phase = s.phase := rfl
@[simp] theorem State.setCode_cmd (t : CodeTable) : (s.setCode t).cmd = s.cmd := rfl
@[simp] theorem State.setCode_status (t : CodeTable) : (s.setCode t).status = s.status := rfl
@[simp] theorem State.setCode_irqEn (t : CodeTable) : (s.setCode t).irqEn = s.irqEn := rfl
@[simp] theorem State.setCode_inLen (t : CodeTable) : (s.setCode t).inLen = s.inLen := rfl
@[simp] theorem State.setCode_outLen (t : CodeTable) : (s.setCode t).outLen = s.outLen := rfl
@[simp] theorem State.setCode_pad (t : CodeTable) : (s.setCode t).pad = s.pad := rfl
@[simp] theorem State.setCode_bitLen (t : CodeTable) : (s.setCode t).bitLen = s.bitLen := rfl
@[simp] theorem State.setCode_valid (t : CodeTable) : (s.setCode t).valid = { s.valid with table := true } := rfl
@[simp] theorem State.setCode_freq (t : CodeTable) : (s.setCode t).freq = s.freq := rfl
@[simp] theorem State.setCode_arena (t : CodeTable) : (s.setCode t).arena = s.arena := rfl
@[simp] theorem State.setCode_code (t : CodeTable) : (s.setCode t).code = t := rfl
@[simp] theorem State.setCode_inBuf (t : CodeTable) : (s.setCode t).inBuf = s.inBuf := rfl
@[simp] theorem State.setCode_outBuf (t : CodeTable) : (s.setCode t).outBuf = s.outBuf := rfl
@[simp] theorem State.setCode_rstLow (t : CodeTable) : (s.setCode t).rstLow = s.rstLow := rfl
@[simp] theorem State.setCode_params (t : CodeTable) : (s.setCode t).params = s.params := rfl
@[simp] theorem State.setCode_inputs (t : CodeTable) : (s.setCode t).inputs = s.inputs := rfl
@[simp] theorem State.setCode_resp (t : CodeTable) : (s.setCode t).resp = s.resp := rfl
@[simp] theorem State.setCode_draws (t : CodeTable) : (s.setCode t).draws = s.draws := rfl

/-! ### putOutput -/

@[simp] theorem State.putOutput_phase (bytes : List Byte) (p b : Nat) : (s.putOutput bytes p b).phase = s.phase := rfl
@[simp] theorem State.putOutput_cmd (bytes : List Byte) (p b : Nat) : (s.putOutput bytes p b).cmd = s.cmd := rfl
@[simp] theorem State.putOutput_status (bytes : List Byte) (p b : Nat) :
    (s.putOutput bytes p b).status = s.status := rfl
@[simp] theorem State.putOutput_irqEn (bytes : List Byte) (p b : Nat) : (s.putOutput bytes p b).irqEn = s.irqEn := rfl
@[simp] theorem State.putOutput_inLen (bytes : List Byte) (p b : Nat) : (s.putOutput bytes p b).inLen = s.inLen := rfl
@[simp] theorem State.putOutput_outLen (bytes : List Byte) (p b : Nat) :
    (s.putOutput bytes p b).outLen = BitVec.ofNat 32 bytes.length := rfl
@[simp] theorem State.putOutput_pad (bytes : List Byte) (p b : Nat) :
    (s.putOutput bytes p b).pad = BitVec.ofNat 3 p := rfl
@[simp] theorem State.putOutput_bitLen (bytes : List Byte) (p b : Nat) :
    (s.putOutput bytes p b).bitLen = BitVec.ofNat 32 b := rfl
@[simp] theorem State.putOutput_valid (bytes : List Byte) (p b : Nat) : (s.putOutput bytes p b).valid = s.valid := rfl
@[simp] theorem State.putOutput_freq (bytes : List Byte) (p b : Nat) : (s.putOutput bytes p b).freq = s.freq := rfl
@[simp] theorem State.putOutput_arena (bytes : List Byte) (p b : Nat) : (s.putOutput bytes p b).arena = s.arena := rfl
@[simp] theorem State.putOutput_code (bytes : List Byte) (p b : Nat) : (s.putOutput bytes p b).code = s.code := rfl
@[simp] theorem State.putOutput_inBuf (bytes : List Byte) (p b : Nat) : (s.putOutput bytes p b).inBuf = s.inBuf := rfl
@[simp] theorem State.putOutput_outBuf (bytes : List Byte) (p b : Nat) :
    (s.putOutput bytes p b).outBuf = s.outBuf.writeBytes 0 bytes := rfl
@[simp] theorem State.putOutput_rstLow (bytes : List Byte) (p b : Nat) :
    (s.putOutput bytes p b).rstLow = s.rstLow := rfl
@[simp] theorem State.putOutput_params (bytes : List Byte) (p b : Nat) :
    (s.putOutput bytes p b).params = s.params := rfl
@[simp] theorem State.putOutput_inputs (bytes : List Byte) (p b : Nat) :
    (s.putOutput bytes p b).inputs = s.inputs := rfl
@[simp] theorem State.putOutput_resp (bytes : List Byte) (p b : Nat) : (s.putOutput bytes p b).resp = s.resp := rfl
@[simp] theorem State.putOutput_draws (bytes : List Byte) (p b : Nat) : (s.putOutput bytes p b).draws = s.draws := rfl

/-! ### complete -/

@[simp] theorem State.complete_phase : s.complete.phase = .idle := rfl
@[simp] theorem State.complete_cmd : s.complete.cmd = s.cmd := rfl
@[simp] theorem State.complete_status :
    s.complete.status = { s.status with done := true, err := false, errCode := .none } := rfl
@[simp] theorem State.complete_irqEn : s.complete.irqEn = s.irqEn := rfl
@[simp] theorem State.complete_inLen : s.complete.inLen = s.inLen := rfl
@[simp] theorem State.complete_outLen : s.complete.outLen = s.outLen := rfl
@[simp] theorem State.complete_pad : s.complete.pad = s.pad := rfl
@[simp] theorem State.complete_bitLen : s.complete.bitLen = s.bitLen := rfl
@[simp] theorem State.complete_valid : s.complete.valid = s.valid := rfl
@[simp] theorem State.complete_freq : s.complete.freq = s.freq := rfl
@[simp] theorem State.complete_arena : s.complete.arena = s.arena := rfl
@[simp] theorem State.complete_code : s.complete.code = s.code := rfl
@[simp] theorem State.complete_inBuf : s.complete.inBuf = s.inBuf := rfl
@[simp] theorem State.complete_outBuf : s.complete.outBuf = s.outBuf := rfl
@[simp] theorem State.complete_rstLow : s.complete.rstLow = s.rstLow := rfl
@[simp] theorem State.complete_params : s.complete.params = s.params := rfl
@[simp] theorem State.complete_inputs : s.complete.inputs = s.inputs := rfl
@[simp] theorem State.complete_resp : s.complete.resp = s.resp := rfl
@[simp] theorem State.complete_draws : s.complete.draws = s.draws := rfl

/-! ### spoilFreq -/

@[simp] theorem State.spoilFreq_phase : s.spoilFreq.phase = s.phase := rfl
@[simp] theorem State.spoilFreq_cmd : s.spoilFreq.cmd = s.cmd := rfl
@[simp] theorem State.spoilFreq_status : s.spoilFreq.status = s.status := rfl
@[simp] theorem State.spoilFreq_irqEn : s.spoilFreq.irqEn = s.irqEn := rfl
@[simp] theorem State.spoilFreq_inLen : s.spoilFreq.inLen = s.inLen := rfl
@[simp] theorem State.spoilFreq_outLen : s.spoilFreq.outLen = s.outLen := rfl
@[simp] theorem State.spoilFreq_pad : s.spoilFreq.pad = s.pad := rfl
@[simp] theorem State.spoilFreq_bitLen : s.spoilFreq.bitLen = s.bitLen := rfl
@[simp] theorem State.spoilFreq_valid : s.spoilFreq.valid = { s.valid with freq := false } := rfl
@[simp] theorem State.spoilFreq_freq : s.spoilFreq.freq = .unspec s.draws := rfl
@[simp] theorem State.spoilFreq_arena : s.spoilFreq.arena = s.arena := rfl
@[simp] theorem State.spoilFreq_code : s.spoilFreq.code = s.code := rfl
@[simp] theorem State.spoilFreq_inBuf : s.spoilFreq.inBuf = s.inBuf := rfl
@[simp] theorem State.spoilFreq_outBuf : s.spoilFreq.outBuf = s.outBuf := rfl
@[simp] theorem State.spoilFreq_rstLow : s.spoilFreq.rstLow = s.rstLow := rfl
@[simp] theorem State.spoilFreq_params : s.spoilFreq.params = s.params := rfl
@[simp] theorem State.spoilFreq_inputs : s.spoilFreq.inputs = s.inputs := rfl
@[simp] theorem State.spoilFreq_resp : s.spoilFreq.resp = s.resp := rfl
@[simp] theorem State.spoilFreq_draws : s.spoilFreq.draws = s.draws + 1 := rfl

/-! ### spoilTree -/

@[simp] theorem State.spoilTree_phase : s.spoilTree.phase = s.phase := rfl
@[simp] theorem State.spoilTree_cmd : s.spoilTree.cmd = s.cmd := rfl
@[simp] theorem State.spoilTree_status : s.spoilTree.status = s.status := rfl
@[simp] theorem State.spoilTree_irqEn : s.spoilTree.irqEn = s.irqEn := rfl
@[simp] theorem State.spoilTree_inLen : s.spoilTree.inLen = s.inLen := rfl
@[simp] theorem State.spoilTree_outLen : s.spoilTree.outLen = s.outLen := rfl
@[simp] theorem State.spoilTree_pad : s.spoilTree.pad = s.pad := rfl
@[simp] theorem State.spoilTree_bitLen : s.spoilTree.bitLen = s.bitLen := rfl
@[simp] theorem State.spoilTree_valid : s.spoilTree.valid = { s.valid with tree := false } := rfl
@[simp] theorem State.spoilTree_freq : s.spoilTree.freq = s.freq := rfl
@[simp] theorem State.spoilTree_arena :
    s.spoilTree.arena = { s.arena with entries := Vector.replicate 511 .unspec } := rfl
@[simp] theorem State.spoilTree_code : s.spoilTree.code = s.code := rfl
@[simp] theorem State.spoilTree_inBuf : s.spoilTree.inBuf = s.inBuf := rfl
@[simp] theorem State.spoilTree_outBuf : s.spoilTree.outBuf = s.outBuf := rfl
@[simp] theorem State.spoilTree_rstLow : s.spoilTree.rstLow = s.rstLow := rfl
@[simp] theorem State.spoilTree_params : s.spoilTree.params = s.params := rfl
@[simp] theorem State.spoilTree_inputs : s.spoilTree.inputs = s.inputs := rfl
@[simp] theorem State.spoilTree_resp : s.spoilTree.resp = s.resp := rfl
@[simp] theorem State.spoilTree_draws : s.spoilTree.draws = s.draws := rfl

/-! ### spoilCode -/

@[simp] theorem State.spoilCode_phase : s.spoilCode.phase = s.phase := rfl
@[simp] theorem State.spoilCode_cmd : s.spoilCode.cmd = s.cmd := rfl
@[simp] theorem State.spoilCode_status : s.spoilCode.status = s.status := rfl
@[simp] theorem State.spoilCode_irqEn : s.spoilCode.irqEn = s.irqEn := rfl
@[simp] theorem State.spoilCode_inLen : s.spoilCode.inLen = s.inLen := rfl
@[simp] theorem State.spoilCode_outLen : s.spoilCode.outLen = s.outLen := rfl
@[simp] theorem State.spoilCode_pad : s.spoilCode.pad = s.pad := rfl
@[simp] theorem State.spoilCode_bitLen : s.spoilCode.bitLen = s.bitLen := rfl
@[simp] theorem State.spoilCode_valid : s.spoilCode.valid = { s.valid with table := false } := rfl
@[simp] theorem State.spoilCode_freq : s.spoilCode.freq = s.freq := rfl
@[simp] theorem State.spoilCode_arena : s.spoilCode.arena = s.arena := rfl
@[simp] theorem State.spoilCode_code : s.spoilCode.code = Vector.replicate 256 .unspec := rfl
@[simp] theorem State.spoilCode_inBuf : s.spoilCode.inBuf = s.inBuf := rfl
@[simp] theorem State.spoilCode_outBuf : s.spoilCode.outBuf = s.outBuf := rfl
@[simp] theorem State.spoilCode_rstLow : s.spoilCode.rstLow = s.rstLow := rfl
@[simp] theorem State.spoilCode_params : s.spoilCode.params = s.params := rfl
@[simp] theorem State.spoilCode_inputs : s.spoilCode.inputs = s.inputs := rfl
@[simp] theorem State.spoilCode_resp : s.spoilCode.resp = s.resp := rfl
@[simp] theorem State.spoilCode_draws : s.spoilCode.draws = s.draws := rfl

/-! ### spoilOut -/

@[simp] theorem State.spoilOut_phase : s.spoilOut.phase = s.phase := rfl
@[simp] theorem State.spoilOut_cmd : s.spoilOut.cmd = s.cmd := rfl
@[simp] theorem State.spoilOut_status : s.spoilOut.status = s.status := rfl
@[simp] theorem State.spoilOut_irqEn : s.spoilOut.irqEn = s.irqEn := rfl
@[simp] theorem State.spoilOut_inLen : s.spoilOut.inLen = s.inLen := rfl
@[simp] theorem State.spoilOut_outLen : s.spoilOut.outLen = 0#32 := rfl
@[simp] theorem State.spoilOut_pad : s.spoilOut.pad = 0#3 := rfl
@[simp] theorem State.spoilOut_bitLen : s.spoilOut.bitLen = 0#32 := rfl
@[simp] theorem State.spoilOut_valid : s.spoilOut.valid = s.valid := rfl
@[simp] theorem State.spoilOut_freq : s.spoilOut.freq = s.freq := rfl
@[simp] theorem State.spoilOut_arena : s.spoilOut.arena = s.arena := rfl
@[simp] theorem State.spoilOut_code : s.spoilOut.code = s.code := rfl
@[simp] theorem State.spoilOut_inBuf : s.spoilOut.inBuf = s.inBuf := rfl
@[simp] theorem State.spoilOut_outBuf : s.spoilOut.outBuf = { draw := s.draws, cells := [] } := rfl
@[simp] theorem State.spoilOut_rstLow : s.spoilOut.rstLow = s.rstLow := rfl
@[simp] theorem State.spoilOut_params : s.spoilOut.params = s.params := rfl
@[simp] theorem State.spoilOut_inputs : s.spoilOut.inputs = s.inputs := rfl
@[simp] theorem State.spoilOut_resp : s.spoilOut.resp = s.resp := rfl
@[simp] theorem State.spoilOut_draws : s.spoilOut.draws = s.draws + 1 := rfl

/-! ### recordError -/

@[simp] theorem State.recordError_phase (e : ErrCode) : (s.recordError e).phase = .idle := rfl
@[simp] theorem State.recordError_cmd (e : ErrCode) : (s.recordError e).cmd = s.cmd := rfl
@[simp] theorem State.recordError_status (e : ErrCode) :
    (s.recordError e).status = { s.status with done := true, err := true, errCode := e } := rfl
@[simp] theorem State.recordError_irqEn (e : ErrCode) : (s.recordError e).irqEn = s.irqEn := rfl
@[simp] theorem State.recordError_inLen (e : ErrCode) : (s.recordError e).inLen = s.inLen := rfl
@[simp] theorem State.recordError_outLen (e : ErrCode) : (s.recordError e).outLen = s.outLen := rfl
@[simp] theorem State.recordError_pad (e : ErrCode) : (s.recordError e).pad = s.pad := rfl
@[simp] theorem State.recordError_bitLen (e : ErrCode) : (s.recordError e).bitLen = s.bitLen := rfl
@[simp] theorem State.recordError_valid (e : ErrCode) : (s.recordError e).valid = s.valid := rfl
@[simp] theorem State.recordError_freq (e : ErrCode) : (s.recordError e).freq = s.freq := rfl
@[simp] theorem State.recordError_arena (e : ErrCode) : (s.recordError e).arena = s.arena := rfl
@[simp] theorem State.recordError_code (e : ErrCode) : (s.recordError e).code = s.code := rfl
@[simp] theorem State.recordError_inBuf (e : ErrCode) : (s.recordError e).inBuf = s.inBuf := rfl
@[simp] theorem State.recordError_outBuf (e : ErrCode) : (s.recordError e).outBuf = s.outBuf := rfl
@[simp] theorem State.recordError_rstLow (e : ErrCode) : (s.recordError e).rstLow = s.rstLow := rfl
@[simp] theorem State.recordError_params (e : ErrCode) : (s.recordError e).params = s.params := rfl
@[simp] theorem State.recordError_inputs (e : ErrCode) : (s.recordError e).inputs = s.inputs := rfl
@[simp] theorem State.recordError_resp (e : ErrCode) : (s.recordError e).resp = s.resp := rfl
@[simp] theorem State.recordError_draws (e : ErrCode) : (s.recordError e).draws = s.draws := rfl

/-! ### clearTables -/

@[simp] theorem State.clearTables_phase : s.clearTables.phase = s.phase := rfl
@[simp] theorem State.clearTables_cmd : s.clearTables.cmd = s.cmd := rfl
@[simp] theorem State.clearTables_status : s.clearTables.status = s.status := rfl
@[simp] theorem State.clearTables_irqEn : s.clearTables.irqEn = s.irqEn := rfl
@[simp] theorem State.clearTables_inLen : s.clearTables.inLen = s.inLen := rfl
@[simp] theorem State.clearTables_outLen : s.clearTables.outLen = 0#32 := rfl
@[simp] theorem State.clearTables_pad : s.clearTables.pad = 0#3 := rfl
@[simp] theorem State.clearTables_bitLen : s.clearTables.bitLen = 0#32 := rfl
@[simp] theorem State.clearTables_valid :
    s.clearTables.valid = { freq := false, tree := false, table := false } := rfl
@[simp] theorem State.clearTables_freq : s.clearTables.freq = .counts (Vector.replicate 256 0#32) := rfl
@[simp] theorem State.clearTables_arena :
    s.clearTables.arena = { s.arena with entries := Vector.replicate 511 (.internal 0#32 0#9 0#9) } := rfl
@[simp] theorem State.clearTables_code : s.clearTables.code = Vector.replicate 256 (.word []) := rfl
@[simp] theorem State.clearTables_inBuf : s.clearTables.inBuf = s.inBuf := rfl
@[simp] theorem State.clearTables_outBuf : s.clearTables.outBuf = s.outBuf := rfl
@[simp] theorem State.clearTables_rstLow : s.clearTables.rstLow = s.rstLow := rfl
@[simp] theorem State.clearTables_params : s.clearTables.params = s.params := rfl
@[simp] theorem State.clearTables_inputs : s.clearTables.inputs = s.inputs := rfl
@[simp] theorem State.clearTables_resp : s.clearTables.resp = s.resp := rfl
@[simp] theorem State.clearTables_draws : s.clearTables.draws = s.draws := rfl

/-! ### clearStatus -/

@[simp] theorem State.clearStatus_phase (w : Word) : (s.clearStatus w).phase = s.phase := rfl
@[simp] theorem State.clearStatus_cmd (w : Word) : (s.clearStatus w).cmd = s.cmd := rfl
@[simp] theorem State.clearStatus_status (w : Word) :
    (s.clearStatus w).status =
      { done := s.status.done && !w.getLsbD 1, err := s.status.err && !w.getLsbD 2
        overrun := s.status.overrun && !w.getLsbD 3, errCode := s.status.errCode } := rfl
@[simp] theorem State.clearStatus_irqEn (w : Word) : (s.clearStatus w).irqEn = s.irqEn := rfl
@[simp] theorem State.clearStatus_inLen (w : Word) : (s.clearStatus w).inLen = s.inLen := rfl
@[simp] theorem State.clearStatus_outLen (w : Word) : (s.clearStatus w).outLen = s.outLen := rfl
@[simp] theorem State.clearStatus_pad (w : Word) : (s.clearStatus w).pad = s.pad := rfl
@[simp] theorem State.clearStatus_bitLen (w : Word) : (s.clearStatus w).bitLen = s.bitLen := rfl
@[simp] theorem State.clearStatus_valid (w : Word) : (s.clearStatus w).valid = s.valid := rfl
@[simp] theorem State.clearStatus_freq (w : Word) : (s.clearStatus w).freq = s.freq := rfl
@[simp] theorem State.clearStatus_arena (w : Word) : (s.clearStatus w).arena = s.arena := rfl
@[simp] theorem State.clearStatus_code (w : Word) : (s.clearStatus w).code = s.code := rfl
@[simp] theorem State.clearStatus_inBuf (w : Word) : (s.clearStatus w).inBuf = s.inBuf := rfl
@[simp] theorem State.clearStatus_outBuf (w : Word) : (s.clearStatus w).outBuf = s.outBuf := rfl
@[simp] theorem State.clearStatus_rstLow (w : Word) : (s.clearStatus w).rstLow = s.rstLow := rfl
@[simp] theorem State.clearStatus_params (w : Word) : (s.clearStatus w).params = s.params := rfl
@[simp] theorem State.clearStatus_inputs (w : Word) : (s.clearStatus w).inputs = s.inputs := rfl
@[simp] theorem State.clearStatus_resp (w : Word) : (s.clearStatus w).resp = s.resp := rfl
@[simp] theorem State.clearStatus_draws (w : Word) : (s.clearStatus w).draws = s.draws := rfl

/-! ### acceptCmd -/

@[simp] theorem State.acceptCmd_phase (w : Word) : (s.acceptCmd w).phase = .busy w := rfl
@[simp] theorem State.acceptCmd_cmd (w : Word) : (s.acceptCmd w).cmd = w := rfl
@[simp] theorem State.acceptCmd_status (w : Word) :
    (s.acceptCmd w).status = { s.status with done := false, err := false } := rfl
@[simp] theorem State.acceptCmd_irqEn (w : Word) : (s.acceptCmd w).irqEn = s.irqEn := rfl
@[simp] theorem State.acceptCmd_inLen (w : Word) : (s.acceptCmd w).inLen = s.inLen := rfl
@[simp] theorem State.acceptCmd_outLen (w : Word) : (s.acceptCmd w).outLen = s.outLen := rfl
@[simp] theorem State.acceptCmd_pad (w : Word) : (s.acceptCmd w).pad = s.pad := rfl
@[simp] theorem State.acceptCmd_bitLen (w : Word) : (s.acceptCmd w).bitLen = s.bitLen := rfl
@[simp] theorem State.acceptCmd_valid (w : Word) : (s.acceptCmd w).valid = s.valid := rfl
@[simp] theorem State.acceptCmd_freq (w : Word) : (s.acceptCmd w).freq = s.freq := rfl
@[simp] theorem State.acceptCmd_arena (w : Word) : (s.acceptCmd w).arena = s.arena := rfl
@[simp] theorem State.acceptCmd_code (w : Word) : (s.acceptCmd w).code = s.code := rfl
@[simp] theorem State.acceptCmd_inBuf (w : Word) : (s.acceptCmd w).inBuf = s.inBuf := rfl
@[simp] theorem State.acceptCmd_outBuf (w : Word) : (s.acceptCmd w).outBuf = s.outBuf := rfl
@[simp] theorem State.acceptCmd_rstLow (w : Word) : (s.acceptCmd w).rstLow = s.rstLow := rfl
@[simp] theorem State.acceptCmd_params (w : Word) : (s.acceptCmd w).params = s.params := rfl
@[simp] theorem State.acceptCmd_inputs (w : Word) : (s.acceptCmd w).inputs = s.inputs := rfl
@[simp] theorem State.acceptCmd_resp (w : Word) : (s.acceptCmd w).resp = s.resp := rfl
@[simp] theorem State.acceptCmd_draws (w : Word) : (s.acceptCmd w).draws = s.draws := rfl

/-! ### leaveReset -/

@[simp] theorem State.leaveReset_phase : s.leaveReset.phase = s.phase := rfl
@[simp] theorem State.leaveReset_cmd : s.leaveReset.cmd = s.cmd := rfl
@[simp] theorem State.leaveReset_status : s.leaveReset.status = s.status := rfl
@[simp] theorem State.leaveReset_irqEn : s.leaveReset.irqEn = s.irqEn := rfl
@[simp] theorem State.leaveReset_inLen : s.leaveReset.inLen = s.inLen := rfl
@[simp] theorem State.leaveReset_outLen : s.leaveReset.outLen = s.outLen := rfl
@[simp] theorem State.leaveReset_pad : s.leaveReset.pad = s.pad := rfl
@[simp] theorem State.leaveReset_bitLen : s.leaveReset.bitLen = s.bitLen := rfl
@[simp] theorem State.leaveReset_valid : s.leaveReset.valid = s.valid := rfl
@[simp] theorem State.leaveReset_freq : s.leaveReset.freq = s.freq := rfl
@[simp] theorem State.leaveReset_arena : s.leaveReset.arena = s.arena := rfl
@[simp] theorem State.leaveReset_code : s.leaveReset.code = s.code := rfl
@[simp] theorem State.leaveReset_inBuf : s.leaveReset.inBuf = s.inBuf := rfl
@[simp] theorem State.leaveReset_outBuf : s.leaveReset.outBuf = s.outBuf := rfl
@[simp] theorem State.leaveReset_rstLow : s.leaveReset.rstLow = false := rfl
@[simp] theorem State.leaveReset_params : s.leaveReset.params = s.params := rfl
@[simp] theorem State.leaveReset_inputs : s.leaveReset.inputs = s.inputs := rfl
@[simp] theorem State.leaveReset_resp : s.leaveReset.resp = s.resp := rfl
@[simp] theorem State.leaveReset_draws : s.leaveReset.draws = s.draws := rfl

/-! ### answerWrite -/

@[simp] theorem State.answerWrite_phase : s.answerWrite.phase = s.phase := rfl
@[simp] theorem State.answerWrite_cmd : s.answerWrite.cmd = s.cmd := rfl
@[simp] theorem State.answerWrite_status : s.answerWrite.status = s.status := rfl
@[simp] theorem State.answerWrite_irqEn : s.answerWrite.irqEn = s.irqEn := rfl
@[simp] theorem State.answerWrite_inLen : s.answerWrite.inLen = s.inLen := rfl
@[simp] theorem State.answerWrite_outLen : s.answerWrite.outLen = s.outLen := rfl
@[simp] theorem State.answerWrite_pad : s.answerWrite.pad = s.pad := rfl
@[simp] theorem State.answerWrite_bitLen : s.answerWrite.bitLen = s.bitLen := rfl
@[simp] theorem State.answerWrite_valid : s.answerWrite.valid = s.valid := rfl
@[simp] theorem State.answerWrite_freq : s.answerWrite.freq = s.freq := rfl
@[simp] theorem State.answerWrite_arena : s.answerWrite.arena = s.arena := rfl
@[simp] theorem State.answerWrite_code : s.answerWrite.code = s.code := rfl
@[simp] theorem State.answerWrite_inBuf : s.answerWrite.inBuf = s.inBuf := rfl
@[simp] theorem State.answerWrite_outBuf : s.answerWrite.outBuf = s.outBuf := rfl
@[simp] theorem State.answerWrite_rstLow : s.answerWrite.rstLow = s.rstLow := rfl
@[simp] theorem State.answerWrite_params : s.answerWrite.params = s.params := rfl
@[simp] theorem State.answerWrite_inputs : s.answerWrite.inputs = s.inputs := rfl
@[simp] theorem State.answerWrite_resp : s.answerWrite.resp = .wrote := rfl
@[simp] theorem State.answerWrite_draws : s.answerWrite.draws = s.draws := rfl

/-! ### placeCommand -/

@[simp] theorem State.placeCommand_phase (w : Word) : (s.placeCommand w).phase = .busy w := rfl
@[simp] theorem State.placeCommand_cmd (w : Word) : (s.placeCommand w).cmd = w := rfl
@[simp] theorem State.placeCommand_status (w : Word) :
    (s.placeCommand w).status = { s.status with done := false, err := false } := rfl
@[simp] theorem State.placeCommand_irqEn (w : Word) : (s.placeCommand w).irqEn = s.irqEn := rfl
@[simp] theorem State.placeCommand_inLen (w : Word) : (s.placeCommand w).inLen = s.inLen := rfl
@[simp] theorem State.placeCommand_outLen (w : Word) : (s.placeCommand w).outLen = s.outLen := rfl
@[simp] theorem State.placeCommand_pad (w : Word) : (s.placeCommand w).pad = s.pad := rfl
@[simp] theorem State.placeCommand_bitLen (w : Word) : (s.placeCommand w).bitLen = s.bitLen := rfl
@[simp] theorem State.placeCommand_valid (w : Word) : (s.placeCommand w).valid = s.valid := rfl
@[simp] theorem State.placeCommand_freq (w : Word) : (s.placeCommand w).freq = s.freq := rfl
@[simp] theorem State.placeCommand_arena (w : Word) : (s.placeCommand w).arena = s.arena := rfl
@[simp] theorem State.placeCommand_code (w : Word) : (s.placeCommand w).code = s.code := rfl
@[simp] theorem State.placeCommand_inBuf (w : Word) : (s.placeCommand w).inBuf = s.inBuf := rfl
@[simp] theorem State.placeCommand_outBuf (w : Word) : (s.placeCommand w).outBuf = s.outBuf := rfl
@[simp] theorem State.placeCommand_rstLow (w : Word) : (s.placeCommand w).rstLow = false := rfl
@[simp] theorem State.placeCommand_params (w : Word) : (s.placeCommand w).params = s.params := rfl
@[simp] theorem State.placeCommand_inputs (w : Word) : (s.placeCommand w).inputs = .engine :: s.inputs := rfl
@[simp] theorem State.placeCommand_resp (w : Word) : (s.placeCommand w).resp = s.resp := rfl
@[simp] theorem State.placeCommand_draws (w : Word) : (s.placeCommand w).draws = s.draws := rfl

/-! ### The reset state, and the reset event -/

@[simp] theorem State.reset_phase : State.reset.phase = .idle := rfl
@[simp] theorem State.reset_cmd : State.reset.cmd = 0#32 := rfl
@[simp] theorem State.reset_status : State.reset.status = { done := false, err := false, overrun := false, errCode := .none } := rfl
@[simp] theorem State.reset_irqEn : State.reset.irqEn = { doneIE := false, errIE := false } := rfl
@[simp] theorem State.reset_inLen : State.reset.inLen = 0#32 := rfl
@[simp] theorem State.reset_outLen : State.reset.outLen = 0#32 := rfl
@[simp] theorem State.reset_pad : State.reset.pad = 0#3 := rfl
@[simp] theorem State.reset_bitLen : State.reset.bitLen = 0#32 := rfl
@[simp] theorem State.reset_valid : State.reset.valid = { freq := false, tree := false, table := false } := rfl
@[simp] theorem State.reset_code : State.reset.code = Vector.replicate 256 .unspec := rfl
@[simp] theorem State.reset_rstLow : State.reset.rstLow = false := rfl
@[simp] theorem State.reset_inputs : State.reset.inputs = [] := rfl
@[simp] theorem State.reset_resp : State.reset.resp = .none := rfl
@[simp] theorem State.reset_entries : State.reset.arena.entries = Vector.replicate 511 .unspec := rfl
@[simp] theorem State.reset_inCells : State.reset.inBuf.cells = [] := rfl
@[simp] theorem State.reset_outCells : State.reset.outBuf.cells = [] := rfl
@[simp] theorem State.reset_params : State.reset.params = Params.standard := rfl
@[simp] theorem State.enterReset_phase : s.enterReset.phase = .idle := rfl
@[simp] theorem State.enterReset_cmd : s.enterReset.cmd = 0#32 := rfl
@[simp] theorem State.enterReset_status : s.enterReset.status = { done := false, err := false, overrun := false, errCode := .none } := rfl
@[simp] theorem State.enterReset_irqEn : s.enterReset.irqEn = { doneIE := false, errIE := false } := rfl
@[simp] theorem State.enterReset_inLen : s.enterReset.inLen = 0#32 := rfl
@[simp] theorem State.enterReset_outLen : s.enterReset.outLen = 0#32 := rfl
@[simp] theorem State.enterReset_pad : s.enterReset.pad = 0#3 := rfl
@[simp] theorem State.enterReset_bitLen : s.enterReset.bitLen = 0#32 := rfl
@[simp] theorem State.enterReset_valid : s.enterReset.valid = { freq := false, tree := false, table := false } := rfl
@[simp] theorem State.enterReset_freq : s.enterReset.freq = .unspec s.draws := rfl
@[simp] theorem State.enterReset_code : s.enterReset.code = Vector.replicate 256 .unspec := rfl
@[simp] theorem State.enterReset_inBuf : s.enterReset.inBuf = { draw := s.draws + 1, cells := [] } := rfl
@[simp] theorem State.enterReset_outBuf : s.enterReset.outBuf = { draw := s.draws + 2, cells := [] } := rfl
@[simp] theorem State.enterReset_rstLow : s.enterReset.rstLow = true := rfl
@[simp] theorem State.enterReset_params : s.enterReset.params = s.params := rfl
@[simp] theorem State.enterReset_inputs : s.enterReset.inputs = s.inputs := rfl
@[simp] theorem State.enterReset_resp : s.enterReset.resp = s.resp := rfl
@[simp] theorem State.enterReset_draws : s.enterReset.draws = s.draws + 3 := rfl
@[simp] theorem State.enterReset_entries : s.enterReset.arena.entries = Vector.replicate 511 .unspec := rfl

end Sys2Proof.Machine
end

