-- ==== Sys2Proof/Laws/Store.lean ====
section
/-! SUPPORT. The serialized code table (R107): what parsing accepts (R151) is exactly what serializing writes (R147). -/

namespace Sys2Proof.Machine

/-- The records R151 accepts: strictly ascending symbols from `lo` on, codewords of 1 to `maxLen` bits. -/
structure RecordsOk (maxLen lo : Nat) (rs : List (Byte × Bits)) : Prop where
  ascending : rs.Pairwise fun p q => p.1.toNat < q.1.toNat
  from_lo : ∀ p ∈ rs, lo ≤ p.1.toNat
  lengths : ∀ p ∈ rs, p.2 ≠ [] ∧ p.2.length ≤ maxLen

theorem RecordsOk.cons {maxLen lo : Nat} {x : Byte} {b : Bits} {rs : List (Byte × Bits)} :
    RecordsOk maxLen lo ((x, b) :: rs) ↔
      lo ≤ x.toNat ∧ b ≠ [] ∧ b.length ≤ maxLen ∧ RecordsOk maxLen (x.toNat + 1) rs := by
  constructor
  · intro ⟨h1, h2, h3⟩
    obtain ⟨hx, h1⟩ := List.pairwise_cons.1 h1
    obtain ⟨hb, hl⟩ := h3 _ List.mem_cons_self
    exact ⟨h2 _ List.mem_cons_self, hb, hl, h1, fun p hp => hx p hp, fun p hp => h3 p (List.mem_cons_of_mem _ hp)⟩
  · intro ⟨h1, h2, h3, h4⟩
    refine ⟨List.pairwise_cons.2 ⟨fun p hp => h4.from_lo p hp, h4.ascending⟩, fun p hp => ?_, fun p hp => ?_⟩ <;>
      rcases List.mem_cons.1 hp with rfl | hp
    · exact h1
    · have := h4.from_lo p hp; omega
    · exact ⟨h2, h3⟩
    · exact h4.lengths p hp

theorem RecordsOk.nil (maxLen lo : Nat) : RecordsOk maxLen lo [] := ⟨by simp, by simp, by simp⟩

/-- The bytes of a list of records (R107). -/
def recordBytes (rs : List (Byte × Bits)) : List Byte := rs.flatMap fun p => tableRecord p.1 p.2

@[simp] theorem recordBytes_cons (x : Byte) (b : Bits) (rs : List (Byte × Bits)) :
    recordBytes ((x, b) :: rs) = x :: BitVec.ofNat 8 b.length :: (packPadded b ++ recordBytes rs) := rfl

/-- A record's packed bits, unpacked: the codeword, then filler that is all zero. -/
theorem unpacked_record (b : Bits) :
    (unpackMsb (packPadded b)).take b.length = b ∧ ((unpackMsb (packPadded b)).drop b.length).any id = false := by
  rw [unpackMsb_packPadded]
  refine ⟨by simp, ?_⟩
  rw [List.drop_left, List.any_eq_false]
  intro v hv
  simp [List.eq_of_mem_replicate hv]

/-- Bits whose filler is all zero are a codeword padded with zeros, so packing gives the bytes back. -/
theorem packPadded_take {u : List Byte} {len : Nat} (hu : u.length = ceilDiv len 8)
    (hz : ((unpackMsb u).drop len).any id = false) : packPadded ((unpackMsb u).take len) = u := by
  have hlen : ((unpackMsb u).take len).length = len := by
    rw [List.length_take, length_unpackMsb, hu, ceilDiv]; omega
  have hdrop : (unpackMsb u).drop len = zeros (padCount len) := by
    refine List.eq_replicate_iff.2 ⟨?_, fun v hv => ?_⟩
    · rw [List.length_drop, length_unpackMsb, hu, ceilDiv, padCount]; omega
    · have := List.any_eq_false.1 hz v hv
      simpa using this
  rw [packPadded, hlen, ← hdrop, List.take_append_drop, packMsb_unpackMsb]

/-- Everything `parse_table`'s record loop can accept (R151): the bytes of `n` good records, nothing more. -/
theorem parseRecords_eq_some_iff {maxLen : Nat} (hm : maxLen ≤ 255) {n lo : Nat} {x : List Byte}
    {rs : List (Byte × Bits)} :
    parseRecords maxLen n lo x = some rs ↔ rs.length = n ∧ x = recordBytes rs ∧ RecordsOk maxLen lo rs := by
  induction n generalizing lo x rs with
  | zero =>
    cases x with
    | nil =>
      simp only [parseRecords, Option.some.injEq]
      constructor
      · rintro rfl; exact ⟨rfl, rfl, .nil _ _⟩
      · rintro ⟨h, -, -⟩; exact (List.length_eq_zero_iff.1 h).symm
    | cons v vs =>
      simp only [parseRecords, reduceCtorEq, false_iff, not_and]
      intro h h'
      rw [List.length_eq_zero_iff.1 h] at h'
      cases h'
  | succ n ih =>
    match x with
    | [] =>
      simp only [parseRecords, reduceCtorEq, false_iff, not_and]
      rintro h h'
      match rs, h with
      | r :: rs, _ => simp [recordBytes, tableRecord] at h'
    | [v] =>
      simp only [parseRecords, reduceCtorEq, false_iff, not_and]
      rintro h h'
      match rs, h with
      | r :: rs, _ => simp [recordBytes, tableRecord] at h'
    | s :: l :: rest =>
      simp only [parseRecords]
      constructor
      · intro h
        split at h; · cases h
        split at h; · cases h
        split at h; · cases h
        split at h; · cases h
        next h1 h2 h3 h4 =>
          split at h; · cases h
          next rs' hrs =>
            cases h
            obtain ⟨hn, hx, hok⟩ := ih.1 hrs
            have hul : (rest.take (ceilDiv l.toNat 8)).length = ceilDiv l.toNat 8 := by
              rw [List.length_take]; omega
            have hbl : ((unpackMsb (rest.take (ceilDiv l.toNat 8))).take l.toNat).length = l.toNat := by
              rw [List.length_take, length_unpackMsb, hul, ceilDiv]; omega
            refine ⟨by simp [hn], ?_, RecordsOk.cons.2 ⟨by omega, ?_, by omega, hok⟩⟩
            · rw [recordBytes_cons, ← hx, hbl, packPadded_take hul (by simpa using h4)]
              simp
            · intro h0; rw [h0] at hbl; simp at hbl; omega
      · rintro ⟨hn, hx, hok⟩
        match rs, hn with
        | (y, b) :: rs, hn =>
          obtain ⟨h1, h2, h3, h4⟩ := RecordsOk.cons.1 hok
          rw [recordBytes_cons] at hx
          simp only [List.cons.injEq] at hx
          obtain ⟨rfl, rfl, rfl⟩ := hx
          have hbl : 0 < b.length := List.length_pos_iff.2 h2
          have hl : (BitVec.ofNat 8 b.length).toNat = b.length := by
            rw [BitVec.toNat_ofNat]; omega
          have ht : (packPadded b ++ recordBytes rs).take (ceilDiv b.length 8) = packPadded b :=
            List.take_left' (by simp)
          have hd : (packPadded b ++ recordBytes rs).drop (ceilDiv b.length 8) = recordBytes rs :=
            List.drop_left' (by simp)
          have hp := ih.2 ⟨by simpa using hn, rfl, h4⟩
          obtain ⟨hu1, hu2⟩ := unpacked_record b
          rw [hl, if_neg (by omega), if_neg (by omega), if_neg (by simp), ht, hd, hp, hu1, hu2]
          rfl

theorem parseTable_error {maxLen : Nat} {x : List Byte} {e : ErrCode} (h : parseTable maxLen x = .error e) :
    e = .invalidTable := by
  cases x with
  | nil => cases h; rfl
  | cons b rest =>
    simp only [parseTable] at h
    split at h
    · cases h; rfl
    · split at h <;> cases h; rfl

/-! ### Ascending lists of codewords -/

theorem eq_of_ascending {l l' : List (Byte × Bits)} (h : l.Pairwise fun p q => p.1.toNat < q.1.toNat)
    (h' : l'.Pairwise fun p q => p.1.toNat < q.1.toNat) (hm : ∀ p, p ∈ l ↔ p ∈ l') : l = l' := by
  have nd : ∀ {l : List (Byte × Bits)}, (l.Pairwise fun p q => p.1.toNat < q.1.toNat) → l.Nodup :=
    fun h => h.imp fun hpq e => by subst e; exact lt_irrefl _ hpq
  have hp : l.Perm l' := (List.perm_ext_iff_of_nodup (nd h) (nd h')).2 hm
  refine hp.eq_of_pairwise ?_ h h'
  intro a b _ _ hab hba
  omega

/-- In an ascending list, each pair is what a lookup of its symbol gives. -/
theorem lookup_of_mem_ascending {l : List (Byte × Bits)} (h : l.Pairwise fun p q => p.1.toNat < q.1.toNat) {x : Byte}
    {b : Bits} (hm : (x, b) ∈ l) : l.lookup x = some b := by
  induction l with
  | nil => cases hm
  | cons p l ih =>
    obtain ⟨y, c⟩ := p
    obtain ⟨hy, hl⟩ := List.pairwise_cons.1 h
    rcases List.mem_cons.1 hm with e | hm
    · cases e; simp
    · have hlt := hy _ hm
      have hne : (x == y) = false := by
        rw [beq_eq_false_iff_ne]; rintro rfl; exact lt_irrefl _ hlt
      rw [List.lookup_cons, hne]
      exact ih hl hm

/-- A table made of good records has those records as its codewords. -/
theorem codewords_codeTableOf {maxLen lo : Nat} {rs : List (Byte × Bits)} (h : RecordsOk maxLen lo rs) :
    codewords (codeTableOf rs) = rs := by
  refine eq_of_ascending (codewords_ascending _) h.ascending fun p => ?_
  obtain ⟨x, b⟩ := p
  rw [mem_codewords]
  constructor
  · rintro ⟨h1, hne⟩
    have h1 : bitsAt (codeTableOf rs) x = b := h1
    rw [← h1]
    exact mem_of_bitsAt_codeTableOf (by rw [h1]; exact hne)
  · intro hm
    refine ⟨?_, (h.lengths _ hm).1⟩
    simp [lookup_of_mem_ascending h.ascending hm]

theorem recordsOk_codewords {t : CodeTable} {maxLen : Nat} (h : LengthsAtMost t maxLen) :
    RecordsOk maxLen 0 (codewords t) := by
  refine ⟨codewords_ascending t, fun _ _ => Nat.zero_le _, fun p hp => ?_⟩
  obtain ⟨h1, h2⟩ := mem_codewords.1 hp
  exact ⟨h2, h1 ▸ h p.1⟩

theorem codewords_ne_nil {t : CodeTable} (h : ∃ x : Byte, bitsAt t x ≠ []) : codewords t ≠ [] := by
  obtain ⟨x, hx⟩ := h
  exact List.ne_nil_of_mem (mem_codewords.2 ⟨rfl, hx⟩ : (x, bitsAt t x) ∈ codewords t)

/-- The first byte of a serialized table counts its records (R107). -/
theorem count_byte {t : CodeTable} (h : ∃ x : Byte, bitsAt t x ≠ []) :
    (BitVec.ofNat 8 ((codewords t).length - 1)).toNat + 1 = (codewords t).length := by
  have h1 := length_codewords_le t
  have h2 := List.length_pos_iff.2 (codewords_ne_nil h)
  rw [BitVec.toNat_ofNat]; omega

/-- At most one record per symbol, so at most 256 records. -/
theorem length_records_le {rs : List (Byte × Bits)} (h : rs.Pairwise fun p q => p.1.toNat < q.1.toNat) :
    rs.length ≤ 256 := by
  have hn : (rs.map Prod.fst).Nodup := by
    refine List.Pairwise.map _ ?_ h
    intro a b hab e
    rw [e] at hab
    exact lt_irrefl _ hab
  have hs : (rs.map Prod.fst).Subperm allSymbols := List.subperm_of_subset hn fun x _ => mem_allSymbols x
  simpa using hs.length_le

theorem at256_codeTableOf_mem {rs : List (Byte × Bits)} (h : rs.Pairwise fun p q => p.1.toNat < q.1.toNat) {x : Byte}
    {b : Bits} (hm : (x, b) ∈ rs) : at256 (codeTableOf rs) x = .word b := by
  rw [at256_codeTableOf, lookup_of_mem_ascending h hm]
  rfl

theorem at256_codeTableOf_known (rs : List (Byte × Bits)) (x : Byte) : at256 (codeTableOf rs) x ≠ .unspec := by
  rw [at256_codeTableOf]
  simp

/-- What the parser accepts, byte for byte (R107, R151, R152). -/
theorem parseTable_eq_ok_iff {maxLen : Nat} (hm : maxLen ≤ 255) {x : List Byte} {t : CodeTable} :
    parseTable maxLen x = .ok t ↔
      ∃ rs, rs ≠ [] ∧ RecordsOk maxLen 0 rs ∧ x = BitVec.ofNat 8 (rs.length - 1) :: recordBytes rs ∧
        t = codeTableOf rs ∧ PrefixFree t := by
  cases x with
  | nil => simp [parseTable]
  | cons b rest =>
    simp only [parseTable]
    constructor
    · intro h
      split at h
      · cases h
      next rs hrs =>
        obtain ⟨h1, h2, h3⟩ := (parseRecords_eq_some_iff hm).1 hrs
        split at h
        next hp =>
          cases h
          refine ⟨rs, ?_, h3, ?_, rfl, prefixFree_iff.1 hp⟩
          · rintro rfl; simp at h1
          · rw [h1, h2]; simp
        · cases h
    · rintro ⟨rs, hne, hok, hx, rfl, hp⟩
      obtain ⟨rfl, rfl⟩ := List.cons.inj hx
      have hl := length_records_le hok.ascending
      have hpos := List.length_pos_iff.2 hne
      have hr : parseRecords maxLen ((BitVec.ofNat 8 (rs.length - 1)).toNat + 1) 0 (recordBytes rs) = some rs := by
        rw [parseRecords_eq_some_iff hm]
        refine ⟨?_, rfl, hok⟩
        rw [BitVec.toNat_ofNat]; omega
      rw [hr]
      simp [prefixFree_iff.2 hp]

/-- Records none of whose codewords is a prefix of another's make a prefix-free table, and conversely. -/
theorem prefixFree_codeTableOf {maxLen : Nat} {rs : List (Byte × Bits)} (hok : RecordsOk maxLen 0 rs) :
    PrefixFree (codeTableOf rs) ↔ ∀ p ∈ rs, ∀ q ∈ rs, p.1 ≠ q.1 → ¬ p.2 <+: q.2 := by
  have hb : ∀ p ∈ rs, bitsAt (codeTableOf rs) p.1 = p.2 := fun p hp =>
    bitsAt_of_word (at256_codeTableOf_mem hok.ascending hp)
  constructor
  · intro h p hp q hq hne
    have := h p.1 q.1 hne (by rw [hb p hp]; exact (hok.lengths p hp).1) (by rw [hb q hq]; exact (hok.lengths q hq).1)
    rwa [hb p hp, hb q hq] at this
  · intro h x y hne hx hy
    exact h _ (mem_of_bitsAt_codeTableOf hx) _ (mem_of_bitsAt_codeTableOf hy) hne

/-- The parser accepts exactly the serializations of well-formed tables (R109, R151, R152), and gives their table. -/
theorem parseTable_eq_ok_iff_serialized {maxLen : Nat} (hm : maxLen ≤ 255) {x : List Byte} {t : CodeTable} :
    parseTable maxLen x = .ok t ↔ ∃ rs, SerializedTable maxLen rs x ∧ t = codeTableOf rs := by
  rw [parseTable_eq_ok_iff hm]
  constructor
  · rintro ⟨rs, hne, hok, hx, rfl, hp⟩
    exact ⟨rs, ⟨hne, hok.ascending, hok.lengths, (prefixFree_codeTableOf hok).1 hp, hx⟩, rfl⟩
  · rintro ⟨rs, h, rfl⟩
    have hok : RecordsOk maxLen 0 rs := ⟨h.ascending, fun _ _ => Nat.zero_le _, h.lengths⟩
    exact ⟨rs, h.someRecord, hok, h.bytes, rfl, (prefixFree_codeTableOf hok).2 h.prefixes⟩

/-- The table of well-formed records satisfies R43, if it is prefix-free. -/
theorem tableInv_codeTableOf {maxLen : Nat} {rs : List (Byte × Bits)} (hne : rs ≠ []) (hok : RecordsOk maxLen 0 rs)
    (hp : PrefixFree (codeTableOf rs)) : TableInv (codeTableOf rs) maxLen where
  known := at256_codeTableOf_known rs
  someCodeword := by
    obtain ⟨p, hp⟩ := List.exists_mem_of_ne_nil _ hne
    exact ⟨p.1, by rw [bitsAt_of_word (at256_codeTableOf_mem hok.ascending hp)]; exact (hok.lengths p hp).1⟩
  lengths := by
    intro x
    by_cases hx : bitsAt (codeTableOf rs) x = []
    · rw [hx]; exact Nat.zero_le _
    · exact (hok.lengths _ (mem_of_bitsAt_codeTableOf hx)).2
  prefixes := hp

theorem length_recordBytes_le {rs : List (Byte × Bits)} (h : ∀ p ∈ rs, p.2.length ≤ 255) :
    (recordBytes rs).length ≤ 34 * rs.length := by
  induction rs with
  | nil => simp [recordBytes]
  | cons p rs ih =>
    obtain ⟨x, b⟩ := p
    have h1 := h _ List.mem_cons_self
    have h2 := ih fun q hq => h q (List.mem_cons_of_mem _ hq)
    simp only [recordBytes_cons, List.length_cons, List.length_append, length_packPadded, ceilDiv] at *
    omega

/-- The largest serialized table (R8, R108). -/
theorem length_serializeTable_le {t : CodeTable} (h : LengthsAtMost t 255) : (serializeTable t).length ≤ 8705 := by
  have h1 := length_codewords_le t
  have h2 : (recordBytes (codewords t)).length ≤ 34 * (codewords t).length :=
    length_recordBytes_le fun p hp => by rw [← (mem_codewords.1 hp).1]; exact h p.1
  show (recordBytes (codewords t)).length + 1 ≤ 8705
  omega

end Sys2Proof.Machine
end

