-- ==== Sys2Proof/Laws/Stream.lean ====
section
/-! SUPPORT. What the stream functions do: packing (R161), unpacking (R166) and the greedy decode (R177). -/

namespace Sys2Proof.Machine

/-! ### Packing -/

@[simp] theorem codeBits_nil (t : CodeTable) : codeBits t [] = [] := rfl

@[simp] theorem codeBits_cons (t : CodeTable) (x : Byte) (xs : List Byte) :
    codeBits t (x :: xs) = bitsAt t x ++ codeBits t xs := rfl

@[simp] theorem length_streamOf_bytes (bits : Bits) : (streamOf bits).bytes.length = 1 + ceilDiv bits.length 8 := by
  simp [streamOf, Nat.add_comm]

@[simp] theorem streamOf_bits (bits : Bits) : (streamOf bits).bits = bits.length := rfl

@[simp] theorem streamOf_pad (bits : Bits) : (streamOf bits).pad = padCount bits.length := rfl

/-- Everything `pack_stream` can answer (R161): the stream of the codewords, when every input byte has one and the
stream fits; else the first of the two errors. -/
theorem packStream_cases (t : CodeTable) (size : Nat) (x : List Byte) :
    (packStream t size x = .error .unmappedSymbol ∧ ∃ b ∈ x, bitsAt t b = []) ∨
    (packStream t size x = .error .outputOverflow ∧ (∀ b ∈ x, bitsAt t b ≠ []) ∧
      size < 1 + ceilDiv (codeBits t x).length 8) ∨
    (packStream t size x = .ok (streamOf (codeBits t x)) ∧ (∀ b ∈ x, bitsAt t b ≠ []) ∧
      1 + ceilDiv (codeBits t x).length 8 ≤ size) := by
  simp only [packStream, add_padCount_div]
  split
  next h =>
    obtain ⟨b, hb, h⟩ := List.any_eq_true.1 h
    exact .inl ⟨rfl, b, hb, by simpa [isMapped] using h⟩
  next h =>
    have hall : ∀ b ∈ x, bitsAt t b ≠ [] := by
      intro b hb h0
      exact h (List.any_eq_true.2 ⟨b, hb, by simp [isMapped, h0]⟩)
    split
    next h => exact .inr (.inl ⟨rfl, hall, h⟩)
    next h => exact .inr (.inr ⟨rfl, hall, by omega⟩)

/-! ### Unpacking -/

/-- `unpack_stream` accepts exactly the streams of R101. -/
theorem unpackStream_ok_iff {x : List Byte} {pad : Nat} {bits : Bits} :
    unpackStream x = .ok (pad, bits) ↔
      ∃ h payload, x = h :: payload ∧ h.toNat ≤ 7 ∧ (payload = [] → h.toNat = 0) ∧ pad = h.toNat ∧
        bits = (unpackMsb payload).take (8 * payload.length - h.toNat) := by
  cases x with
  | nil => simp [unpackStream]
  | cons h payload =>
    simp only [unpackStream, List.cons.injEq]
    split
    · constructor
      · intro e; cases e
      · rintro ⟨h', p', ⟨rfl, rfl⟩, h7, -⟩; omega
    · split
      next hp =>
        constructor
        · intro e; cases e
        · rintro ⟨h', p', ⟨rfl, rfl⟩, -, h0, -⟩
          have := h0 (List.isEmpty_iff.1 hp.1); omega
      next h7 hp =>
        constructor
        · intro e
          cases e
          refine ⟨h, payload, ⟨rfl, rfl⟩, by omega, fun hnil => ?_, rfl, rfl⟩
          simp only [List.isEmpty_iff, not_and] at hp
          have := hp hnil; omega
        · rintro ⟨h', p', ⟨rfl, rfl⟩, -, -, rfl, rfl⟩; rfl

/-- Every other stream is TRUNCATED_STREAM (R166). -/
theorem unpackStream_error {x : List Byte} {e : ErrCode} (h : unpackStream x = .error e) : e = .truncatedStream := by
  cases x with
  | nil => cases h; rfl
  | cons b payload =>
    simp only [unpackStream] at h
    split at h
    · cases h; rfl
    · split at h <;> cases h; rfl

/-- The stripped bits, filled with zeros again, are whole bytes, as many as the payload has (R165). -/
theorem length_unpackStream {x : List Byte} {pad : Nat} {bits : Bits} (h : unpackStream x = .ok (pad, bits)) :
    pad ≤ 7 ∧ bits.length + pad = 8 * (x.length - 1) := by
  obtain ⟨b, payload, rfl, h7, h0, rfl, rfl⟩ := unpackStream_ok_iff.1 h
  refine ⟨h7, ?_⟩
  simp only [List.length_take, length_unpackMsb, List.length_cons, Nat.add_sub_cancel]
  cases payload with
  | nil => simp [h0 rfl]
  | cons c cs => simp only [List.length_cons]; omega

/-! ### Decoding -/

/-- What the greedy decode emits is the input's bits cut into codewords. -/
theorem decodeFrom_sound {t : CodeTable} {acc bits : Bits} {ys : List Byte} (h : decodeFrom t acc bits = some ys) :
    codeBits t ys = acc ++ bits ∧ ∀ y ∈ ys, bitsAt t y ≠ [] := by
  induction bits generalizing acc ys with
  | nil =>
    simp only [decodeFrom, List.isEmpty_iff] at h
    split at h
    · cases h; simp_all
    · cases h
  | cons b bs ih =>
    simp only [decodeFrom] at h
    split at h
    · obtain ⟨h1, h2⟩ := ih h
      exact ⟨by simpa using h1, h2⟩
    next x hx =>
      split at h
      · cases h
      next zs hz =>
        cases h
        obtain ⟨h1, h2⟩ := ih hz
        obtain ⟨hc, hne⟩ := symbolOf_some hx
        refine ⟨by simp [h1, hc], fun y hy => ?_⟩
        rcases List.mem_cons.1 hy with rfl | hy
        · rw [hc]; exact hne
        · exact h2 y hy

/-- In a prefix-free table, the rest of a codeword completes it and nothing earlier does. -/
theorem decodeFrom_codeword {t : CodeTable} (ht : PrefixFree t) {x : Byte} (r : Bits) {acc : Bits} (rest : Bits)
    (hr : r ≠ []) (hx : bitsAt t x = acc ++ r) :
    decodeFrom t acc (r ++ rest) = (decodeFrom t [] rest).map (x :: ·) := by
  induction r generalizing acc with
  | nil => exact absurd rfl hr
  | cons b r ih =>
    simp only [List.cons_append, decodeFrom]
    by_cases hr' : r = []
    · subst hr'
      have hne : bitsAt t x ≠ [] := by simp [hx]
      rw [← hx, symbolOf_bitsAt ht hne]
      simp only [List.nil_append]
      cases decodeFrom t [] rest <;> rfl
    · have hnone : symbolOf t (acc ++ [b]) = none := by
        cases hs : symbolOf t (acc ++ [b]) with
        | none => rfl
        | some y =>
          exfalso
          obtain ⟨hy, hne⟩ := symbolOf_some hs
          have hp : bitsAt t y <+: bitsAt t x := ⟨r, by rw [hy, hx]; simp⟩
          refine ht y x (fun e => hr' ?_) (hy ▸ hne) (by simp [hx]) hp
          subst e
          have hl := congrArg List.length (hy.symm.trans hx)
          simp only [List.length_append, List.length_cons, List.length_nil] at hl
          exact List.length_eq_zero_iff.1 (by omega)
      rw [hnone]
      exact ih hr' (by simp [hx])

/-- The greedy decode inverts the concatenation of codewords of a prefix-free table (R102, R177). -/
theorem decodeBits_eq_some_iff {t : CodeTable} (ht : PrefixFree t) {bits : Bits} {ys : List Byte} :
    decodeBits t bits = some ys ↔ codeBits t ys = bits ∧ ∀ y ∈ ys, bitsAt t y ≠ [] := by
  constructor
  · intro h
    simpa using decodeFrom_sound h
  · rintro ⟨rfl, h⟩
    rw [decodeBits]
    induction ys with
    | nil => rfl
    | cons y ys ih =>
      rw [codeBits_cons, decodeFrom_codeword ht _ _ (h y (by simp)) rfl,
        ih fun z hz => h z (List.mem_cons_of_mem _ hz)]
      rfl

/-- The unpacker gives back the bits of a stream (R167). -/
theorem unpackStream_streamOf (bits : Bits) :
    unpackStream (streamOf bits).bytes = .ok (padCount bits.length, bits) := by
  have h7 := padCount_le bits.length
  have hpad : (BitVec.ofNat 8 (padCount bits.length)).toNat = padCount bits.length := by
    rw [BitVec.toNat_ofNat]; omega
  refine unpackStream_ok_iff.2 ⟨_, _, rfl, by rw [hpad]; exact h7, ?_, hpad.symm, ?_⟩
  · intro e
    have hl := congrArg List.length e
    rw [length_packPadded, List.length_nil, ceilDiv] at hl
    rw [hpad, padCount]; omega
  · rw [hpad, unpackMsb_packPadded, length_packPadded]
    have hb : 8 * ceilDiv bits.length 8 - padCount bits.length = bits.length := by unfold ceilDiv padCount; omega
    rw [hb]; simp

/-- The three conditions of R101 and R166. -/
theorem unpackStream_truncated {x : List Byte}
    (h : x = [] ∨ ∃ b payload, x = b :: payload ∧ (7 < b.toNat ∨ (payload = [] ∧ 0 < b.toNat))) :
    unpackStream x = .error .truncatedStream := by
  cases hu : unpackStream x with
  | error e => rw [unpackStream_error hu]
  | ok p =>
    obtain ⟨pad, bits⟩ := p
    obtain ⟨b, pl, rfl, h7, h0, -⟩ := unpackStream_ok_iff.1 hu
    rcases h with h | ⟨c, pl', e, h | ⟨h1, h2⟩⟩
    · cases h
    · cases e; omega
    · cases e; have := h0 h1; omega

end Sys2Proof.Machine
end

