-- ==== Sys2Proof/Laws/Commands.lean ====
section
/-! SUPPORT. What completion does (R203 to R205), once for all commands, and every outcome of each command's body: the
first error its pseudocode reaches (R208), or the state its rule writes. -/

namespace Sys2Proof.Machine

/-! ### Failure (R205) -/

/-- Every entry of an arena whose entries are all Unspec is Unspec, at any index. -/
@[simp] theorem entry_unspec (r n : BitVec 9) (i : Nat) :
    Arena.entry { entries := Vector.replicate 511 .unspec, root := r, nodes := n } i = .unspec := by
  simp only [Arena.entry, Vector.toList_replicate, List.getD_eq_getElem?_getD, List.getElem?_replicate]
  split <;> rfl

/-- The failure effects, and the frame of what is no target (R205). -/
theorem fail_effects (s : State) (g : Targets) (e : ErrCode) : FailureEffects s (s.fail g e) g := by
  obtain ⟨f, n, c, o⟩ := g
  constructor <;> cases f <;> cases n <;> cases c <;> cases o <;>
    simp [State.fail, State.spoil, SpoiledFreq, SpoiledTree, SpoiledTable, SpoiledOutput, SameFreq, SameTree,
      SameTable, SameOutput]

theorem fail_completed (s : State) (g : Targets) (e : ErrCode) : Completed s (s.fail g e) := by
  obtain ⟨f, n, c, o⟩ := g
  constructor <;> cases f <;> cases n <;> cases c <;> cases o <;> simp [State.fail, State.spoil]

theorem fail_failedWith (s : State) (g : Targets) (e : ErrCode) : FailedWith (s.fail g e) e := by
  simp [FailedWith, State.fail]

theorem fail_noTargets (s : State) (e : ErrCode) : s.fail noTargets e = s.recordError e := rfl

/-! ### Success (R204) -/

theorem complete_succeeded (s : State) : Succeeded s.complete := by simp [Succeeded]

/-- What a completion answers, once for all commands (R203). -/
theorem finish_cases (s : State) (g : Targets) (r : Except ErrCode State) :
    (∃ s', r = .ok s' ∧ s.finish g r = s'.complete) ∨ (∃ e, r = .error e ∧ s.finish g r = s.fail g e) := by
  cases r with
  | ok s' => exact .inl ⟨s', rfl, rfl⟩
  | error e => exact .inr ⟨e, rfl, rfl⟩

@[simp] theorem finish_ok (s s' : State) (g : Targets) : s.finish g (.ok s') = s'.complete := rfl

@[simp] theorem finish_error (s : State) (g : Targets) (e : ErrCode) : s.finish g (.error e) = s.fail g e := rfl

/-- The body of a command: the state its rule writes, or the first error its pseudocode reaches (R208). -/
def bodyOf : Instr → State → Except ErrCode State
  | .nop => .ok
  | .freq => freqCommand
  | .buildTree => buildTreeCommand
  | .genCodes => genCodesCommand
  | .pack => packCommand
  | .unpack => unpackCommand
  | .compress => compressCommand
  | .decompress => decompressCommand
  | .saveTable => saveTableCommand
  | .loadTable => loadTableCommand
  | .clear => fun s => .ok s.clearTables

/-- Every command is its body, completed (R203). -/
theorem exec_eq_finish (i : Instr) (s : State) : exec i s = .next (s.finish (targetsOf i) (bodyOf i s)) := by
  cases i <;> rfl

theorem exec_of_ok {i : Instr} {s s' : State} (h : bodyOf i s = .ok s') : exec i s = .next s'.complete := by
  rw [exec_eq_finish, h, finish_ok]

theorem exec_of_error {i : Instr} {s : State} {e : ErrCode} (h : bodyOf i s = .error e) :
    exec i s = .next (s.fail (targetsOf i) e) := by
  rw [exec_eq_finish, h, finish_error]

/-- Everything a command's next state can be. -/
theorem exec_next_cases {i : Instr} {s t : State} (h : exec i s = .next t) :
    (∃ s', bodyOf i s = .ok s' ∧ t = s'.complete) ∨ (∃ e, bodyOf i s = .error e ∧ t = s.fail (targetsOf i) e) := by
  rw [exec_eq_finish] at h
  cases h
  exact (finish_cases s (targetsOf i) (bodyOf i s))

/-- The constraints of R7. -/
theorem params_bounds {p : Params} (h : p.wellFormed = true) :
    8705 ≤ p.inBufSize ∧ p.inBufSize ≤ 2 ^ 28 ∧ 8705 ≤ p.outBufSize ∧ p.outBufSize ≤ 2 ^ 28 ∧ 1 ≤ p.maxCodeLen ∧
      p.maxCodeLen ≤ 255 := by
  simp only [Params.wellFormed, Params.sizeOk, Bool.and_eq_true, decide_eq_true_eq] at h
  omega

/-! ### The outcomes of each body -/

theorem inputTooLong_iff {s : State} : s.inputTooLong = true ↔ s.params.inBufSize < s.inLen.toNat := by
  simp [State.inputTooLong]

theorem freqCommand_cases (s : State) :
    (freqCommand s = .error .inputTooLong ∧ s.params.inBufSize < s.inLen.toNat) ∨
    (freqCommand s = .ok (s.setFreq (countBytes s.input)) ∧ s.inLen.toNat ≤ s.params.inBufSize) := by
  simp only [freqCommand, inputTooLong_iff]
  split
  next h => exact .inl ⟨rfl, h⟩
  next h => exact .inr ⟨rfl, by omega⟩

theorem buildTreeCommand_cases (s : State) :
    (buildTreeCommand s = .error .sequenceError ∧ s.valid.freq = false) ∨
    (buildTreeCommand s = .error .emptyAlphabet ∧ s.valid.freq = true ∧ presentCounts s.freq.all = []) ∨
    (buildTreeCommand s = .ok (s.setTree (finishedBuild s.freq.all).arena) ∧ s.valid.freq = true ∧
      presentCounts s.freq.all ≠ []) := by
  simp only [buildTreeCommand]
  split
  next h =>
    simp only [buildTree, List.isEmpty_iff]
    by_cases hp : presentCounts s.freq.all = []
    · rw [if_pos hp]; exact .inr (.inl ⟨rfl, h, hp⟩)
    · rw [if_neg hp]; exact .inr (.inr ⟨rfl, h, hp⟩)
  next h => exact .inl ⟨rfl, by simpa using h⟩

theorem genCodesCommand_cases (s : State) :
    (genCodesCommand s = .error .sequenceError ∧ s.valid.tree = false) ∨
    (genCodesCommand s = .error .codeTooLong ∧ s.valid.tree = true ∧
      ¬ LengthsAtMost (genCodes s.arena) s.params.maxCodeLen) ∨
    (genCodesCommand s = .ok (s.setCode (genCodes s.arena)) ∧ s.valid.tree = true ∧
      LengthsAtMost (genCodes s.arena) s.params.maxCodeLen) := by
  simp only [genCodesCommand, ← anyCodeLonger_eq_false]
  split
  next h =>
    split
    next hl => exact .inr (.inl ⟨rfl, h, by simp [hl]⟩)
    next hl => exact .inr (.inr ⟨rfl, h, by simpa using hl⟩)
  next h => exact .inl ⟨rfl, by simpa using h⟩

theorem saveTableCommand_cases (s : State) :
    (saveTableCommand s = .error .sequenceError ∧ s.valid.table = false) ∨
    (saveTableCommand s = .error .outputOverflow ∧ s.valid.table = true ∧
      s.params.outBufSize < (serializeTable s.code).length) ∨
    (saveTableCommand s = .ok (s.putOutput (serializeTable s.code) 0 0) ∧ s.valid.table = true ∧
      (serializeTable s.code).length ≤ s.params.outBufSize) := by
  simp only [saveTableCommand]
  split
  next h =>
    split
    next hl => exact .inr (.inl ⟨rfl, h, hl⟩)
    next hl => exact .inr (.inr ⟨rfl, h, by omega⟩)
  next h => exact .inl ⟨rfl, by simpa using h⟩

theorem loadTableCommand_cases (s : State) :
    (loadTableCommand s = .error .inputTooLong ∧ s.params.inBufSize < s.inLen.toNat) ∨
    (loadTableCommand s = .error .invalidTable ∧ s.inLen.toNat ≤ s.params.inBufSize ∧
      ∀ t, parseTable s.params.maxCodeLen s.input ≠ .ok t) ∨
    (∃ t, loadTableCommand s = .ok (s.setCode t) ∧ s.inLen.toNat ≤ s.params.inBufSize ∧
      parseTable s.params.maxCodeLen s.input = .ok t) := by
  simp only [loadTableCommand, inputTooLong_iff]
  split
  next h => exact .inl ⟨rfl, h⟩
  next h =>
    cases hp : parseTable s.params.maxCodeLen s.input with
    | error e =>
      obtain rfl := parseTable_error hp
      exact .inr (.inl ⟨rfl, by omega, by simp⟩)
    | ok t => exact .inr (.inr ⟨t, rfl, by omega, rfl⟩)

theorem packCommand_cases (s : State) :
    (packCommand s = .error .inputTooLong ∧ s.params.inBufSize < s.inLen.toNat) ∨
    (packCommand s = .error .sequenceError ∧ s.inLen.toNat ≤ s.params.inBufSize ∧ s.valid.table = false) ∨
    (s.inLen.toNat ≤ s.params.inBufSize ∧ s.valid.table = true ∧
      ((packCommand s = .error .unmappedSymbol ∧ ∃ b ∈ s.input, bitsAt s.code b = []) ∨
       (packCommand s = .error .outputOverflow ∧ (∀ b ∈ s.input, bitsAt s.code b ≠ []) ∧
          s.params.outBufSize < 1 + ceilDiv (codeBits s.code s.input).length 8) ∨
       (packCommand s =
          .ok (s.putOutput (streamOf (codeBits s.code s.input)).bytes (padCount (codeBits s.code s.input).length)
            (codeBits s.code s.input).length) ∧
          (∀ b ∈ s.input, bitsAt s.code b ≠ []) ∧
          1 + ceilDiv (codeBits s.code s.input).length 8 ≤ s.params.outBufSize))) := by
  simp only [packCommand, inputTooLong_iff]
  split
  next h => exact .inl ⟨rfl, h⟩
  next h =>
    split
    next hv =>
      refine .inr (.inr ⟨by omega, hv, ?_⟩)
      rcases packStream_cases s.code s.params.outBufSize s.input with ⟨h1, h2⟩ | ⟨h1, h2⟩ | ⟨h1, h2⟩ <;> rw [h1]
      · exact .inl ⟨rfl, h2⟩
      · exact .inr (.inl ⟨rfl, h2⟩)
      · exact .inr (.inr ⟨rfl, h2⟩)
    next hv => exact .inr (.inl ⟨rfl, by omega, by simpa using hv⟩)

theorem unpackCommand_cases (s : State) :
    (unpackCommand s = .error .inputTooLong ∧ s.params.inBufSize < s.inLen.toNat) ∨
    (unpackCommand s = .error .truncatedStream ∧ s.inLen.toNat ≤ s.params.inBufSize ∧
      unpackStream s.input = .error .truncatedStream) ∨
    (∃ pad bits, unpackStream s.input = .ok (pad, bits) ∧ s.inLen.toNat ≤ s.params.inBufSize ∧
      ((unpackCommand s = .error .outputOverflow ∧ s.params.outBufSize < s.inLen.toNat - 1) ∨
       (unpackCommand s = .ok (s.putOutput (packMsb (bits ++ zeros pad)) pad bits.length) ∧
          s.inLen.toNat - 1 ≤ s.params.outBufSize))) := by
  simp only [unpackCommand, inputTooLong_iff]
  split
  next h => exact .inl ⟨rfl, h⟩
  next h =>
    cases hu : unpackStream s.input with
    | error e =>
      obtain rfl := unpackStream_error hu
      exact .inr (.inl ⟨rfl, by omega, rfl⟩)
    | ok p =>
      obtain ⟨pad, bits⟩ := p
      obtain ⟨-, hl⟩ := length_unpackStream hu
      rw [State.length_input] at hl
      have hlen : (packMsb (bits ++ zeros pad)).length = s.inLen.toNat - 1 := by
        rw [length_packMsb] <;> simp <;> omega
      refine .inr (.inr ⟨pad, bits, rfl, by omega, ?_⟩)
      simp only [hlen]
      split
      next ho => exact .inl ⟨rfl, ho⟩
      next ho => exact .inr ⟨rfl, by omega⟩

theorem decompressCommand_cases (s : State) :
    (decompressCommand s = .error .inputTooLong ∧ s.params.inBufSize < s.inLen.toNat) ∨
    (decompressCommand s = .error .sequenceError ∧ s.inLen.toNat ≤ s.params.inBufSize ∧ s.valid.table = false) ∨
    (s.inLen.toNat ≤ s.params.inBufSize ∧ s.valid.table = true ∧
      ((decompressCommand s = .error .truncatedStream ∧ unpackStream s.input = .error .truncatedStream) ∨
       ∃ pad bits, unpackStream s.input = .ok (pad, bits) ∧
        ((decompressCommand s = .error .undecodableStream ∧ decodeBits s.code bits = none) ∨
         ∃ ys, decodeBits s.code bits = some ys ∧
          ((decompressCommand s = .error .outputOverflow ∧ s.params.outBufSize < ys.length) ∨
           (decompressCommand s = .ok (s.putOutput ys pad bits.length) ∧ ys.length ≤ s.params.outBufSize))))) := by
  simp only [decompressCommand, inputTooLong_iff]
  split
  next h => exact .inl ⟨rfl, h⟩
  next h =>
    split
    next hv =>
      refine .inr (.inr ⟨by omega, hv, ?_⟩)
      cases hu : unpackStream s.input with
      | error e =>
        obtain rfl := unpackStream_error hu
        exact .inl ⟨rfl, rfl⟩
      | ok p =>
        obtain ⟨pad, bits⟩ := p
        refine .inr ⟨pad, bits, rfl, ?_⟩
        dsimp only
        cases hd : decodeBits s.code bits with
        | none => exact .inl ⟨rfl, rfl⟩
        | some ys =>
          refine .inr ⟨ys, rfl, ?_⟩
          dsimp only
          split
          next ho => exact .inl ⟨rfl, ho⟩
          next ho => exact .inr ⟨rfl, by omega⟩
    next hv => exact .inr (.inl ⟨rfl, by omega, by simpa using hv⟩)

/-- What the tree stage of COMPRESS makes of a non-empty input (R178 (a)). -/
theorem buildTree_countBytes {x : List Byte} (hx : x ≠ []) (h : x.length < 2 ^ 32) :
    buildTree (countBytes x) = .ok (treeFor x) ∧ Built (countBytes x) (treeFor x) := by
  rcases buildTree_cases (c := countBytes x) (by rw [total_countBytes h]; exact h) with ⟨-, h0⟩ | ⟨h1, -, h2⟩
  · obtain ⟨b, hb⟩ := List.exists_mem_of_ne_nil x hx
    have := mem_presentCounts_countBytes h hb
    rw [h0] at this; cases this
  · exact ⟨h1, h2⟩

/-- Every byte of the input has a codeword in the table COMPRESS makes of it (R178 (b)). -/
theorem codesFor_mapped {x : List Byte} (h : x.length < 2 ^ 32) {b : Byte} (hb : b ∈ x) :
    bitsAt (codesFor x) b ≠ [] := by
  have hbuilt := (buildTree_countBytes (List.ne_nil_of_mem hb) h).2
  obtain ⟨i, hi, he⟩ := List.getElem_of_mem (mem_presentCounts_countBytes h hb)
  have hl := hbuilt.leaves i hi
  rw [he] at hl
  exact hbuilt.tree.genCodes_leaf hbuilt.oneParent hi hl

theorem compressStages_cases (p : Params) {x : List Byte} (hx : x ≠ []) (h : x.length < 2 ^ 32) :
    (compressStages p x = .error .codeTooLong ∧ ¬ LengthsAtMost (codesFor x) p.maxCodeLen) ∨
    (LengthsAtMost (codesFor x) p.maxCodeLen ∧
      ((compressStages p x = .error .outputOverflow ∧
          p.outBufSize < 1 + ceilDiv (codeBits (codesFor x) x).length 8) ∨
       (compressStages p x =
          .ok { counts := countBytes x, tree := treeFor x, table := codesFor x,
                stream := streamOf (codeBits (codesFor x) x) } ∧
          1 + ceilDiv (codeBits (codesFor x) x).length 8 ≤ p.outBufSize))) := by
  simp only [compressStages, (buildTree_countBytes hx h).1, ← anyCodeLonger_eq_false]
  split
  next hl => exact .inl ⟨rfl, by simp [codesFor, hl]⟩
  next hl =>
    refine .inr ⟨by simpa [codesFor] using hl, ?_⟩
    rcases packStream_cases (codesFor x) p.outBufSize x with ⟨-, b, hb, h0⟩ | ⟨h1, -, h2⟩ | ⟨h1, -, h2⟩
    · exact absurd h0 (codesFor_mapped h hb)
    · exact .inl ⟨by simp only [codesFor] at h1; rw [h1], h2⟩
    · exact .inr ⟨by simp only [codesFor] at h1; rw [h1], h2⟩

theorem input_ne_nil {s : State} : s.input ≠ [] ↔ s.inLen ≠ 0#32 := by
  rw [← List.length_pos_iff, State.length_input, Nat.pos_iff_ne_zero, Ne, Ne, not_iff_not]
  exact ⟨fun h => BitVec.eq_of_toNat_eq (by simpa using h), fun h => by rw [h]; rfl⟩

theorem length_input_lt (s : State) : s.input.length < 2 ^ 32 := by
  rw [State.length_input]; exact s.inLen.isLt

theorem compressCommand_cases (s : State) :
    (compressCommand s = .error .inputTooLong ∧ s.params.inBufSize < s.inLen.toNat) ∨
    (compressCommand s = .error .emptyInput ∧ s.inLen.toNat ≤ s.params.inBufSize ∧ s.inLen = 0#32) ∨
    (s.inLen.toNat ≤ s.params.inBufSize ∧ s.inLen ≠ 0#32 ∧
      ((compressCommand s = .error .codeTooLong ∧ ¬ LengthsAtMost (codesFor s.input) s.params.maxCodeLen) ∨
       (LengthsAtMost (codesFor s.input) s.params.maxCodeLen ∧
        ((compressCommand s = .error .outputOverflow ∧
            s.params.outBufSize < 1 + ceilDiv (codeBits (codesFor s.input) s.input).length 8) ∨
         (compressCommand s =
            .ok ((((s.setFreq (countBytes s.input)).setTree (treeFor s.input)).setCode (codesFor s.input)).putOutput
              (streamOf (codeBits (codesFor s.input) s.input)).bytes
              (padCount (codeBits (codesFor s.input) s.input).length)
              (codeBits (codesFor s.input) s.input).length) ∧
            1 + ceilDiv (codeBits (codesFor s.input) s.input).length 8 ≤ s.params.outBufSize))))) := by
  simp only [compressCommand, inputTooLong_iff]
  split
  next h => exact .inl ⟨rfl, h⟩
  next h =>
    split
    next h0 => exact .inr (.inl ⟨rfl, by omega, h0⟩)
    next h0 =>
      refine .inr (.inr ⟨by omega, h0, ?_⟩)
      rcases compressStages_cases s.params (input_ne_nil.2 h0) (length_input_lt s) with
        ⟨h1, h2⟩ | ⟨h2, ⟨h1, h3⟩ | ⟨h1, h3⟩⟩ <;> rw [h1]
      · exact .inl ⟨rfl, h2⟩
      · exact .inr ⟨h2, .inl ⟨rfl, h3⟩⟩
      · exact .inr ⟨h2, .inr ⟨rfl, h3⟩⟩

/-! ### Output commands -/

/-- An output that fits OUT_BUF is written inside it (R66) and leaves the bytes at OUT_LEN and above (R204). -/
theorem putOutput_keeps (s : State) {bytes : List Byte} (pad bits : Nat) (hl : bytes.length ≤ s.params.outBufSize) :
    (s.outBuf.within s.params.outBufSize → (s.putOutput bytes pad bits).outBuf.within s.params.outBufSize) ∧
    (s.params.wellFormed = true → ∀ a, (s.putOutput bytes pad bits).outLen.toNat ≤ a →
      (s.putOutput bytes pad bits).outBuf.read a = s.outBuf.read a) := by
  constructor
  · exact Memory.writeBytes_within (by rw [Nat.zero_add]; exact hl)
  · intro hw a ha
    have hp := params_bounds hw
    rw [State.putOutput_outLen, BitVec.toNat_ofNat, Nat.mod_eq_of_lt (by omega)] at ha
    rw [State.putOutput_outBuf]
    exact Memory.read_writeBytes_outside (.inr (by omega))

/-- What an output command leaves in OUT_BUF and its registers (R160, R204). -/
theorem putOutput_output (s : State) {bytes : List Byte} {pad bits : Nat} (hp : pad ≤ 7) (hb : bits < 2 ^ 32)
    (hl : bytes.length < 2 ^ 32) : Output s (s.putOutput bytes pad bits).complete bytes pad bits where
  outLen := by simp only [State.complete_outLen, State.putOutput_outLen, BitVec.toNat_ofNat, Nat.mod_eq_of_lt hl]
  written := by
    simp only [State.complete_outBuf, State.putOutput_outBuf, Memory.readBytes_writeBytes]
  above := by
    intro a ha
    simp only [State.complete_outBuf, State.putOutput_outBuf]
    exact Memory.read_writeBytes_outside (.inr (by omega))
  pad := by simp only [State.complete_pad, State.putOutput_pad, BitVec.toNat_ofNat]; omega
  bitLen := by simp only [State.complete_bitLen, State.putOutput_bitLen, BitVec.toNat_ofNat, Nat.mod_eq_of_lt hb]

/-- With the sizes of R7, SAVE_TABLE of a valid table never overflows (R8). -/
theorem saveTableCommand_ok {s : State} (hw : s.params.wellFormed = true) (hl : LengthsAtMost s.code s.params.maxCodeLen)
    (hv : s.valid.table = true) :
    saveTableCommand s = .ok (s.putOutput (serializeTable s.code) 0 0) ∧ (serializeTable s.code).length ≤ 8705 := by
  have hb := params_bounds hw
  have h8705 : (serializeTable s.code).length ≤ 8705 :=
    length_serializeTable_le fun x => (hl x).trans hb.2.2.2.2.2
  rcases saveTableCommand_cases s with ⟨-, h⟩ | ⟨-, -, h⟩ | ⟨h, -⟩
  · rw [hv] at h; cases h
  · omega
  · exact ⟨h, h8705⟩

end Sys2Proof.Machine
end

