-- ==== Sys2Proof/Laws/PerInstr.lean ====
section
/-! SUPPORT. Statements per command, over its syntax: the word of every row of R92 is well formed and decodes back to
that row, and the opcode table's numbering of its bits gives the same. -/

namespace Sys2Proof.Laws.EncodeRoundTrip

/-- The word of a command is well formed (R91, R92), decodes to it (R93), and is read as it from the table's bits. -/
def Statement (i : Instr) : Prop :=
  i.wellFormed = true ∧ CmdWord.wellFormed (encode i) = true ∧ decode (encode i) = .ok i ∧
    decodeTableWord 32 (encode i).toNat = some i

theorem nop : Statement .nop := by unfold Statement; decide
theorem freq : Statement .freq := by unfold Statement; decide
theorem buildTree : Statement .buildTree := by unfold Statement; decide
theorem genCodes : Statement .genCodes := by unfold Statement; decide
theorem pack : Statement .pack := by unfold Statement; decide
theorem unpack : Statement .unpack := by unfold Statement; decide
theorem compress : Statement .compress := by unfold Statement; decide
theorem decompress : Statement .decompress := by unfold Statement; decide
theorem saveTable : Statement .saveTable := by unfold Statement; decide
theorem loadTable : Statement .loadTable := by unfold Statement; decide
theorem clear : Statement .clear := by unfold Statement; decide

end Sys2Proof.Laws.EncodeRoundTrip
end

