-- ==== Sys2Proof/Laws/Port.lean ====
section
/-! SUPPORT. The register map by offset, everything a host access can do, and everything a step can do, each said
once. -/

namespace Sys2Proof.Machine

/-! ### The register map (R21) -/

theorem regAt_eq_windowAt {off : Nat} (h : 0x3C ≤ off) : regAt off = windowAt off := by
  unfold regAt
  split <;> first | omega | rfl

theorem regAt_reserved {off : Nat}
    (h : (0x03C ≤ off ∧ off < 0x400) ∨ (0xC00 ≤ off ∧ off < 0x1000) ∨ (0x3000 ≤ off ∧ off < 0x4000) ∨ 0x4FF8 ≤ off) :
    regAt off = .reserved := by
  rw [regAt_eq_windowAt (by omega)]
  unfold windowAt
  repeat' split
  all_goals first | rfl | omega

theorem regAt_freq {off : Nat} (h : 0x400 ≤ off) (h' : off < 0x800) :
    regAt off = .freq (BitVec.ofNat 8 ((off - 0x400) / 4)) := by
  rw [regAt_eq_windowAt (by omega), windowAt, if_neg (by omega), if_pos h']

theorem regAt_codeLen {off : Nat} (h : 0x800 ≤ off) (h' : off < 0xC00) :
    regAt off = .codeLen (BitVec.ofNat 8 ((off - 0x800) / 4)) := by
  rw [regAt_eq_windowAt (by omega), windowAt, if_neg (by omega), if_neg (by omega), if_pos h']

theorem regAt_codeBits {off : Nat} (h : 0x1000 ≤ off) (h' : off < 0x3000) :
    regAt off = .codeBits (BitVec.ofNat 8 ((off - 0x1000) / 32)) ((off - 0x1000) % 32 / 4) := by
  rw [regAt_eq_windowAt (by omega), windowAt, if_neg (by omega), if_neg (by omega), if_neg (by omega), if_neg (by omega),
    if_pos h']

theorem regAt_node {off : Nat} (h : 0x4000 ≤ off) (h' : off < 0x4FF8) :
    regAt off = if (off - 0x4000) % 8 < 4 then .node0 ((off - 0x4000) / 8) else .node1 ((off - 0x4000) / 8) := by
  rw [regAt_eq_windowAt (by omega), windowAt, if_neg (by omega), if_neg (by omega), if_neg (by omega), if_neg (by omega),
    if_neg (by omega), if_neg (by omega), if_pos h']

/-- The registers a write changes stand at four offsets (R25 to R28); everywhere else a write is ignored (R45). -/
theorem writeReg_ignored (s : State) (off : Nat) (v : Word) (h1 : off ≠ 0x004) (h2 : off ≠ 0x008) (h3 : off ≠ 0x00C)
    (h4 : off ≠ 0x010) : s.writeReg (regAt off) v = s := by
  unfold regAt
  split
  any_goals first | omega | rfl
  unfold windowAt
  repeat' split
  all_goals rfl

/-! ### Host accesses (R63, R64, R81) -/

/-- What makes an access well formed, as propositions. -/
theorem Txn.wellFormed_iff {p : Params} {t : Txn} :
    t.wellFormed p = true ↔ t.widthFits = true ∧ t.aligned = true ∧ t.inside p = true := by
  simp [Txn.wellFormed, and_assoc]

/-- Everything a host access can answer. -/
theorem hostAccess_cases (t : Txn) (s : State) :
    (t.outsideApertures = true ∧ hostAccess t s = .refused .outsideApertures) ∨
    (t.outsideApertures = false ∧ t.wellFormed s.params = false ∧ ∃ why, hostAccess t s = .fault (.busError why)) ∨
    (t.wellFormed s.params = true ∧ hostAccess t s = .next (s.perform t)) := by
  unfold hostAccess Txn.wellFormed
  cases h0 : t.outsideApertures
  · cases h1 : t.widthFits
    · exact .inr (.inl ⟨rfl, rfl, _, rfl⟩)
    · cases h2 : t.aligned
      · exact .inr (.inl ⟨rfl, rfl, _, rfl⟩)
      · cases h3 : t.inside s.params
        · exact .inr (.inl ⟨rfl, rfl, _, rfl⟩)
        · exact .inr (.inr ⟨rfl, rfl⟩)
  · exact .inl ⟨rfl, rfl⟩

/-- A well-formed access lies in an aperture. -/
theorem Txn.wellFormed_inApertures {p : Params} {t : Txn} (h : t.wellFormed p = true) : t.outsideApertures = false := by
  obtain ⟨hw, -, hi⟩ := Txn.wellFormed_iff.1 h
  unfold Txn.outsideApertures
  cases hs : t.space with
  | reg =>
    simp only [Txn.widthFits, Txn.inside, Params.spaceBytes, hs, beq_iff_eq, decide_eq_true_eq] at hw hi
    simp only [decide_eq_false_iff_not]
    omega
  | inBuf => rfl
  | outBuf => rfl

theorem hostAccess_wellFormed {t : Txn} {s : State} (h : t.wellFormed s.params = true) :
    hostAccess t s = .next (s.perform t) := by
  rcases hostAccess_cases t s with ⟨h0, -⟩ | ⟨-, h1, -⟩ | ⟨-, h2⟩
  · rw [Txn.wellFormed_inApertures h] at h0; cases h0
  · rw [h] at h1; cases h1
  · exact h2

theorem hostAccess_next {t : Txn} {s s' : State} (h : hostAccess t s = .next s') :
    t.wellFormed s.params = true ∧ s' = s.perform t := by
  rcases hostAccess_cases t s with ⟨-, h1⟩ | ⟨-, -, why, h1⟩ | ⟨hw, h1⟩ <;> rw [h1] at h <;> cases h
  exact ⟨hw, rfl⟩

/-- A 32-bit access at a multiple of 4 below 0x8000 is well formed. -/
theorem regTxn_wellFormed (p : Params) (d : Dir) {off : Nat} (h4 : off % 4 = 0) (h : off < 0x8000) :
    Txn.wellFormed p { dir := d, space := .reg, offset := off, width := 4 } = true := by
  refine Txn.wellFormed_iff.2 ⟨rfl, by simp [Txn.aligned, h4], ?_⟩
  exact decide_eq_true (show off + 4 ≤ 0x8000 by omega)

/-- A register read out of reset. -/
theorem hostAccess_regRead {s : State} {off : Nat} (hr : s.rstLow = false) (h4 : off % 4 = 0) (h : off < 0x8000) :
    hostAccess { dir := .read, space := .reg, offset := off, width := 4 } s =
      .next (s.answerRead (s.readReg (regAt off))) := by
  rw [hostAccess_wellFormed (regTxn_wellFormed _ _ h4 h)]
  simp [State.perform, hr, State.readValue]

/-- A register write out of reset. -/
theorem hostAccess_regWrite {s : State} {off : Nat} {v : Word} (hr : s.rstLow = false) (h4 : off % 4 = 0)
    (h : off < 0x8000) :
    hostAccess { dir := .write v, space := .reg, offset := off, width := 4 } s =
      .next (s.writeReg (regAt off) v).answerWrite := by
  rw [hostAccess_wellFormed (regTxn_wellFormed _ _ h4 h)]
  simp [State.perform, hr, State.writeValue]

/-! ### The phase (R22) -/

theorem busy_of_idle {s : State} (h : s.phase = .idle) : s.busy = false := by simp only [State.busy, h]

theorem busy_iff {s : State} : s.busy = true ↔ ∃ w, s.phase = .busy w := by
  unfold State.busy
  cases s.phase <;> simp

/-! ### What a well-formed access does, out of reset -/

theorem perform_read {s : State} {t : Txn} (hr : s.rstLow = false) (hd : t.dir = .read) :
    s.perform t = s.answerRead (s.readValue t) := by
  simp [State.perform, hd, hr]

theorem perform_write {s : State} {t : Txn} {v : Word} (hr : s.rstLow = false) (hd : t.dir = .write v) :
    s.perform t = (s.writeValue t v).answerWrite := by
  simp [State.perform, hd, hr]

theorem writeValue_busy {s : State} {t : Txn} (v : Word) (hb : s.busy = true) (hs : t.space ≠ .reg) :
    s.writeValue t v = s := by
  unfold State.writeValue
  cases ht : t.space <;> simp_all

theorem writeValue_inBuf {s : State} {t : Txn} (v : Word) (hb : s.busy = false) (hs : t.space = .inBuf) :
    s.writeValue t v = { s with inBuf := s.inBuf.writeBytes t.offset (bytesOfWord t.width v) } := by
  simp only [State.writeValue, hs, hb, Bool.false_eq_true, if_false]

theorem writeValue_outBuf {s : State} {t : Txn} (v : Word) (hb : s.busy = false) (hs : t.space = .outBuf) :
    s.writeValue t v = { s with outBuf := s.outBuf.writeBytes t.offset (bytesOfWord t.width v) } := by
  simp only [State.writeValue, hs, hb, Bool.false_eq_true, if_false]

@[simp] theorem length_bytesOfWord (width : Nat) (v : Word) : (bytesOfWord width v).length = width := by
  simp [bytesOfWord]

@[simp] theorem getElem_bytesOfWord (width : Nat) (v : Word) (k : Nat) (h : k < (bytesOfWord width v).length) :
    (bytesOfWord width v)[k] = v.extractLsb' (8 * k) 8 := by
  simp [bytesOfWord]

/-! ### Words and bytes (R64) -/

theorem foldr_bytes_lt (l : List Byte) : l.foldr (fun b acc => b.toNat + 2 ^ 8 * acc) 0 < 2 ^ (8 * l.length) := by
  induction l with
  | nil => exact Nat.one_pos
  | cons b l ih =>
    have := b.isLt
    rw [List.foldr_cons, List.length_cons, Nat.mul_add, Nat.mul_one, Nat.pow_add]
    omega

theorem foldr_bytes_digit (l : List Byte) (k : Nat) (h : k < l.length) :
    l.foldr (fun b acc => b.toNat + 2 ^ 8 * acc) 0 / 2 ^ (8 * k) % 2 ^ 8 = l[k].toNat := by
  induction l generalizing k with
  | nil => cases h
  | cons b l ih =>
    have := b.isLt
    rw [List.foldr_cons]
    cases k with
    | zero =>
      rw [Nat.mul_zero, Nat.pow_zero, Nat.div_one, Nat.add_mul_mod_self_left, List.getElem_cons_zero,
        Nat.mod_eq_of_lt this]
    | succ k =>
      rw [Nat.mul_add, Nat.mul_one, Nat.add_comm, Nat.add_comm (8 * k) 8, Nat.pow_add, ← Nat.div_div_eq_div_mul,
        Nat.mul_add_div (by decide), Nat.div_eq_of_lt this, Nat.add_zero, List.getElem_cons_succ]
      exact ih k (by simpa using h)

/-- A little-endian word, byte by byte (R64). -/
theorem extract_wordOfBytes {l : List Byte} (hl : l.length ≤ 4) (k : Nat) (h : k < l.length) :
    (wordOfBytes l).extractLsb' (8 * k) 8 = l[k] := by
  apply BitVec.eq_of_toNat_eq
  rw [BitVec.extractLsb'_toNat, wordOfBytes, BitVec.toNat_ofNat, Nat.shiftRight_eq_div_pow,
    Nat.mod_eq_of_lt (lt_of_lt_of_le (foldr_bytes_lt l) (Nat.pow_le_pow_right (by decide) (by omega)))]
  exact foldr_bytes_digit l k h

theorem wordOfBytes_lt (l : List Byte) : (wordOfBytes l).toNat < 2 ^ (8 * l.length) := by
  rw [wordOfBytes, BitVec.toNat_ofNat]
  exact lt_of_le_of_lt (Nat.mod_le _ _) (foldr_bytes_lt l)
/-- Each bit of the value of a list of bits, first bit most significant (R41). -/
theorem testBit_bitsValue (bits : Bits) (acc j : Nat) (hj : j < bits.length) :
    (bits.foldl (fun acc b => 2 * acc + bitVal b 1) acc).testBit (bits.length - 1 - j) = bits.getD j false := by
  induction bits generalizing acc j with
  | nil => cases hj
  | cons b bs ih =>
    rw [List.foldl_cons, List.length_cons]
    cases j with
    | zero =>
      have key : ∀ (l : Bits) (a : Nat), l.foldl (fun acc b => 2 * acc + bitVal b 1) a / 2 ^ l.length = a := by
        intro l
        induction l with
        | nil => intro a; simp
        | cons c l ih2 =>
          intro a
          rw [List.foldl_cons, List.length_cons, Nat.pow_succ, ← Nat.div_div_eq_div_mul, ih2]
          unfold bitVal
          split <;> omega
      rw [Nat.testBit_eq_decide_div_mod_eq, Nat.add_sub_cancel, Nat.sub_zero, key]
      cases b <;> simp [bitVal]
    | succ j =>
      have h := ih (2 * acc + bitVal b 1) j (by simpa using hj)
      rw [show bs.length + 1 - 1 - (j + 1) = bs.length - 1 - j by omega, h]
      rfl

/-! ### Reads -/

/-- A register the engine's results stand in, or another: the value of a read (R75). -/
theorem readReg_shown {s : State} {r : RegSel} (h : s.busy = false ∨ r.hiddenWhileBusy = false) :
    s.readReg r = s.regValue r := by
  rcases h with h | h <;> simp [State.readReg, h]

theorem readReg_hidden {s : State} {r : RegSel} (hb : s.busy = true) (h : r.hiddenWhileBusy = true) :
    s.readReg r = none := by
  simp [State.readReg, hb, h]

/-! ### STATUS (R26) -/

theorem statusWord_fields (s : State) :
    s.statusWord.getLsbD 0 = s.busy ∧ s.statusWord.getLsbD 1 = s.status.done ∧ s.statusWord.getLsbD 2 = s.status.err ∧
      s.statusWord.getLsbD 3 = s.status.overrun ∧ s.statusWord.extractLsb' 8 8 = s.status.errCode.toByte := by
  unfold State.statusWord
  cases s.busy <;> cases s.status.done <;> cases s.status.err <;> cases s.status.overrun <;> cases s.status.errCode <;>
    decide

/-! ### Steps (R17, R22, R212) -/

theorem step_nil {s : State} (h : s.inputs = []) : step s = engineStep s := by
  simp only [step, advance, h]

theorem step_cons {s : State} {e : HostEvent} {rest : List HostEvent} (h : s.inputs = e :: rest) :
    step s = eventStep e { s with inputs := rest } := by
  simp only [step, advance, h]

/-- Everything the engine's transition can do. -/
theorem engineStep_cases (s : State) :
    engineStep s = .next s ∨
    (∃ w, s.rstLow = false ∧ s.phase = .busy w ∧
      ((∃ i, decode w = .ok i ∧ engineStep s = exec i s) ∨ engineStep s = .next s.illegalWord)) := by
  unfold engineStep
  cases hr : s.rstLow
  · cases hp : s.phase with
    | idle => exact .inl rfl
    | busy w =>
      refine .inr ⟨w, rfl, rfl, ?_⟩
      cases hd : decode w with
      | ok i => exact .inl ⟨i, rfl, by simp [hd]⟩
      | error e => exact .inr (by simp [hd])
  · exact .inl rfl

theorem run_succ {s t : State} (h : step s = .next t) (k : Nat) : core.run (k + 1) s = core.run k t := by
  simp only [Host.Core.run, show core.step s = .next t from h]

@[simp] theorem run_zero (s : State) : core.run 0 s = .next s := rfl

end Sys2Proof.Machine
end

