-- ==== Sys2Proof/Tests/Slice0.lean ====
section
/-! SUPPORT. Tests and witnesses. Expected results of the tests come from 95_test_vectors.md (the vector is named at
each) or from the encodings of R92. A theorem `witness_<Name>` shows a concrete state and operands that meet the
hypotheses of the obligation of that name, each clause at boundary values. -/

namespace Sys2Proof.Tests

-- One theorem at a time: the checks by kernel evaluation below wait for one another, and each that waits holds a thread.
set_option Elab.async false

open Sys2Proof Sys2Proof.Machine

/-! ### Well-formedness: each check refuses an ill-formed term -/

theorem test_wf_instr : Instr.wellFormed .clear = true := by decide
theorem test_wf_reserved_bit : CmdWord.reservedClear 0x00000100#32 = false := by decide
theorem test_wf_reserved_top : CmdWord.wellFormed 0x80000000#32 = false := by decide
theorem test_wf_opcode : CmdWord.opcodeAssigned 0x0000000B#32 = false := by decide
theorem test_wf_word : CmdWord.wellFormed 0x0000000A#32 = true := by decide

/-- A read of `width` bytes at an offset of a space. -/
def rd (space : Space) (offset width : Nat) : Txn := { dir := .read, space := space, offset := offset, width := width }

/-- A write of `width` bytes at an offset of a space. -/
def wr (space : Space) (offset width : Nat) (v : Word) : Txn :=
  { dir := .write v, space := space, offset := offset, width := width }

theorem test_wf_register_width : (rd .reg 8 2).widthFits = false := by decide
theorem test_wf_buffer_width : (rd .inBuf 0 3).widthOk = false := by decide
theorem test_wf_aligned : (rd .inBuf 2 4).aligned = false := by decide
theorem test_wf_inside : (rd .outBuf 8704 2).inside Params.standard = false := by decide
theorem test_wf_access : (rd .outBuf 8704 1).wellFormed Params.standard = true := by decide
theorem test_wf_size_low : Params.sizeOk 8704 = false := by decide
theorem test_wf_size_high : Params.sizeOk (2 ^ 28 + 1) = false := by decide
theorem test_wf_code_len : ({ Params.standard with maxCodeLen := 0 }).wellFormed = false := by decide
theorem test_wf_code_len_high : ({ Params.standard with maxCodeLen := 256 }).wellFormed = false := by decide
theorem test_wf_bases : ({ Params.standard with inBase := 0x40007FFF }).wellFormed = false := by decide
theorem test_wf_params : Params.standard.wellFormed = true := by decide

/-! ### Decoding: each word of R92 written out bit by bit -/

theorem test_decode_nop : decode 0b00000000000000000000000000000000#32 = .ok .nop := by decide
theorem test_decode_freq : decode 0b00000000000000000000000000000001#32 = .ok .freq := by decide
theorem test_decode_buildTree : decode 0b00000000000000000000000000000010#32 = .ok .buildTree := by decide
theorem test_decode_genCodes : decode 0b00000000000000000000000000000011#32 = .ok .genCodes := by decide
theorem test_decode_pack : decode 0b00000000000000000000000000000100#32 = .ok .pack := by decide
theorem test_decode_unpack : decode 0b00000000000000000000000000000101#32 = .ok .unpack := by decide
theorem test_decode_compress : decode 0b00000000000000000000000000000110#32 = .ok .compress := by decide
theorem test_decode_decompress : decode 0b00000000000000000000000000000111#32 = .ok .decompress := by decide
theorem test_decode_saveTable : decode 0b00000000000000000000000000001000#32 = .ok .saveTable := by decide
theorem test_decode_loadTable : decode 0b00000000000000000000000000001001#32 = .ok .loadTable := by decide
theorem test_decode_clear : decode 0b00000000000000000000000000001010#32 = .ok .clear := by decide
theorem test_decode_illegal :
    decode 0x0000000B#32 = .error .opcodeUnassigned ∧ decode 0x000000FF#32 = .error .opcodeUnassigned ∧
      decode 0x00000100#32 = .error .reservedBitSet := by decide
theorem test_decodeTableWord : decodeTableWord 32 0x0A = some .clear ∧ decodeTableWord 32 0x0B = none := by decide

/-! ### One command on a small state -/

/-- A state with the given bytes in IN_BUF and their number in IN_LEN. -/
def loaded (s : State) (bytes : List Byte) : State :=
  { s with inBuf := s.inBuf.writeBytes 0 bytes, inLen := BitVec.ofNat 32 bytes.length }

/-- The reset state with the given bytes in IN_BUF. -/
abbrev fresh (bytes : List Byte) : State := loaded State.reset bytes

/-- The command answers a next state that passes the check. -/
def after (i : Instr) (s : State) (check : State → Bool) : Bool :=
  match exec i s with
  | .next t => check t
  | .fault _ => false
  | .refused _ => false

/-- The state with this code table as the current one (TABLE_VALID = 1). -/
def withCodes (rs : List (Byte × Bits)) (s : State) : State := s.setCode (codeTableOf rs)

/-- {a: "0", b: "11", c: "10"}, the table of the vectors. -/
def abc : List (Byte × Bits) := [(0x61#8, [false]), (0x62#8, [true, true]), (0x63#8, [true, false])]

/-- "aaabbc" in ASCII. -/
def aaabbc : List Byte := [0x61, 0x61, 0x61, 0x62, 0x62, 0x63]

/-- OUT_BUF[0 .. OUT_LEN). -/
def outBytes (s : State) : List Byte := s.outBuf.readBytes 0 s.outLen.toNat

/-- V-K1. -/
theorem test_nop :
    after .nop { State.reset with status := { done := true, err := true, overrun := false, errCode := .undecodableStream } }
      (fun t => t.statusWord == 0x2#32) = true := by decide

/-- V-K2, on a loaded table. -/
theorem test_clear :
    after .clear (withCodes abc { fresh aaabbc with outLen := 3#32 })
      (fun t => t.validWord == 0#32 && t.readReg (regAt 0x984) == some 0#32 && t.readReg (regAt 0x584) == some 0#32 &&
        t.readReg (regAt 0x4004) == some 0#32 && t.outLen == 0#32 && t.inLen == 6#32) = true := by decide +kernel

/-- V-F1. -/
theorem test_freq_counts :
    after .freq (fresh aaabbc)
      (fun t => t.freq.countOf 0x61 == 3#32 && t.freq.countOf 0x62 == 2#32 && t.freq.countOf 0x63 == 1#32 &&
        t.freq.countOf 0x64 == 0#32 && t.validWord == 1#32 && t.statusWord == 2#32) = true := by decide +kernel

/-- V-F5: STATUS 0x1206, FREQ_VALID 0. -/
theorem test_freq_too_long :
    after .freq { State.reset with inLen := 8706#32 } (fun t => t.statusWord == 0x1206#32 && t.validWord == 0#32) = true := by
  decide

/-- V-B4: a leaf and an Internal entry of equal frequency, the leaf first. -/
theorem test_buildTree_tie :
    after .freq (fresh [0x61, 0x62, 0x63, 0x63])
      (fun t => after .buildTree t fun u =>
        u.readReg (regAt 0x4014) == some 0x80000063#32 && u.readReg (regAt 0x4018) == some 2#32 &&
          u.readReg (regAt 0x401C) == some 0x00020000#32 && u.readReg (regAt 0x4024) == some 0x00060200#32 &&
          u.treeInfoWord == 0x00050004#32) = true := by decide +kernel

/-- V-B9. -/
theorem test_buildTree_no_counts :
    after .buildTree State.reset (fun t => t.statusWord == 0x1106#32 && t.validWord == 0#32) = true := by decide

/-- V-G4: a "10", b "11", c "0". -/
theorem test_genCodes :
    after .freq (fresh [0x61, 0x62, 0x63, 0x63])
      (fun t => after .buildTree t fun u => after .genCodes u fun v =>
        bitsAt v.code 0x61 == [true, false] && bitsAt v.code 0x62 == [true, true] && bitsAt v.code 0x63 == [false] &&
          v.nsym == 3 && v.maxLen == 2 && v.readReg (regAt 0x1C20) == some 0x80000000#32) = true := by decide +kernel

/-- V-G12. -/
theorem test_genCodes_no_tree :
    after .genCodes State.reset (fun t => t.statusWord == 0x1106#32 && t.validWord == 0#32) = true := by decide

/-- V-P2. -/
theorem test_pack :
    after .pack (withCodes abc (fresh [0x61, 0x62, 0x63]))
      (fun t => outBytes t == [0x03, 0x70] && t.pad == 3#3 && t.bitLen == 5#32) = true := by decide +kernel

/-- V-P7. -/
theorem test_pack_unmapped :
    after .pack (withCodes abc (fresh [0x61, 0x62, 0x64]))
      (fun t => t.statusWord == 0x1406#32 && t.outLen == 0#32 && t.validWord == 4#32) = true := by decide +kernel

/-- V-U1: the filler bits are cleared. -/
theorem test_unpack :
    after .unpack (fresh [0x03, 0xFF]) (fun t => outBytes t == [0xF8] && t.pad == 3#3 && t.bitLen == 5#32) = true := by
  decide +kernel

/-- V-U7. -/
theorem test_unpack_truncated : after .unpack (fresh [0x01]) (fun t => t.statusWord == 0x306#32) = true := by decide

/-- V-C8: OUT `02 70`, the table {0x00: "10", 0x0A: "0", 0x20: "11"}. -/
theorem test_compress :
    after .compress (fresh [0x0A, 0x20, 0x00, 0x0A])
      (fun t => outBytes t == [0x02, 0x70] && t.pad == 2#3 && t.bitLen == 6#32 && bitsAt t.code 0x00 == [true, false] &&
        bitsAt t.code 0x0A == [false] && bitsAt t.code 0x20 == [true, true] && t.validWord == 7#32 &&
        t.treeInfoWord == 0x00050004#32) = true := by decide +kernel

/-- V-C10. -/
theorem test_compress_empty :
    after .compress (fresh [])
      (fun t => t.statusWord == 0x206#32 && t.validWord == 0#32 && t.outLen == 0#32) = true := by decide

/-- V-D1. -/
theorem test_decompress :
    after .decompress (withCodes abc (fresh [0x07, 0x1F, 0x00]))
      (fun t => outBytes t == aaabbc && t.pad == 7#3 && t.bitLen == 9#32 && t.validWord == 4#32) = true := by decide +kernel

/-- V-D9: the one bit "1" is left. -/
theorem test_decompress_undecodable :
    after .decompress (withCodes abc (fresh [0x07, 0x80])) (fun t => t.statusWord == 0x406#32 && t.outLen == 0#32) = true := by
  decide +kernel

/-- V-T1. -/
theorem test_saveTable :
    after .saveTable (withCodes abc State.reset)
      (fun t => outBytes t == [0x02, 0x61, 0x01, 0x00, 0x62, 0x02, 0xC0, 0x63, 0x02, 0x80] && t.bitLen == 0#32) = true := by
  decide +kernel

/-- V-T8. -/
theorem test_saveTable_no_table : after .saveTable State.reset (fun t => t.statusWord == 0x1106#32) = true := by decide

/-- V-T24: a 9-bit codeword in 2 bytes. -/
theorem test_loadTable :
    after .loadTable (fresh [0x00, 0x41, 0x09, 0xFF, 0x80])
      (fun t => bitsAt t.code 0x41 == List.replicate 9 true && bitsAt t.code 0x42 == [] && t.validWord == 4#32) = true := by
  decide +kernel

/-- V-T12, V-T22, V-T23: a codeword that is a prefix of another, a filler bit set, a trailing byte. -/
theorem test_loadTable_invalid :
    after .loadTable (fresh [0x01, 0x61, 0x01, 0x00, 0x62, 0x02, 0x00]) (fun t => t.statusWord == 0x1506#32) = true ∧
    after .loadTable (fresh [0x00, 0x61, 0x01, 0x40]) (fun t => t.statusWord == 0x1506#32) = true ∧
    after .loadTable (fresh [0x00, 0x61, 0x01, 0x00, 0xFF]) (fun t => t.statusWord == 0x1506#32) = true := by
  decide +kernel

/-! ### One step of the host port and the sequencer -/

/-- The reset state with these inputs pending. -/
def idleWith (es : List HostEvent) : State := { State.reset with inputs := es }

/-- The command word `w` accepted from reset, and these inputs pending. -/
def busyWith (w : Word) (es : List HostEvent) : State := { State.reset.acceptCmd w with inputs := es }

/-- A pending register write. -/
def regWrite (off : Nat) (v : Word) : HostEvent := .access (wr .reg off 4 v)

/-- A pending register read. -/
def regRead (off : Nat) : HostEvent := .access (rd .reg off 4)

/-- The step answers a next state that passes the check. -/
def stepsTo (s : State) (check : State → Bool) : Bool :=
  match step s with
  | .next t => check t
  | .fault _ => false
  | .refused _ => false

/-- V-K4: a reserved bit makes the word illegal, although its OP is NOP's. -/
theorem test_illegal_word :
    stepsTo (busyWith 0x100#32 []) (fun t => t.statusWord == 0x1006#32 && t.cmd == 0x100#32) = true := by decide

/-- V-K6: a command write while Busy sets CMD_OVERRUN and is discarded. -/
theorem test_overrun :
    stepsTo (busyWith 6#32 [regWrite 0x004 1#32]) (fun t => t.statusWord == 0x9#32 && t.cmd == 6#32) = true := by decide

/-- V-K7 and V-K9: W1C of CMD_OVERRUN, and of DONE and ERR, with ERR_CODE kept. -/
theorem test_status_w1c :
    stepsTo { idleWith [regWrite 0x008 8#32] with status := { done := true, err := false, overrun := true, errCode := .none } }
      (fun t => t.statusWord == 0x2#32) = true ∧
    stepsTo { idleWith [regWrite 0x008 6#32] with status := { done := true, err := true, overrun := false, errCode := .emptyInput } }
      (fun t => t.statusWord == 0x200#32 && !t.irq) = true := by decide

/-- V-K8: the interrupt is a level. -/
theorem test_irq_level :
    stepsTo { idleWith [regWrite 0x00C 2#32] with status := { done := true, err := true, overrun := false, errCode := .emptyInput } }
      (fun t => t.irq) = true := by decide

/-- V-K10, V-K11. -/
theorem test_readOnly_and_reserved :
    stepsTo (idleWith [regWrite 0x000 0x12345678#32]) (fun t => t.readReg (regAt 0x000) == some 0x48554631#32) = true ∧
    stepsTo (idleWith [regRead 0x03C]) (fun t => t.resp == .read 0#32) = true := by decide

/-- V-K12, V-K14. -/
theorem test_bus_errors :
    step (idleWith [.access (rd .reg 0x008 2)]) = .fault (.busError .width) ∧
    step (idleWith [.access (wr .inBuf 2 4 0#32)]) = .fault (.busError .misaligned) := ⟨rfl, rfl⟩

/-- V-P2: OUT_LEN, PAD, BIT_LEN and VALID read at their offsets after the command. -/
theorem test_result_registers :
    after .pack (withCodes abc (fresh [0x61, 0x62, 0x63]))
      (fun t => t.readReg (regAt 0x014) == some 2#32 && t.readReg (regAt 0x018) == some 3#32 &&
        t.readReg (regAt 0x01C) == some 5#32 && t.readReg (regAt 0x020) == some 4#32) = true := by decide +kernel

/-- V-K13: a 32-bit write stores its bytes least significant first. -/
theorem test_little_endian :
    stepsTo (idleWith [.access (wr .inBuf 0 4 0x64636261#32)])
      (fun t => t.inBuf.readBytes 0 4 == [0x61, 0x62, 0x63, 0x64]) = true := by decide +kernel

/-- V-K15: a buffer write while Busy is ignored. -/
theorem test_busy_buffer_write :
    stepsTo (busyWith 6#32 [.access (wr .inBuf 0 1 0#32)]) (fun t => t.inBuf == State.reset.inBuf) = true := by decide

/-- R232: reset while Busy leaves no completion. -/
theorem test_reset_abandons :
    stepsTo (busyWith 6#32 [.resetPin false]) (fun t => t.statusWord == 0#32 && t.validWord == 0#32 && t.rstLow) = true := by
  decide

/-- `withFetchWord` places a word where the next step runs it. -/
theorem test_withFetchWord :
    stepsTo (State.reset.withFetchWord 32 0x0A) (fun t => t.statusWord == 2#32 && t.cmd == 0xA#32) = true := by decide

/-! ### Witnesses: states whose tables an input fills, for any input -/

/-- The bytes `x` in IN_BUF. -/
def given (x : List Byte) : State := fresh x

/-- After FREQ. -/
def counted (x : List Byte) : State := ((given x).setFreq (countBytes x)).complete

/-- After BUILD_TREE. -/
def treed (x : List Byte) : State := ((counted x).setTree (treeFor x)).complete

/-- After GEN_CODES. -/
def coded (x : List Byte) : State := ((treed x).setCode (codesFor x)).complete

theorem given_input {x : List Byte} (h : x.length ≤ 8705) : (given x).input = x := by
  have h2 : (BitVec.ofNat 32 x.length).toNat = x.length := by rw [BitVec.toNat_ofNat]; omega
  show Memory.readBytes (State.reset.inBuf.writeBytes 0 x) 0 (BitVec.ofNat 32 x.length).toNat = x
  rw [h2, Memory.readBytes_writeBytes]

/-- The invariant of these states, whatever FREQ, NODE and CODE are in the order of the stages. -/
theorem inv_of_tables {x : List Byte} (hl : x.length ≤ 8705) {s : State} (hp : s.params = Params.standard)
    (hi : s.inBuf = State.reset.inBuf.writeBytes 0 x) (ho : s.outBuf = State.reset.outBuf) (hph : s.phase = .idle)
    (h1 : s.outLen = 0#32) (h2 : s.bitLen = 0#32) (hr : s.rstLow = false)
    (hf : s.valid.freq = true → s.freq = .counts (countBytes x)) (ht : s.valid.tree = true → x ≠ [] ∧ s.arena = treeFor x)
    (hc : (s.code = State.reset.code ∧ s.valid.table = false) ∨ (x ≠ [] ∧ s.code = codesFor x)) : s.Inv where
  params := by rw [hp]; decide
  inBuf := by
    rw [hi, hp]
    exact ⟨Memory.writeBytes_wf _ _ State.reset_wf.1, Memory.writeBytes_within (by rw [Nat.zero_add]; exact hl) (by simp [State.reset, Memory.within])⟩
  outBuf := by rw [ho, hp]; exact ⟨State.reset_wf.2, by simp [State.reset, Memory.within]⟩
  freq := fun h => ⟨_, hf h, by rw [total_countBytes (by omega), hp]; exact hl⟩
  tree := fun h => by
    obtain ⟨hne, ha⟩ := ht h
    have hb := (buildTree_countBytes hne (by omega)).2
    rw [ha]; exact ⟨⟨_, hb.tree⟩, hb.oneParent⟩
  lengths := by
    rw [hp]
    rcases hc with ⟨hc, -⟩ | ⟨hne, hc⟩
    · rw [hc]; intro y; simp [bitsAt, State.reset]
    · rw [hc]; exact (buildTree_countBytes hne (by omega)).2.tree.genCodes_lengths
  table := fun h => by
    rcases hc with ⟨-, hc⟩ | ⟨hne, hc⟩
    · rw [hc] at h; cases h
    · have ht := (buildTree_countBytes hne (by omega)).2.tree
      rw [hc, hp]
      exact ht.genCodes_inv (anyCodeLonger_eq_false.2 ht.genCodes_lengths)
  busy := fun h => by rw [busy_of_idle hph] at h; cases h
  outLen := by rw [h1]; exact Nat.zero_le _
  bitLen := by rw [h2]; exact Nat.zero_le _
  reset := fun h => by rw [hr] at h; cases h

theorem given_inv {x : List Byte} (hl : x.length ≤ 8705) : (given x).Inv :=
  inv_of_tables hl rfl rfl rfl rfl rfl rfl rfl (by intro h; cases h) (by intro h; cases h) (.inl ⟨rfl, rfl⟩)

theorem counted_inv {x : List Byte} (hl : x.length ≤ 8705) : (counted x).Inv :=
  inv_of_tables hl rfl rfl rfl rfl rfl rfl rfl (fun _ => rfl) (by intro h; cases h) (.inl ⟨rfl, rfl⟩)

theorem treed_inv {x : List Byte} (hne : x ≠ []) (hl : x.length ≤ 8705) : (treed x).Inv :=
  inv_of_tables hl rfl rfl rfl rfl rfl rfl rfl (fun _ => rfl) (fun _ => ⟨hne, rfl⟩) (.inl ⟨rfl, rfl⟩)

theorem coded_inv {x : List Byte} (hne : x ≠ []) (hl : x.length ≤ 8705) : (coded x).Inv :=
  inv_of_tables hl rfl rfl rfl rfl rfl rfl rfl (fun _ => rfl) (fun _ => ⟨hne, rfl⟩) (.inr ⟨hne, rfl⟩)

theorem aaabbc_len : aaabbc.length ≤ 8705 := by decide
theorem aaabbc_ne : aaabbc ≠ [] := by decide

/-- The state a command leaves (every command answers a next state). -/
def ran (i : Instr) (s : State) : State := s.finish (targetsOf i) (bodyOf i s)

theorem exec_ran (i : Instr) (s : State) : exec i s = .next (ran i s) := exec_eq_finish i s

theorem abc_inv (bytes : List Byte) (hl : bytes.length ≤ 8705) : (withCodes abc (fresh bytes)).Inv := by
  have hok : RecordsOk 255 0 abc := ⟨by decide, by decide, by decide⟩
  have ht : TableInv (codeTableOf abc) 255 :=
    tableInv_codeTableOf (by decide) hok (prefixFree_iff.1 (by decide +kernel))
  have h := given_inv hl
  exact ⟨h.params, h.inBuf, h.outBuf, fun e => (nomatch e), fun e => (nomatch e), ht.lengths, fun _ => ht, h.busy, h.outLen,
    h.bitLen, fun e => (nomatch e)⟩

/-! ### Witnesses: reset and sequencing -/

theorem witness_ResetPinAbandonsTheCommand :
    (busyWith 6#32 [.resetPin false, .engine]).inputs = .resetPin false :: [.engine] := rfl

/-- Held in reset, with these inputs pending. -/
def heldWith (es : List HostEvent) : State := { State.reset.enterReset with inputs := es }

theorem witness_HeldInResetIgnoresTheHost :
    (heldWith []).rstLow = true ∧ (heldWith []).inputs = [] ∧
    (heldWith [.access (wr .inBuf 8704 1 7#32)]).inputs = .access (wr .inBuf 8704 1 7#32) :: [] ∧
    (wr .inBuf 8704 1 7#32).wellFormed (heldWith []).params = true ∧
    (rd .reg 0x7FFC 4).wellFormed (heldWith []).params = true := by decide

theorem witness_IdleRetainsAllState : State.reset.phase = .idle ∧ State.reset.inputs = [] := ⟨rfl, rfl⟩

theorem witness_StepRunsTheDecodedCommand :
    (idleWith [regRead 8, .engine]).inputs = .access (rd .reg 8 4) :: [.engine] ∧
    (idleWith [.accessAt { dir := .read, addr := 0x60000000, width := 1 }]).inputs =
      .accessAt { dir := .read, addr := 0x60000000, width := 1 } :: [] ∧
    (heldWith [.resetPin true]).inputs = .resetPin true :: [] ∧
    (busyWith 0xA#32 []).rstLow = false ∧ (busyWith 0xA#32 []).phase = .busy 0xA#32 ∧ decode 0xA#32 = .ok .clear ∧
    (busyWith 0xA#32 []).inputs = [] ∧ (busyWith 0xA#32 [.engine, regRead 8]).inputs = .engine :: [regRead 8] := by decide

theorem witness_IllegalWordChangesOnlyStatus :
    (busyWith 0x100#32 []).rstLow = false ∧ (busyWith 0x100#32 []).phase = .busy 0x100#32 ∧
    (busyWith 0x100#32 []).inputs = [] ∧ BitVec.extractLsb' 8 24 0x100#32 ≠ 0#24 ∧
    (busyWith 0xB#32 []).phase = .busy 0xB#32 ∧ 0x0A#8 < BitVec.extractLsb' 0 8 0xB#32 := by decide

/-- IN_LEN above IN_BUF_SIZE, and no table valid: every command but NOP and CLEAR fails. -/
def tooLong : State := { State.reset with inLen := 8706#32 }

theorem witness_FailureSpoilsExactlyTheTargets (i : Instr) (h : i ≠ .nop) (h' : i ≠ .clear) :
    ∃ t, exec i tooLong = .next t ∧ t.status.err = true := by
  refine ⟨_, exec_ran i tooLong, ?_⟩
  revert h h'
  cases i <;> decide

theorem witness_EachCommandReportsOnlyItsErrors :
    ∃ t, exec .compress (fresh []) = .next t ∧ t.status.err = true := ⟨_, exec_ran _ _, by decide⟩

/-- Busy, with `n` reads of STATUS pending. -/
def polled (n : Nat) : State :=
  busyWith 0#32 (List.replicate n (.access { dir := .read, space := .reg, offset := 0x008, width := 4 }))

theorem witness_PollingTheStatusEnds :
    (polled 3).busy = true ∧ (polled 3).rstLow = false ∧
    (polled 3).inputs = List.replicate 3 (.access { dir := .read, space := .reg, offset := 0x008, width := 4 }) :=
  ⟨rfl, rfl, rfl⟩

/-! ### Witnesses: the host port -/

theorem witness_CmdWriteStartsOrOverruns :
    (idleWith [regWrite 4 1#32]).rstLow = false ∧ (idleWith [regWrite 4 1#32]).inputs = regWrite 4 1#32 :: [] ∧
    (idleWith [regWrite 4 1#32]).phase = .idle ∧ (busyWith 6#32 [regWrite 4 1#32]).phase = .busy 6#32 := by decide

theorem witness_ControlRegisterWrites :
    (idleWith [regWrite 0x8 0xE#32]).rstLow = false ∧ (idleWith [regWrite 0x8 0xE#32]).inputs = regWrite 0x8 0xE#32 :: [] ∧
    (idleWith [regWrite 0xC 3#32]).inputs = regWrite 0xC 3#32 :: [] ∧
    (busyWith 6#32 [regWrite 0x10 5#32]).inputs = regWrite 0x10 5#32 :: [] := by decide

theorem witness_ReservedAndReadOnlyIgnoreWrites :
    State.reset.rstLow = false ∧ (busyWith 6#32 []).rstLow = false ∧ (0x7FFC % 4 = 0 ∧ 0x7FFC < 0x8000 ∧ 0x4FF8 ≤ 0x7FFC) ∧
    (0x03C % 4 = 0 ∧ 0x03C < 0x400) ∧ (0xFFC % 4 = 0 ∧ 0xC00 ≤ 0xFFC ∧ 0xFFC < 0x1000) ∧
    BitVec.extractLsb' 1 3 0xFFFFFFF1#32 = 0#3 := by decide

theorem witness_RegisterAccessFaults :
    (rd .reg 0x7FFC 4).space = .reg ∧ (rd .reg 0x7FFC 4).offset < 0x8000 ∧ (rd .reg 0x7FFC 4).width = 4 ∧
    (rd .reg 0x7FFC 4).offset % 4 = 0 ∧ (rd .reg 0x7FFF 4).offset < 0x8000 ∧ (rd .reg 0x7FFF 4).offset % 4 ≠ 0 ∧
    (rd .reg 0x008 2).width ≠ 4 := by decide

theorem witness_BufferAccessFaults :
    ((rd .inBuf 8704 1).space = .inBuf ∧ 8705 = State.reset.params.inBufSize) ∧
    ((rd .outBuf 8702 2).space = .outBuf ∧ 8705 = State.reset.params.outBufSize) ∧
    ((rd .inBuf 8704 1).offset + 1 ≤ 8705) ∧ ¬ ((rd .inBuf 8704 2).offset + 2 ≤ 8705) := by decide

theorem witness_AddressesSelectApertures :
    State.reset.params.wellFormed = true ∧ (0x40007FFC : Nat) = State.reset.params.regBase + 0x7FFC ∧
    (0x50002200 : Nat) = State.reset.params.inBase + 8704 ∧ (0x60002200 : Nat) = State.reset.params.outBase + 8704 ∧
    State.reset.params.regBase + 0x8000 ≤ 0x40008000 ∧ 0x40008000 < State.reset.params.inBase ∧
    0x40008000 < State.reset.params.outBase := by decide

theorem witness_BufferWriteIsLittleEndian :
    (idleWith [.access (wr .inBuf 8700 4 1#32)]).rstLow = false ∧ (idleWith [.access (wr .inBuf 8700 4 1#32)]).phase = .idle ∧
    (wr .inBuf 8700 4 1#32).dir = .write 1#32 ∧ (wr .inBuf 8700 4 1#32).space ≠ .reg ∧
    (wr .inBuf 8700 4 1#32).wellFormed State.reset.params = true ∧
    (wr .outBuf 8704 1 1#32).wellFormed State.reset.params = true ∧
    (idleWith [.access (wr .inBuf 8700 4 1#32)]).inputs = .access (wr .inBuf 8700 4 1#32) :: [] := by decide

theorem witness_BufferReadIsLittleEndian :
    State.reset.rstLow = false ∧ (rd .inBuf 8700 4).dir = .read ∧ (rd .inBuf 8700 4).wellFormed State.reset.params = true ∧
    (rd .outBuf 8704 1).wellFormed State.reset.params = true ∧ (rd .outBuf 8704 1).space = .outBuf ∧
    State.reset.phase = .idle := by decide

theorem witness_ReadsHaveNoSideEffect :
    (rd .reg 0x4000 4).dir = .read ∧ ∃ t, hostAccess (rd .reg 0x4000 4) State.reset = .next t := ⟨rfl, _, rfl⟩

theorem witness_HostCannotDisturbARunningCommand :
    (busyWith 6#32 []).busy = true ∧ ∃ t, hostAccess (wr .inBuf 0 4 1#32) (busyWith 6#32 []) = .next t := ⟨rfl, _, rfl⟩

theorem reset_atReset : State.reset.AtReset :=
  ⟨rfl, rfl, rfl, rfl, rfl, rfl, rfl, rfl, rfl, ⟨0, rfl⟩, entry_unspec _ _, at256_replicate _, rfl, rfl⟩

/-- A state at reset but for a command accepted satisfies the invariant. -/
theorem busy_inv (w : Word) (es : List HostEvent) : (busyWith w es).Inv where
  params := by show Params.standard.wellFormed = true; decide
  inBuf := ⟨State.reset_wf.1, by simp [busyWith, State.reset, State.acceptCmd, Memory.within]⟩
  outBuf := ⟨State.reset_wf.2, by simp [busyWith, State.reset, State.acceptCmd, Memory.within]⟩
  freq := fun h => by cases h
  tree := fun h => by cases h
  lengths := fun x => by simp [bitsAt, busyWith, State.reset, State.acceptCmd]
  table := fun h => by cases h
  busy := fun _ => ⟨rfl, rfl⟩
  outLen := Nat.zero_le _
  bitLen := Nat.zero_le _
  reset := fun h => by cases h

theorem witness_ReadsWhileBusy :
    (busyWith 6#32 []).busy = true ∧ (busyWith 6#32 []).Inv ∧ (busyWith 6#32 []).rstLow = false ∧
    (0x4FF4 % 4 = 0 ∧ 0x4000 ≤ 0x4FF4 ∧ 0x4FF4 < 0x4FF8) ∧ (rd .outBuf 8704 1).dir = .read ∧
    (rd .outBuf 8704 1).wellFormed (busyWith 6#32 []).params = true := ⟨rfl, busy_inv _ _, rfl, by decide, rfl, by decide⟩

/-- Entries of the tree of "aaabbc" (V-B1). -/
theorem treed_entries :
    (treed aaabbc).arena.entry 0 = .leaf 0x61 3#32 ∧ (treed aaabbc).arena.entry 4 = .internal 6#32 0#9 3#9 ∧
    (treed aaabbc).arena.entry 510 = .unspec ∧ (treed aaabbc).arena.root = 4#9 := by decide +kernel

theorem witness_WindowsShowTheTables :
    (coded aaabbc).busy = false ∧ (coded aaabbc).rstLow = false ∧
    (coded aaabbc).readReg (regAt 0x7FFC) = some 0#32 ∧ State.reset.readReg (regAt 0x4FF4) = none ∧
    (coded aaabbc).arena.entry 0 = .leaf 0x61 3#32 ∧
    (coded aaabbc).arena.entry 4 = .internal 6#32 0#9 3#9 ∧ (coded aaabbc).arena.entry 510 = .unspec ∧
    at256 (coded aaabbc).code 0x62 = .word [true, true] ∧ at256 (coded aaabbc).code 0xFF = .word [] ∧
    State.reset.busy = false ∧ State.reset.rstLow = false ∧ at256 State.reset.code 0xFF = .unspec := by decide +kernel

theorem witness_DerivedRegistersDescribeTheTables :
    (coded aaabbc).Inv ∧ (coded aaabbc).valid.table = true ∧ (coded aaabbc).valid.tree = true ∧ State.reset.Inv ∧
    State.reset.valid.table = false ∧ State.reset.valid.tree = false :=
  ⟨coded_inv aaabbc_ne aaabbc_len, rfl, rfl,
    inv_of_tables (x := []) (by decide) rfl rfl rfl rfl rfl rfl rfl (by intro h; cases h) (by intro h; cases h) (.inl ⟨rfl, rfl⟩),
    rfl, rfl⟩

theorem witness_InterruptFollowsCompletion :
    (∃ t, exec .nop State.reset = .next t) ∧
    ((busyWith 0x100#32 []).rstLow = false ∧ (busyWith 0x100#32 []).phase = .busy 0x100#32 ∧
      decode 0x100#32 = .error .reservedBitSet ∧ ∃ t, engineStep (busyWith 0x100#32 []) = .next t) ∧
    State.reset.phase = .idle ∧ State.reset.rstLow = false ∧
    (∃ t, hostAccess { dir := .write 6#32, space := .reg, offset := 0x004, width := 4 } State.reset = .next t) ∧
    (∃ t, hostAccess { dir := .write 6#32, space := .reg, offset := 0x008, width := 4 } State.reset = .next t) ∧
    ∃ t, hostAccess { dir := .write 3#32, space := .reg, offset := 0x00C, width := 4 } (busyWith 6#32 []) = .next t :=
  ⟨⟨_, rfl⟩, ⟨rfl, rfl, by decide, _, rfl⟩, rfl, rfl, ⟨_, rfl⟩, ⟨_, rfl⟩, _, rfl⟩

/-! ### Witnesses: stage commands -/

theorem witness_FreqCountsTheInput :
    (given aaabbc).inLen.toNat ≤ (given aaabbc).params.inBufSize ∧ (given []).inLen.toNat ≤ (given []).params.inBufSize ∧
    ({ State.reset with inLen := 8705#32 } : State).inLen.toNat ≤ State.reset.params.inBufSize := by decide

theorem witness_CountsSumToTheInputLength :
    (given aaabbc).params.wellFormed = true ∧
    ∃ t, exec .freq (given aaabbc) = .next t ∧ t.status.err = false := ⟨by decide, _, exec_ran _ _, by decide⟩

theorem counted_countOf : (counted aaabbc).freq.countOf 0x61 = 3#32 := by decide +kernel

theorem witness_BuildTreeMakesATree :
    (counted aaabbc).Inv ∧ (counted aaabbc).valid.freq = true ∧ ∃ x : Byte, (counted aaabbc).freq.countOf x ≠ 0#32 :=
  ⟨counted_inv aaabbc_len, rfl, 0x61, by rw [counted_countOf]; decide⟩

/-- The tree of the counts of any non-empty input is built with success. -/
theorem exec_buildTree_counted {x : List Byte} (hne : x ≠ []) (hl : x.length ≤ 8705) :
    exec .buildTree (counted x) = .next (treed x) :=
  exec_of_ok (by
    show buildTreeCommand (counted x) = _
    simp only [buildTreeCommand]
    rw [show (counted x).freq.all = countBytes x from rfl, (buildTree_countBytes hne (by omega)).1]
    rfl)

theorem witness_EveryMergeTakesTheTwoLeast :
    (counted aaabbc).Inv ∧ exec .buildTree (counted aaabbc) = .next (treed aaabbc) ∧ (treed aaabbc).status.err = false :=
  ⟨counted_inv aaabbc_len, exec_buildTree_counted aaabbc_ne aaabbc_len, rfl⟩

theorem witness_TreeLaws :
    (counted [0x61]).Inv ∧ exec .buildTree (counted [0x61]) = .next (treed [0x61]) ∧ (treed [0x61]).status.err = false :=
  ⟨counted_inv (by decide), exec_buildTree_counted (by decide) (by decide), rfl⟩

theorem treed_tree {x : List Byte} (hne : x ≠ []) (hl : x.length ≤ 8705) : TreeInv (treed x).arena :=
  ⟨_, (buildTree_countBytes hne (by omega)).2.tree⟩

theorem treed_paths {x : List Byte} (hne : x ≠ []) (hl : x.length ≤ 8705) (p : Bits) (y : Byte)
    (h : LeafPath (treed x).arena p y) : p.length ≤ (treed x).params.maxCodeLen := by
  obtain ⟨n, ht⟩ := treed_tree hne hl
  have := ht.leafPath_length h
  have := ht.atMost
  show p.length ≤ 255
  omega

/-- The tree of "a" (V-C3): a lone leaf. -/
theorem treed_lone : (treed [0x61]).arena.entry (treed [0x61]).arena.root.toNat = .leaf 0x61 1#32 := by decide +kernel

theorem treed_root : (treed aaabbc).arena.entry (treed aaabbc).arena.root.toNat = .internal 6#32 0#9 3#9 := by
  rw [treed_entries.2.2.2]; exact treed_entries.2.1

/-- "b" is the right child of the right child (V-G1). -/
theorem treed_path : LeafPath (treed aaabbc).arena [true, true] 0x62 := ⟨1, 2#32, by decide +kernel, by decide +kernel⟩

theorem witness_GenCodesAssignsTreePaths :
    ((treed aaabbc).Inv ∧ (treed aaabbc).valid.tree = true ∧
      (∀ p x, LeafPath (treed aaabbc).arena p x → p.length ≤ (treed aaabbc).params.maxCodeLen) ∧
      (treed aaabbc).arena.entry (treed aaabbc).arena.root.toNat = .internal 6#32 0#9 3#9 ∧
      LeafPath (treed aaabbc).arena [true, true] 0x62) ∧
    (treed [0x61]).Inv ∧ (treed [0x61]).valid.tree = true ∧
      (∀ p x, LeafPath (treed [0x61]).arena p x → p.length ≤ (treed [0x61]).params.maxCodeLen) ∧
      (treed [0x61]).arena.entry (treed [0x61]).arena.root.toNat = .leaf 0x61 1#32 :=
  ⟨⟨treed_inv aaabbc_ne aaabbc_len, rfl, treed_paths aaabbc_ne aaabbc_len, treed_root, treed_path⟩,
    treed_inv (by decide) (by decide), rfl, treed_paths (by decide) (by decide), treed_lone⟩

theorem witness_NoCodeIsTooLongAt255 :
    (∃ n, TreeOf (treed aaabbc).arena n) ∧ LeafPath (treed aaabbc).arena [true, true] 0x62 ∧
    TreeInv (treed aaabbc).arena ∧ (treed aaabbc).Inv ∧ (treed aaabbc).params.maxCodeLen = 255 ∧
    ∃ t, exec .genCodes (treed aaabbc) = .next t :=
  ⟨treed_tree aaabbc_ne aaabbc_len, treed_path, treed_tree aaabbc_ne aaabbc_len, treed_inv aaabbc_ne aaabbc_len, rfl, _,
    exec_ran _ _⟩

theorem exec_genCodes_treed {x : List Byte} (hne : x ≠ []) (hl : x.length ≤ 8705) :
    exec .genCodes (treed x) = .next (coded x) :=
  exec_of_ok (by
    have h : anyCodeLonger (codesFor x) 255 = false :=
      anyCodeLonger_eq_false.2 (buildTree_countBytes hne (by omega)).2.tree.genCodes_lengths
    show genCodesCommand (treed x) = _
    simp only [genCodesCommand]
    rw [show (treed x).arena = treeFor x from rfl, show (treed x).params.maxCodeLen = 255 from rfl, h]
    rfl)

theorem witness_CodeLengthsFillTheCodeSpace :
    (treed aaabbc).Inv ∧ exec .genCodes (treed aaabbc) = .next (coded aaabbc) ∧ (coded aaabbc).status.err = false ∧
    (treed aaabbc).arena.entry (treed aaabbc).arena.root.toNat = .internal 6#32 0#9 3#9 ∧
    (treed [0x61]).Inv ∧ exec .genCodes (treed [0x61]) = .next (coded [0x61]) ∧ (coded [0x61]).status.err = false ∧
    (treed [0x61]).arena.entry (treed [0x61]).arena.root.toNat = .leaf 0x61 1#32 :=
  ⟨treed_inv aaabbc_ne aaabbc_len, exec_genCodes_treed aaabbc_ne aaabbc_len, rfl, treed_root,
    treed_inv (by decide) (by decide), exec_genCodes_treed (by decide) (by decide), rfl, treed_lone⟩

/-- The tree of "aaabbc" with MAX_CODE_LEN = 1. -/
def shallow : State := { treed aaabbc with params := { Params.standard with maxCodeLen := 1 } }

theorem shallow_inv : shallow.Inv := by
  have h := treed_inv aaabbc_ne aaabbc_len
  refine ⟨by decide, h.inBuf, h.outBuf, h.freq, h.tree, fun x => ?_, fun e => (nomatch e), h.busy, h.outLen, h.bitLen,
    fun e => (nomatch e)⟩
  simp [bitsAt, shallow, treed, counted, given, loaded, State.reset]

theorem witness_StageErrorsInOrder :
    tooLong.params.inBufSize < tooLong.inLen.toNat ∧ State.reset.valid.freq = false ∧ (counted []).valid.freq = true ∧
    (∀ x : Byte, (counted []).freq.countOf x = 0#32) ∧ State.reset.valid.tree = false ∧ shallow.valid.tree = true ∧
    shallow.Inv ∧ ∃ p x, LeafPath shallow.arena p x ∧ shallow.params.maxCodeLen < p.length :=
  ⟨by decide, rfl, rfl, fun x => by simp [counted, countBytes, State.setFreq, State.complete], rfl, rfl, shallow_inv,
    [true, true], 0x62, treed_path, by decide⟩

/-! ### Witnesses: table commands -/

theorem witness_SaveTableWritesTheRecords : (coded aaabbc).Inv ∧ (coded aaabbc).valid.table = true :=
  ⟨coded_inv aaabbc_ne aaabbc_len, rfl⟩

/-- The serialized {a: "0", b: "11", c: "10"} (V-T9). -/
def abcBytes : List Byte := [0x02, 0x61, 0x01, 0x00, 0x62, 0x02, 0xC0, 0x63, 0x02, 0x80]

theorem abcBytes_input : (given abcBytes).input = abcBytes := given_input (by decide)

theorem witness_LoadTableTakesWellFormedBytes :
    (given abcBytes).Inv ∧ (given abcBytes).inLen.toNat ≤ (given abcBytes).params.inBufSize ∧
    SerializedTable (given abcBytes).params.maxCodeLen abc (given abcBytes).input :=
  ⟨given_inv (by decide), by decide, by decide, by decide, by decide, by decide, by rw [abcBytes_input]; decide +kernel⟩

theorem witness_LoadTableAcceptsOnlySerializedTables :
    (given abcBytes).Inv ∧ exec .loadTable (given abcBytes) = .next (ran .loadTable (given abcBytes)) ∧
    (ran .loadTable (given abcBytes)).status.err = false :=
  ⟨given_inv (by decide), exec_ran _ _, by decide +kernel⟩

/-- The bytes SAVE_TABLE wrote, copied to IN_BUF. -/
def copied (t : State) : State := { State.reset with inBuf := t.outBuf, inLen := t.outLen }

theorem witness_TableRoundTrip :
    (coded aaabbc).Inv ∧ (coded aaabbc).valid.table = true ∧
    exec .saveTable (coded aaabbc) = .next (ran .saveTable (coded aaabbc)) ∧
    (copied (ran .saveTable (coded aaabbc))).params = (coded aaabbc).params ∧
    (copied (ran .saveTable (coded aaabbc))).inLen = (ran .saveTable (coded aaabbc)).outLen ∧
    ∀ a, (copied (ran .saveTable (coded aaabbc))).inBuf.read a = (ran .saveTable (coded aaabbc)).outBuf.read a := by
  generalize hs : coded aaabbc = s
  have hi : s.Inv := by rw [← hs]; exact coded_inv aaabbc_ne aaabbc_len
  have hv : s.valid.table = true := by rw [← hs]; rfl
  have hp : s.params = Params.standard := by rw [← hs]; rfl
  exact ⟨hi, hv, exec_ran _ _, by rw [hp]; rfl, rfl, fun _ => rfl⟩

/-- The parser's test as a Bool. -/
def rejected (x : List Byte) : Bool :=
  match parseTable 255 x with
  | .ok _ => false
  | .error _ => true

/-- Bytes in IN_BUF that meet the hypotheses of the malformed-table clause. -/
def Malformed (x : List Byte) : Prop :=
  (given x).Inv ∧ (given x).inLen.toNat ≤ (given x).params.inBufSize ∧
    ∀ rs : List (Byte × Bits), ¬ SerializedTable (given x).params.maxCodeLen rs (given x).input

theorem malformed {x : List Byte} (hl : x.length ≤ 8705) (h : rejected x = true) : Malformed x := by
  refine ⟨given_inv hl, ?_, fun rs hs => ?_⟩
  · show (BitVec.ofNat 32 x.length).toNat ≤ 8705
    rw [BitVec.toNat_ofNat]; omega
  · have hs : SerializedTable 255 rs x := by rw [given_input hl] at hs; exact hs
    rw [rejected, (parseTable_eq_ok_iff_serialized (Nat.le_refl _)).2 ⟨rs, hs, rfl⟩] at h
    cases h

/-- The malformed tables are V-T12 (a prefix), V-T13 (equal codewords), V-T17 (length 0), V-T19 (cut off), V-T20 (not
ascending), V-T21 (a symbol twice), V-T22 (a filler bit) and "a" and "b" with a byte left over. -/
theorem witness_TableErrorsInOrder :
    State.reset.valid.table = false ∧ tooLong.params.inBufSize < tooLong.inLen.toNat ∧
    (Malformed [0x01, 0x61, 0x01, 0x00, 0x62, 0x02, 0x00] ∧ Malformed [0x01, 0x61, 0x01, 0x00, 0x62, 0x01, 0x00] ∧
      Malformed [0x00, 0x61, 0x00] ∧ Malformed [0x01, 0x61, 0x01, 0x00, 0x62, 0x02] ∧
      Malformed [0x01, 0x62, 0x01, 0x00, 0x61, 0x01, 0x80] ∧ Malformed [0x01, 0x61, 0x01, 0x00, 0x61, 0x01, 0x80] ∧
      Malformed [0x00, 0x61, 0x01, 0x40] ∧ Malformed [0x01, 0x61, 0x01, 0x00, 0x62, 0x01, 0x80, 0xFF]) ∧
    ((given [0, 0x61]).inLen.toNat ≤ (given [0, 0x61]).params.inBufSize ∧ (given [0, 0x61]).inLen.toNat < 3) ∧
    ((given [0, 0x61, 0]).inLen.toNat ≤ 8705 ∧ (given [0, 0x61, 0]).input = [0, 0x61, 0]) ∧
    (given [0, 0x61, 1, 0, 0xFF]).input = [0, 0x61, 1, 0, 0xFF] ∧ [(0 : Byte), 0xFF].length ≠ ceilDiv 1 8 ∧
    ({ given [0, 0x41, 9, 0xFF, 0x80] with params := { Params.standard with maxCodeLen := 8 } } : State).input =
      [0, 0x41, 9, 0xFF, 0x80] := by
  refine ⟨rfl, by decide, ⟨?_, ?_, ?_, ?_, ?_, ?_, ?_, ?_⟩, by decide +kernel⟩ <;>
    exact malformed (by decide) (by decide +kernel)

/-! ### Witnesses: stream commands -/

theorem witness_PackingIsMostSignificantBitFirst :
    (List.replicate 16 true).length % 8 = 0 ∧ 8 * 1 + 7 < (List.replicate 16 true).length ∧ 7 < 8 := by decide

theorem witness_PackWritesTheStream :
    let s := withCodes abc (fresh aaabbc)
    s.params.wellFormed = true ∧ s.inLen.toNat ≤ s.params.inBufSize ∧ s.valid.table = true ∧
    (∀ x ∈ s.input, bitsAt s.code x ≠ []) ∧
    1 + ceilDiv (s.input.flatMap (bitsAt s.code)).length 8 ≤ s.params.outBufSize := by decide +kernel

theorem witness_UnpackStripsThePadding :
    (given [0x07, 0xFF]).params.wellFormed = true ∧ (given [0x07, 0xFF]).inLen.toNat ≤ (given [0x07, 0xFF]).params.inBufSize ∧
    (given [0x07, 0xFF]).input = 0x07#8 :: [0xFF] ∧ (0x07#8).toNat ≤ 7 ∧
    [(0xFF : Byte)].length ≤ (given [0x07, 0xFF]).params.outBufSize ∧ (given [0x00]).input = 0#8 :: [] := by decide +kernel

theorem witness_UnpackInvertsPack : ∃ p, packStream (codeTableOf abc) 8705 aaabbc = .ok p := by
  rcases packStream_cases (codeTableOf abc) 8705 aaabbc with ⟨-, h⟩ | ⟨-, -, h⟩ | ⟨h, -⟩
  · exact absurd h (by decide +kernel)
  · exact absurd h (by decide +kernel)
  · exact ⟨_, h⟩

/-- {a: "0", b: "11", c: "10"} as the table, these bytes in IN_BUF, and an OUT_BUF of one byte. -/
def small (bytes : List Byte) : State :=
  { withCodes abc (fresh bytes) with params := { Params.standard with outBufSize := 1 } }

theorem witness_StreamErrorsInOrder :
    tooLong.params.inBufSize < tooLong.inLen.toNat ∧ State.reset.inLen.toNat ≤ State.reset.params.inBufSize ∧
    State.reset.valid.table = false ∧
    ((withCodes abc (fresh [0x64])).valid.table = true ∧
      ∃ x ∈ (withCodes abc (fresh [0x64])).input, bitsAt (withCodes abc (fresh [0x64])).code x = []) ∧
    ((small [0x61]).valid.table = true ∧ (∀ x ∈ (small [0x61]).input, bitsAt (small [0x61]).code x ≠ []) ∧
      (small [0x61]).params.outBufSize < 1 + ceilDiv ((small [0x61]).input.flatMap (bitsAt (small [0x61]).code)).length 8) ∧
    ((given []).input = [] ∧ (given [0x08, 0x00]).input = 0x08#8 :: [0x00] ∧ (given [0x01]).input = 0x01#8 :: []) ∧
    ((small [0, 1, 2]).inLen.toNat ≤ (small [0, 1, 2]).params.inBufSize ∧ (small [0, 1, 2]).input = 0#8 :: [1, 2] ∧
      (small [0, 1, 2]).params.outBufSize < [(1 : Byte), 2].length) :=
  ⟨by decide, by decide, rfl, by decide +kernel, by decide +kernel, by decide +kernel, by decide +kernel⟩

/-! ### Witnesses: facade commands -/

theorem codesFor_length (x : List Byte) (hne : x ≠ []) (hl : x.length ≤ 8705) : LengthsAtMost (codesFor x) 255 :=
  (buildTree_countBytes hne (by omega)).2.tree.genCodes_lengths

theorem witness_CompressWritesAllFourResults :
    (given aaabbc).Inv ∧ (given aaabbc).inLen ≠ 0#32 ∧ (given aaabbc).inLen.toNat ≤ (given aaabbc).params.inBufSize ∧
    LengthsAtMost (codesFor (given aaabbc).input) (given aaabbc).params.maxCodeLen ∧
    1 + ceilDiv ((given aaabbc).input.flatMap (bitsAt (codesFor (given aaabbc).input))).length 8 ≤
      (given aaabbc).params.outBufSize := by
  rw [given_input aaabbc_len]
  exact ⟨given_inv aaabbc_len, by decide, by decide, codesFor_length _ aaabbc_ne aaabbc_len, by decide +kernel⟩

theorem exec_freq_given {x : List Byte} (hl : x.length ≤ 8705) : exec .freq (given x) = .next (counted x) :=
  exec_of_ok (by
    rcases freqCommand_cases (given x) with ⟨-, h⟩ | ⟨h, -⟩
    · have h2 : (BitVec.ofNat 32 x.length).toNat = x.length := by rw [BitVec.toNat_ofNat]; omega
      have h : 8705 < (BitVec.ofNat 32 x.length).toNat := h
      omega
    · rw [given_input hl] at h; exact h)

theorem witness_CompressIsTheFourStages :
    (given aaabbc).inLen ≠ 0#32 ∧ exec .freq (given aaabbc) = .next (counted aaabbc) ∧
    (counted aaabbc).status.err = false ∧ exec .buildTree (counted aaabbc) = .next (treed aaabbc) ∧
    (treed aaabbc).status.err = false ∧ exec .genCodes (treed aaabbc) = .next (coded aaabbc) ∧
    (coded aaabbc).status.err = false ∧ exec .pack (coded aaabbc) = .next (ran .pack (coded aaabbc)) ∧
    (ran .pack (coded aaabbc)).status.err = false :=
  ⟨by decide, exec_freq_given aaabbc_len, rfl, exec_buildTree_counted aaabbc_ne aaabbc_len, rfl,
    exec_genCodes_treed aaabbc_ne aaabbc_len, rfl, exec_ran _ _, by decide +kernel⟩

theorem witness_CompressDependsOnItsInputAlone :
    (given aaabbc).params = (coded aaabbc).params ∧ (given aaabbc).inLen = (coded aaabbc).inLen ∧
    (∀ a < (given aaabbc).inLen.toNat, (given aaabbc).inBuf.read a = (coded aaabbc).inBuf.read a) ∧
    (given aaabbc).freq ≠ (coded aaabbc).freq ∧ (∃ t, exec .compress (given aaabbc) = .next t) ∧
    ∃ t, exec .compress (coded aaabbc) = .next t :=
  ⟨rfl, rfl, fun _ _ => rfl, fun h => (nomatch (show FreqTable.unspec 0 = .counts _ from h)), ⟨_, exec_ran _ _⟩, _,
    exec_ran _ _⟩

theorem witness_DecompressWritesTheSymbols :
    let s := withCodes abc (fresh [0x07, 0x1F, 0x00])
    s.Inv ∧ s.inLen.toNat ≤ s.params.inBufSize ∧ s.valid.table = true ∧ s.input = 0x07#8 :: [0x1F, 0x00] ∧
    (0x07#8).toNat ≤ 7 ∧ (∀ y ∈ aaabbc, bitsAt s.code y ≠ []) ∧
    aaabbc.flatMap (bitsAt s.code) = (unpackMsb [0x1F, 0x00]).take (8 * [(0x1F : Byte), 0x00].length - (0x07#8).toNat) ∧
    aaabbc.length ≤ s.params.outBufSize :=
  ⟨abc_inv _ (by decide), by decide, rfl, given_input (by decide), by decide, by decide +kernel, by decide +kernel, by decide⟩

/-- The stream COMPRESS wrote for "aaabbc" (V-C1), in IN_BUF of the state with its table. -/
def streamIn : State :=
  { coded aaabbc with inBuf := State.reset.inBuf.writeBytes 0 [0x07, 0x1F, 0x00], inLen := 3#32 }

theorem streamIn_inv : streamIn.Inv := by
  have h := coded_inv aaabbc_ne aaabbc_len
  exact ⟨h.params,
    ⟨Memory.writeBytes_wf _ _ State.reset_wf.1, Memory.writeBytes_within (by decide) (by simp [State.reset, Memory.within])⟩,
    h.outBuf, h.freq, h.tree, h.lengths, h.table, h.busy, h.outLen, h.bitLen, fun e => (nomatch e)⟩

theorem compressed_noError : (ran .compress (given aaabbc)).status.err = false := by decide +kernel

theorem compressed_outLen : streamIn.inLen = (ran .compress (given aaabbc)).outLen := by decide +kernel

theorem compressed_bytes : ∀ a < 3, streamIn.inBuf.read a = (ran .compress (given aaabbc)).outBuf.read a := by
  decide +kernel

/-- COMPRESS of "aaabbc" leaves the table of `streamIn`. -/
theorem compressed_code : streamIn.code = (ran .compress (given aaabbc)).code := by
  have hn := compressed_noError
  rw [show ran .compress (given aaabbc) = (given aaabbc).finish (targetsOf .compress) (compressCommand (given aaabbc)) from
    rfl] at hn ⊢
  rcases compressCommand_cases (given aaabbc) with ⟨h, -⟩ | ⟨h, -⟩ | ⟨-, -, ⟨h, -⟩ | ⟨-, ⟨h, -⟩ | ⟨h, -⟩⟩⟩ <;> rw [h] at hn ⊢
  iterate 4 cases hn
  rw [show (given aaabbc).input = aaabbc from given_input aaabbc_len]
  rfl

theorem witness_CompressThenDecompressIsIdentity :
    (given aaabbc).Inv ∧ exec .compress (given aaabbc) = .next (ran .compress (given aaabbc)) ∧
    (ran .compress (given aaabbc)).status.err = false ∧ streamIn.Inv ∧ streamIn.params = (given aaabbc).params ∧
    streamIn.code = (ran .compress (given aaabbc)).code ∧ streamIn.valid.table = true ∧
    streamIn.inLen = (ran .compress (given aaabbc)).outLen ∧
    (∀ a < (ran .compress (given aaabbc)).outLen.toNat,
      streamIn.inBuf.read a = (ran .compress (given aaabbc)).outBuf.read a) ∧
    (ran .compress (given aaabbc)).outLen.toNat ≤ (given aaabbc).params.inBufSize ∧
    (given aaabbc).inLen.toNat ≤ (given aaabbc).params.outBufSize := by
  refine ⟨given_inv aaabbc_len, exec_ran _ _, compressed_noError, streamIn_inv, rfl, compressed_code, rfl, compressed_outLen,
    ?_, ?_, by decide⟩
  · rw [← compressed_outLen]; exact compressed_bytes
  · rw [← compressed_outLen]; decide

/-- "aaabbc" with MAX_CODE_LEN = 1. -/
def shortCodes : State := { given aaabbc with params := { Params.standard with maxCodeLen := 1 } }

theorem shortCodes_tooLong : ¬ LengthsAtMost (codesFor shortCodes.input) shortCodes.params.maxCodeLen := by
  intro h
  have h := h 0x62
  rw [show shortCodes.input = aaabbc from given_input aaabbc_len] at h
  exact absurd h (by decide +kernel)

/-- An OUT_BUF of one byte: a stream that it cannot hold. -/
def bigIn : State := { given (List.replicate 4 0x61) with params := { Params.standard with outBufSize := 1 } }

theorem witness_FacadeErrorsInOrder :
    tooLong.params.inBufSize < tooLong.inLen.toNat ∧ State.reset.inLen.toNat ≤ State.reset.params.inBufSize ∧
    State.reset.inLen = 0#32 ∧
    (shortCodes.inLen.toNat ≤ shortCodes.params.inBufSize ∧ shortCodes.inLen ≠ 0#32 ∧
      ¬ LengthsAtMost (codesFor shortCodes.input) shortCodes.params.maxCodeLen) ∧
    (bigIn.inLen ≠ 0#32 ∧ LengthsAtMost (codesFor bigIn.input) bigIn.params.maxCodeLen ∧
      bigIn.params.outBufSize < 1 + ceilDiv (bigIn.input.flatMap (bitsAt (codesFor bigIn.input))).length 8) ∧
    State.reset.valid.table = false ∧
    ((withCodes abc (fresh [0x08])).valid.table = true ∧ (withCodes abc (fresh [0x08])).input = 0x08#8 :: [] ∧
      (withCodes abc (fresh [])).input = []) := by
  refine ⟨by decide, by decide, rfl, ⟨by decide, by decide, shortCodes_tooLong⟩, ⟨by decide, ?_, ?_⟩, rfl, rfl, by decide, rfl⟩
  · rw [show bigIn.input = List.replicate 4 0x61#8 from given_input (by decide)]
    exact codesFor_length _ (by decide) (by decide)
  · rw [show bigIn.input = List.replicate 4 0x61#8 from given_input (by decide)]
    decide +kernel

/-- `07 80`: the one bit "1" is the codewords of no symbols (V-D9). -/
theorem undecodable (ys : List Byte) (h : ∀ y ∈ ys, bitsAt (codeTableOf abc) y ≠ []) :
    ys.flatMap (bitsAt (codeTableOf abc)) ≠ [true] := by
  intro he
  cases ys with
  | nil => cases he
  | cons y ys =>
    have hy := h y List.mem_cons_self
    rw [List.flatMap_cons] at he
    have hmem := mem_of_bitsAt_codeTableOf hy
    cases hb : bitsAt (codeTableOf abc) y with
    | nil => exact hy hb
    | cons b bs =>
      rw [hb] at hmem he
      simp only [List.cons_append, List.cons.injEq, List.append_eq_nil_iff] at he
      obtain ⟨rfl, rfl, -⟩ := he
      revert hmem
      simp [abc]

/-- {a: "0"} and `n` bytes of zeros, which decode to 8n symbols; with n = 1089, more than OUT_BUF holds (V-D16). -/
def manySymbols (n : Nat) : State := withCodes [(0x61#8, [false])] (given (0#8 :: List.replicate n 0#8))

theorem manySymbols_inv {n : Nat} (hn : n ≤ 8704) : (manySymbols n).Inv := by
  have ht : TableInv (codeTableOf [(0x61#8, [false])]) 255 :=
    tableInv_codeTableOf (by decide) ⟨by decide, by decide, by decide⟩ (prefixFree_iff.1 (by decide +kernel))
  have h : (given (0#8 :: List.replicate n 0#8)).Inv :=
    given_inv (by rw [List.length_cons, List.length_replicate]; omega)
  exact ⟨h.params, h.inBuf, h.outBuf, fun e => (nomatch e), fun e => (nomatch e), ht.lengths, fun _ => ht, h.busy, h.outLen,
    h.bitLen, fun e => (nomatch e)⟩

theorem manySymbols_bits (n : Nat) : bitsAt (manySymbols n).code 0x61#8 = [false] := by
  show bitsAt (codeTableOf [(0x61#8, [false])]) 0x61#8 = [false]
  decide +kernel

theorem manySymbols_flatMap (n m : Nat) :
    (List.replicate m 0x61#8).flatMap (bitsAt (manySymbols n).code) = List.replicate m false := by
  induction m with
  | zero => rfl
  | succ m ih => rw [List.replicate_succ, List.flatMap_cons, ih, manySymbols_bits]; rfl

theorem unpackMsb_zeros (n : Nat) : unpackMsb (List.replicate n 0#8) = List.replicate (8 * n) false := by
  induction n with
  | zero => rfl
  | succ n ih =>
    rw [List.replicate_succ, show unpackMsb (0#8 :: List.replicate n 0#8) = byteBits 0#8 ++ unpackMsb (List.replicate n 0#8) from
      rfl, ih, show byteBits 0#8 = List.replicate 8 false from by decide, ← List.replicate_add]
    congr 1; omega

/-- What the overflow clause of DECOMPRESS assumes, for `n` bytes of payload. -/
def Overflows (n : Nat) : Prop :=
  (manySymbols n).valid.table = true ∧ (manySymbols n).Inv ∧ (manySymbols n).input = 0#8 :: List.replicate n 0#8 ∧
    (∀ y ∈ List.replicate (8 * n) 0x61#8, bitsAt (manySymbols n).code y ≠ []) ∧
    (List.replicate (8 * n) 0x61#8).flatMap (bitsAt (manySymbols n).code) =
      (unpackMsb (List.replicate n 0#8)).take (8 * (List.replicate n 0#8).length - (0#8).toNat) ∧
    (manySymbols n).params.outBufSize < (List.replicate (8 * n) 0x61#8).length

theorem overflows {n : Nat} (h : 8705 < 8 * n) (hn : n ≤ 8704) : Overflows n := by
  refine ⟨rfl, manySymbols_inv hn, given_input (by rw [List.length_cons, List.length_replicate]; omega), ?_, ?_, ?_⟩
  · intro y hy
    rw [List.eq_of_mem_replicate hy, manySymbols_bits]; exact List.cons_ne_nil _ _
  · rw [manySymbols_flatMap, unpackMsb_zeros, List.length_replicate]
    exact (List.take_of_length_le (by rw [List.length_replicate]; exact Nat.le_refl _)).symm
  · rw [List.length_replicate]; exact h

theorem witness_FacadeErrorsInOrder_decoding :
    ((withCodes abc (fresh [0x07, 0x80])).valid.table = true ∧ (withCodes abc (fresh [0x07, 0x80])).Inv ∧
      (withCodes abc (fresh [0x07, 0x80])).input = 0x07#8 :: [0x80] ∧
      ∀ ys : List Byte, (∀ y ∈ ys, bitsAt (codeTableOf abc) y ≠ []) →
        ys.flatMap (bitsAt (codeTableOf abc)) ≠ (unpackMsb [0x80]).take (8 * [(0x80 : Byte)].length - (0x07#8).toNat)) ∧
    Overflows 1089 :=
  ⟨⟨rfl, abc_inv _ (by decide), given_input (by decide), fun ys h he => undecodable ys h (he.trans (by decide))⟩,
    overflows (by omega) (by omega)⟩

/-! ### Witnesses: the whole machine -/

theorem witness_EngineWritesOnlyOutputs :
    exec .pack (withCodes abc (fresh aaabbc)) = .next (ran .pack (withCodes abc (fresh aaabbc))) ∧
    (withCodes abc (fresh aaabbc)).params.wellFormed = true ∧
    (ran .pack (withCodes abc (fresh aaabbc))).status.err = false ∧
    (ran .pack (withCodes abc (fresh aaabbc))).outLen.toNat ≤ 3 ∧ (∃ t, exec .freq (fresh aaabbc) = .next t) ∧
    State.reset.outBuf.within State.reset.params.outBufSize :=
  ⟨exec_ran _ _, by decide, by decide +kernel, by decide +kernel, ⟨_, exec_ran _ _⟩, by simp [State.reset, Memory.within]⟩

theorem witness_CommandsReadOnlyTheirInput :
    (∀ a < (fresh aaabbc).inLen.toNat,
      ((fresh aaabbc).inBuf.write 6 0xFF#8).read a = (fresh aaabbc).inBuf.read a) ∧
    ∃ t, exec .compress (fresh aaabbc) = .next t := ⟨by decide, _, exec_ran _ _⟩

theorem witness_EveryStepKeepsTheInvariant :
    (busyWith 0xA#32 []).Inv ∧ ∃ t, step (busyWith 0xA#32 []) = .next t := ⟨busy_inv _ _, _, rfl⟩

theorem witness_ParametersNeverChange : ∃ t, step (busyWith 6#32 [.resetPin false]) = .next t := ⟨_, rfl⟩

theorem witness_OnlyHostAccessesStopTheMachine :
    step (idleWith [.access (rd .reg 0x008 2)]) = .fault (.busError .width) ∧
    step (idleWith [.accessAt { dir := .read, addr := 0x40008000, width := 4 }]) = .refused .outsideApertures :=
  ⟨rfl, rfl⟩

end Sys2Proof.Tests
end

namespace Sys2Proof.Machine

/-! The scope statements (00_scope.md). Every command's errors and results in one lemma, and the frame every completion
has; the parameters through every operation of a step (R7, R37); the bits of packed bytes (R13); CODE_TOO_LONG (R10). -/

/-! ### The outcomes of every command's body, in one place -/

/-- The errors each command's body can reach (R208). -/
def errorsOf : Instr → List ErrCode
  | .nop => []
  | .clear => []
  | .freq => [.inputTooLong]
  | .buildTree => [.sequenceError, .emptyAlphabet]
  | .genCodes => [.sequenceError, .codeTooLong]
  | .pack => [.inputTooLong, .sequenceError, .unmappedSymbol, .outputOverflow]
  | .unpack => [.inputTooLong, .truncatedStream, .outputOverflow]
  | .compress => [.inputTooLong, .emptyInput, .codeTooLong, .outputOverflow]
  | .decompress => [.inputTooLong, .sequenceError, .truncatedStream, .undecodableStream, .outputOverflow]
  | .saveTable => [.sequenceError, .outputOverflow]
  | .loadTable => [.inputTooLong, .invalidTable]

/-- The states a command's rule can write from `s`: `s` itself (NOP), cleared tables, one result, or the four results of
COMPRESS (R121, R131, R141, R150, R160, R175, R190, R191). -/
inductive Written (s : State) : State → Prop
  | nothing : Written s s
  | cleared : Written s s.clearTables
  | freq (c : Counts) : Written s (s.setFreq c)
  | tree (a : Arena) : Written s (s.setTree a)
  | code (t : CodeTable) : Written s (s.setCode t)
  | output (bytes : List Byte) (pad bits : Nat) : Written s (s.putOutput bytes pad bits)
  | all (c : Counts) (a : Arena) (t : CodeTable) (bytes : List Byte) (pad bits : Nat) :
      Written s ((((s.setFreq c).setTree a).setCode t).putOutput bytes pad bits)

/-- A command's body reaches one of its errors or writes its results. -/
theorem bodyOf_cases (i : Instr) (s : State) :
    (∃ e, bodyOf i s = .error e ∧ e ∈ errorsOf i) ∨ ∃ s', bodyOf i s = .ok s' ∧ Written s s' := by
  cases i with
  | nop => exact .inr ⟨_, rfl, .nothing⟩
  | clear => exact .inr ⟨_, rfl, .cleared⟩
  | freq =>
    rcases freqCommand_cases s with ⟨he, -⟩ | ⟨he, -⟩
    · exact .inl ⟨_, he, by decide⟩
    · exact .inr ⟨_, he, .freq _⟩
  | buildTree =>
    rcases buildTreeCommand_cases s with ⟨he, -⟩ | ⟨he, -⟩ | ⟨he, -⟩
    · exact .inl ⟨_, he, by decide⟩
    · exact .inl ⟨_, he, by decide⟩
    · exact .inr ⟨_, he, .tree _⟩
  | genCodes =>
    rcases genCodesCommand_cases s with ⟨he, -⟩ | ⟨he, -⟩ | ⟨he, -⟩
    · exact .inl ⟨_, he, by decide⟩
    · exact .inl ⟨_, he, by decide⟩
    · exact .inr ⟨_, he, .code _⟩
  | saveTable =>
    rcases saveTableCommand_cases s with ⟨he, -⟩ | ⟨he, -⟩ | ⟨he, -⟩
    · exact .inl ⟨_, he, by decide⟩
    · exact .inl ⟨_, he, by decide⟩
    · exact .inr ⟨_, he, .output _ _ _⟩
  | loadTable =>
    rcases loadTableCommand_cases s with ⟨he, -⟩ | ⟨he, -⟩ | ⟨t, he, -⟩
    · exact .inl ⟨_, he, by decide⟩
    · exact .inl ⟨_, he, by decide⟩
    · exact .inr ⟨_, he, .code t⟩
  | pack =>
    rcases packCommand_cases s with ⟨he, -⟩ | ⟨he, -⟩ | ⟨-, -, ⟨he, -⟩ | ⟨he, -⟩ | ⟨he, -⟩⟩
    · exact .inl ⟨_, he, by decide⟩
    · exact .inl ⟨_, he, by decide⟩
    · exact .inl ⟨_, he, by decide⟩
    · exact .inl ⟨_, he, by decide⟩
    · exact .inr ⟨_, he, .output _ _ _⟩
  | unpack =>
    rcases unpackCommand_cases s with ⟨he, -⟩ | ⟨he, -⟩ | ⟨_, _, -, -, ⟨he, -⟩ | ⟨he, -⟩⟩
    · exact .inl ⟨_, he, by decide⟩
    · exact .inl ⟨_, he, by decide⟩
    · exact .inl ⟨_, he, by decide⟩
    · exact .inr ⟨_, he, .output _ _ _⟩
  | decompress =>
    rcases decompressCommand_cases s with
      ⟨he, -⟩ | ⟨he, -⟩ | ⟨-, -, ⟨he, -⟩ | ⟨_, _, -, ⟨he, -⟩ | ⟨_, -, ⟨he, -⟩ | ⟨he, -⟩⟩⟩⟩
    · exact .inl ⟨_, he, by decide⟩
    · exact .inl ⟨_, he, by decide⟩
    · exact .inl ⟨_, he, by decide⟩
    · exact .inl ⟨_, he, by decide⟩
    · exact .inl ⟨_, he, by decide⟩
    · exact .inr ⟨_, he, .output _ _ _⟩
  | compress =>
    rcases compressCommand_cases s with ⟨he, -⟩ | ⟨he, -⟩ | ⟨-, -, ⟨he, -⟩ | ⟨-, ⟨he, -⟩ | ⟨he, -⟩⟩⟩
    · exact .inl ⟨_, he, by decide⟩
    · exact .inl ⟨_, he, by decide⟩
    · exact .inl ⟨_, he, by decide⟩
    · exact .inl ⟨_, he, by decide⟩
    · exact .inr ⟨_, he, .all _ _ _ _ _ _⟩

theorem bodyOf_ok_written {i : Instr} {s s' : State} (h : bodyOf i s = .ok s') : Written s s' := by
  rcases bodyOf_cases i s with ⟨e, he, -⟩ | ⟨u, hu, hw⟩
  · cases he.symm.trans h
  · cases hu.symm.trans h
    exact hw

theorem bodyOf_error_mem {i : Instr} {s : State} {e : ErrCode} (h : bodyOf i s = .error e) : e ∈ errorsOf i := by
  rcases bodyOf_cases i s with ⟨e', he, hm⟩ | ⟨u, hu, -⟩
  · cases he.symm.trans h
    exact hm
  · cases hu.symm.trans h

/-- A success leaves everything but the results as it was (R204). -/
theorem Written.completed {s s' : State} (h : Written s s') : Completed s s'.complete := by
  cases h <;> constructor <;> simp

/-- Every command, succeeding or failing, has the frame of a completion (R203 to R205). -/
theorem exec_completed {i : Instr} {s t : State} (h : exec i s = .next t) : Completed s t := by
  rcases exec_next_cases h with ⟨s', hb, rfl⟩ | ⟨e, -, rfl⟩
  · exact (bodyOf_ok_written hb).completed
  · exact fail_completed s _ e

/-! ### The parameters through a step (R7, R37) -/

@[simp] theorem State.writeCmd_params (s : State) (w : Word) : (s.writeCmd w).params = s.params := by
  unfold State.writeCmd
  split <;> rfl

@[simp] theorem State.writeReg_params (s : State) (r : RegSel) (v : Word) : (s.writeReg r v).params = s.params := by
  cases r with
  | cmd => exact s.writeCmd_params v
  | inLen => simp only [State.writeReg]; split <;> rfl
  | _ => rfl

@[simp] theorem State.writeValue_params (s : State) (t : Txn) (v : Word) : (s.writeValue t v).params = s.params := by
  unfold State.writeValue
  split
  · exact s.writeReg_params _ v
  · split <;> rfl
  · split <;> rfl

@[simp] theorem State.answerRead_params (s : State) (o : Option Word) : (s.answerRead o).params = s.params := by
  cases o <;> rfl

@[simp] theorem State.perform_params (s : State) (t : Txn) : (s.perform t).params = s.params := by
  unfold State.perform
  split <;> split <;> simp

theorem hostAccess_params {t : Txn} {s s' : State} (h : hostAccess t s = .next s') : s'.params = s.params := by
  obtain ⟨-, rfl⟩ := hostAccess_next h
  exact s.perform_params t

/-- An access by address that is answered is the access by the space and offset the address selects (R62). -/
theorem hostAccessAt_next {t : AddrTxn} {s s' : State} (h : hostAccessAt t s = .next s') :
    ∃ space off, apertureOf s.params t.addr = some (space, off) ∧
      hostAccess { dir := t.dir, space := space, offset := off, width := t.width } s = .next s' := by
  unfold hostAccessAt at h
  split at h
  · cases h
  next space off ha => exact ⟨space, off, ha, h⟩

theorem engineStep_params {s s' : State} (h : engineStep s = .next s') : s'.params = s.params := by
  rcases engineStep_cases s with he | ⟨w, -, -, ⟨i, -, he⟩ | he⟩ <;> rw [he] at h
  · cases h; rfl
  · exact (exec_completed h).params
  · cases h; exact (fail_completed s noTargets .illegalCommand).params

theorem eventStep_params {e : HostEvent} {s s' : State} (h : eventStep e s = .next s') : s'.params = s.params := by
  cases e with
  | access t => exact hostAccess_params h
  | accessAt t =>
    obtain ⟨_, _, -, ha⟩ := hostAccessAt_next h
    exact hostAccess_params ha
  | resetPin level => cases h; cases level <;> rfl
  | engine => exact engineStep_params h

/-- Settles O59: a step is a host access, a level of the reset pin or the engine's transition, and none writes a
parameter. -/
theorem parametersNeverChange : Obligations.ParametersNeverChange := by
  intro s t h
  cases hi : s.inputs with
  | nil => exact engineStep_params ((step_nil hi).symm.trans h)
  | cons e rest => exact (eventStep_params ((step_cons hi).symm.trans h) :)

/-! ### Bits of packed bytes (R13) -/

/-- Bit 7 of a byte comes first (R13). -/
theorem getD_byteBits (v : Byte) {j : Nat} (hj : j < 8) : (byteBits v).getD j false = v.getLsbD (7 - j) := by
  interval_cases j <;> rfl

/-- Bit `8 k + j` of the unpacked string is bit `7 - j` of byte `k` (R13). -/
theorem getD_unpackMsb (vs : List Byte) (k : Nat) {j : Nat} (hj : j < 8) :
    (unpackMsb vs).getD (8 * k + j) false = (vs.getD k 0#8).getLsbD (7 - j) := by
  induction vs generalizing k with
  | nil => simp
  | cons v vs ih =>
    rw [unpackMsb_cons]
    cases k with
    | zero =>
      rw [List.getD_append _ _ _ _ (by simpa using hj), Nat.mul_zero, Nat.zero_add, getD_byteBits v hj]
      rfl
    | succ k =>
      rw [List.getD_append_right _ _ _ _ (by simp; omega), length_byteBits,
        show 8 * (k + 1) + j - 8 = 8 * k + j by omega, ih]
      rfl

/-- Settles O44: packing and unpacking are inverse, so the bits of the packed bytes are those of the string. -/
theorem packingIsMostSignificantBitFirst : Obligations.PackingIsMostSignificantBitFirst := by
  refine ⟨fun bits h => ⟨length_packMsb h, fun k j _ hj => ?_⟩, fun _ => unpackMsb_packMsb, packMsb_unpackMsb⟩
  rw [← getD_unpackMsb _ k hj, unpackMsb_packMsb h]

/-! ### CODE_TOO_LONG (R10, R141, R175) -/

/-- GEN_CODES reaches CODE_TOO_LONG only on a valid tree with too long a codeword (R141). -/
theorem genCodesCommand_codeTooLong {s : State} (h : genCodesCommand s = .error .codeTooLong) :
    s.valid.tree = true ∧ ¬ LengthsAtMost (genCodes s.arena) s.params.maxCodeLen := by
  rcases genCodesCommand_cases s with ⟨he, -⟩ | ⟨-, hl⟩ | ⟨he, -⟩
  · cases he.symm.trans h
  · exact hl
  · cases he.symm.trans h

/-- COMPRESS reaches CODE_TOO_LONG only on a non-empty input whose tree has too long a codeword (R175). -/
theorem compressCommand_codeTooLong {s : State} (h : compressCommand s = .error .codeTooLong) :
    s.inLen ≠ 0#32 ∧ ¬ LengthsAtMost (codesFor s.input) s.params.maxCodeLen := by
  rcases compressCommand_cases s with ⟨he, -⟩ | ⟨he, -⟩ | ⟨-, h0, ⟨-, hl⟩ | ⟨-, ⟨he, -⟩ | ⟨he, -⟩⟩⟩
  · cases he.symm.trans h
  · cases he.symm.trans h
  · exact ⟨h0, hl⟩
  · cases he.symm.trans h
  · cases he.symm.trans h

/-- CODE_TOO_LONG is an error of GEN_CODES and of COMPRESS alone (R208). -/
theorem codeTooLong_mem_errorsOf {i : Instr} : .codeTooLong ∈ errorsOf i ↔ i = .genCodes ∨ i = .compress := by
  cases i <;> decide

theorem TreeInv.genCodes_lengths {a : Arena} (h : TreeInv a) : LengthsAtMost (genCodes a) 255 := by
  obtain ⟨n, hn⟩ := h
  exact hn.genCodes_lengths

/-- No codeword COMPRESS assigns is longer than the structural bound (R10). -/
theorem codesFor_lengths {s : State} (h0 : s.inLen ≠ 0#32) : LengthsAtMost (codesFor s.input) 255 :=
  (buildTree_countBytes (input_ne_nil.2 h0) (length_input_lt s)).2.tree.genCodes_lengths

/-- The error code of a completion is that of the error its body reached, or none (R204, R205). -/
theorem exec_errCode {i : Instr} {s t : State} (h : exec i s = .next t) :
    t.status.errCode = .none ∨ bodyOf i s = .error t.status.errCode := by
  rcases exec_next_cases h with ⟨s', -, rfl⟩ | ⟨e, he, rfl⟩
  · exact .inl (complete_succeeded s').2
  · exact .inr (by rw [(fail_failedWith s _ e).2]; exact he)

/-- Under the invariant with MAX_CODE_LEN = 255, no command's body reaches CODE_TOO_LONG (R10). -/
theorem bodyOf_ne_codeTooLong {i : Instr} {s : State} (hs : s.Inv) (hm : s.params.maxCodeLen = 255) :
    bodyOf i s ≠ .error .codeTooLong := by
  intro h
  rcases codeTooLong_mem_errorsOf.1 (bodyOf_error_mem h) with rfl | rfl
  · obtain ⟨hv, hl⟩ := genCodesCommand_codeTooLong h
    exact hl (hm ▸ (hs.tree hv).1.genCodes_lengths)
  · obtain ⟨h0, hl⟩ := compressCommand_codeTooLong h
    exact hl (hm ▸ codesFor_lengths h0)

/-- Settles O36: a path takes at most one branch per merge, and only a codeword longer than MAX_CODE_LEN raises
CODE_TOO_LONG. -/
theorem noCodeIsTooLongAt255 : Obligations.NoCodeIsTooLongAt255 := by
  refine ⟨fun a n ht p x hp => ⟨ht.leafPath_length hp, ?_⟩, fun _ => TreeInv.genCodes_lengths, ?_⟩
  · have := ht.atMost
    omega
  · intro s t i hs hm hx hcode
    rcases exec_errCode hx with h | h <;> rw [hcode] at h
    · cases h
    · exact bodyOf_ne_codeTooLong hs hm h

end Sys2Proof.Machine

namespace Sys2Proof.Machine

/-! The statements on the state (10_state.md). The invariant at reset and through every operation of a step (R43, R44,
R50, R231); the control registers and their layouts (R25 to R28, R32, R45); what the register map and the table windows
show in Idle (R24 to R41); COMPRESS as a function of its input (R48). -/

/-! ### The reset state (R50, R231) -/

/-- The state after reset is at the values of R50. -/
theorem State.reset_atReset : State.reset.AtReset :=
  ⟨rfl, rfl, rfl, rfl, rfl, rfl, rfl, rfl, rfl, ⟨0, rfl⟩, entry_unspec _ _, at256_replicate _, rfl, rfl⟩

/-- The reset event takes the values of R50. -/
theorem State.enterReset_atReset (s : State) : s.enterReset.AtReset :=
  ⟨rfl, rfl, rfl, rfl, rfl, rfl, rfl, rfl, rfl, ⟨_, rfl⟩, entry_unspec _ _, at256_replicate _, rfl, rfl⟩

/-- A buffer nothing has written has the canonical form, at any size. -/
theorem Memory.wf_within_of_nil {m : Memory} (size : Nat) (h : m.cells = []) : m.wf ∧ m.within size := by
  simp [Memory.wf, Memory.within, h]

/-- A table without known entries has no codeword, so it keeps every length bound. -/
theorem lengthsAtMost_of_unspec {t : CodeTable} (maxLen : Nat) (h : ∀ x : Byte, at256 t x = .unspec) :
    LengthsAtMost t maxLen := by
  intro x
  simp [bitsAt, h x]

/-- At the values of R50 no table is valid and both buffers are empty, so the invariant holds. -/
theorem State.AtReset.inv {s : State} (h : s.AtReset) (hw : s.params.wellFormed = true) : s.Inv where
  params := hw
  inBuf := Memory.wf_within_of_nil _ h.inBuf
  outBuf := Memory.wf_within_of_nil _ h.outBuf
  freq := fun e => by rw [h.valid] at e; cases e
  tree := fun e => by rw [h.valid] at e; cases e
  lengths := lengthsAtMost_of_unspec _ h.code
  table := fun e => by rw [h.valid] at e; cases e
  busy := fun e => by rw [busy_of_idle h.phase] at e; cases e
  outLen := by simp [h.outLen]
  bitLen := by simp [h.bitLen]
  reset := fun _ => h

/-- Settles O57: the state after reset is at the values of R50, and its parameters are well formed. -/
theorem resetSatisfiesTheInvariant : Obligations.ResetSatisfiesTheInvariant :=
  State.reset_atReset.inv (by decide)

/-! ### The invariant out of reset, through the named updates -/

/-- The invariant with `rst_n` released: what holds where a command runs or a write takes effect. -/
structure State.Live (s : State) : Prop where
  inv : s.Inv
  released : s.rstLow = false

section
variable {s : State}

theorem State.Live.not_low (h : s.Live) : ¬ s.rstLow = true := by simp [h.released]

theorem State.Live.setFreq (h : s.Live) {c : Counts} (hc : c.total ≤ s.params.inBufSize) : (s.setFreq c).Live :=
  ⟨{ h.inv with freq := fun _ => ⟨c, rfl, hc⟩, reset := fun e => absurd e h.not_low }, h.released⟩

theorem State.Live.setTree (h : s.Live) {a : Arena} (ha : TreeInv a ∧ OneParent a) : (s.setTree a).Live :=
  ⟨{ h.inv with tree := fun _ => ha, reset := fun e => absurd e h.not_low }, h.released⟩

theorem State.Live.setCode (h : s.Live) {t : CodeTable} (ht : TableInv t s.params.maxCodeLen) : (s.setCode t).Live :=
  ⟨{ h.inv with lengths := ht.lengths, table := fun _ => ht, reset := fun e => absurd e h.not_low }, h.released⟩

theorem State.Live.putOutput (h : s.Live) {bytes : List Byte} (pad : Nat) {bits : Nat}
    (hl : bytes.length ≤ s.params.outBufSize) (hb : bits ≤ 2 ^ 31) : (s.putOutput bytes pad bits).Live where
  inv :=
    { h.inv with
      outBuf := ⟨Memory.writeBytes_wf _ _ h.inv.outBuf.1, (putOutput_keeps s pad bits hl).1 h.inv.outBuf.2⟩
      outLen := by
        rw [State.putOutput_outLen, BitVec.toNat_ofNat]
        exact (Nat.mod_le _ _).trans hl
      bitLen := by
        rw [State.putOutput_bitLen, BitVec.toNat_ofNat]
        exact (Nat.mod_le _ _).trans hb
      reset := fun e => absurd e h.not_low }
  released := h.released

theorem State.Live.clearTables (h : s.Live) : s.clearTables.Live where
  inv :=
    { h.inv with
      freq := nofun
      tree := nofun
      lengths := fun x => by simp [bitsAt]
      table := nofun
      outLen := Nat.zero_le _
      bitLen := Nat.zero_le _
      reset := fun e => absurd e h.not_low }
  released := h.released

theorem State.Live.complete (h : s.Live) : s.complete.Live :=
  ⟨{ h.inv with busy := nofun, reset := fun e => absurd e h.not_low }, h.released⟩

theorem State.Live.recordError (h : s.Live) (e : ErrCode) : (s.recordError e).Live :=
  ⟨{ h.inv with busy := nofun, reset := fun e => absurd e h.not_low }, h.released⟩

theorem State.Live.spoilFreq (h : s.Live) : s.spoilFreq.Live :=
  ⟨{ h.inv with freq := nofun, reset := fun e => absurd e h.not_low }, h.released⟩

theorem State.Live.spoilTree (h : s.Live) : s.spoilTree.Live :=
  ⟨{ h.inv with tree := nofun, reset := fun e => absurd e h.not_low }, h.released⟩

theorem State.Live.spoilCode (h : s.Live) : s.spoilCode.Live :=
  ⟨{ h.inv with
      lengths := lengthsAtMost_of_unspec _ (at256_replicate _), table := nofun
      reset := fun e => absurd e h.not_low }, h.released⟩

theorem State.Live.spoilOut (h : s.Live) : s.spoilOut.Live :=
  ⟨{ h.inv with
      outBuf := Memory.wf_within_of_nil _ rfl, outLen := Nat.zero_le _, bitLen := Nat.zero_le _
      reset := fun e => absurd e h.not_low }, h.released⟩

/-- An update that is made or not keeps what it keeps where it is made. -/
theorem State.Live.ite (h : s.Live) (b : Bool) {f : State → State} (hf : s.Live → (f s).Live) :
    (if b then f s else s).Live := by
  cases b
  · exact h
  · exact hf h

/-- Each failure effect of R205 either spoils one structure or leaves it. -/
theorem State.Live.spoil (h : s.Live) (g : Targets) : (s.spoil g).Live :=
  (((h.ite g.freq .spoilFreq).ite g.node .spoilTree).ite g.code .spoilCode).ite g.out .spoilOut

theorem State.Live.fail (h : s.Live) (g : Targets) (e : ErrCode) : (s.fail g e).Live := (h.spoil g).recordError e

/-! ### The invariant through every command -/

theorem State.Inv.inBufSize_le (h : s.Inv) : s.params.inBufSize ≤ 2 ^ 28 := by
  have := params_bounds h.params
  omega

theorem State.Inv.outBufSize_le (h : s.Inv) : s.params.outBufSize ≤ 2 ^ 28 := by
  have := params_bounds h.params
  omega

theorem State.Inv.maxCodeLen_le (h : s.Inv) : s.params.maxCodeLen ≤ 255 := by
  have := params_bounds h.params
  omega

theorem State.Live.freqCommand {s' : State} (h : s.Live) (hb : freqCommand s = .ok s') : s'.Live := by
  rcases freqCommand_cases s with ⟨he, -⟩ | ⟨he, hl⟩ <;> cases he.symm.trans hb
  exact h.setFreq (by rw [total_countBytes (length_input_lt s), s.length_input]; exact hl)

theorem State.Live.buildTreeCommand {s' : State} (h : s.Live) (hb : buildTreeCommand s = .ok s') : s'.Live := by
  rcases buildTreeCommand_cases s with ⟨he, -⟩ | ⟨he, -⟩ | ⟨he, hv, hp⟩ <;> cases he.symm.trans hb
  obtain ⟨c, hc, ht⟩ := h.inv.freq hv
  have hsize := h.inv.inBufSize_le
  rw [hc] at hp ⊢
  rcases buildTree_cases (c := c) (by omega) with ⟨-, h0⟩ | ⟨-, -, hbuilt⟩
  · exact absurd h0 hp
  · exact h.setTree ⟨⟨_, hbuilt.tree⟩, hbuilt.oneParent⟩

theorem State.Live.genCodesCommand {s' : State} (h : s.Live) (hb : genCodesCommand s = .ok s') : s'.Live := by
  rcases genCodesCommand_cases s with ⟨he, -⟩ | ⟨he, -⟩ | ⟨he, hv, hl⟩ <;> cases he.symm.trans hb
  obtain ⟨⟨n, hn⟩, -⟩ := h.inv.tree hv
  exact h.setCode (hn.genCodes_inv (anyCodeLonger_eq_false.2 hl))

theorem State.Live.saveTableCommand {s' : State} (h : s.Live) (hb : saveTableCommand s = .ok s') : s'.Live := by
  rcases saveTableCommand_cases s with ⟨he, -⟩ | ⟨he, -⟩ | ⟨he, -, hl⟩ <;> cases he.symm.trans hb
  exact h.putOutput 0 hl (Nat.zero_le _)

theorem State.Live.loadTableCommand {s' : State} (h : s.Live) (hb : loadTableCommand s = .ok s') : s'.Live := by
  rcases loadTableCommand_cases s with ⟨he, -⟩ | ⟨he, -⟩ | ⟨t, he, -, hp⟩ <;> cases he.symm.trans hb
  obtain ⟨rs, hne, hok, -, rfl, hpf⟩ := (parseTable_eq_ok_iff h.inv.maxCodeLen_le).1 hp
  exact h.setCode (tableInv_codeTableOf hne hok hpf)

/-- A stream that fits OUT_BUF is put out inside it, and its bits fit BIT_LEN. -/
theorem State.Live.putStream (h : s.Live) {bits : Bits} (hl : 1 + ceilDiv bits.length 8 ≤ s.params.outBufSize) :
    (s.putOutput (streamOf bits).bytes (padCount bits.length) bits.length).Live := by
  have hsize := h.inv.outBufSize_le
  refine h.putOutput _ (by rw [length_streamOf_bytes]; exact hl) ?_
  unfold ceilDiv at hl
  omega

theorem State.Live.packCommand {s' : State} (h : s.Live) (hb : packCommand s = .ok s') : s'.Live := by
  rcases packCommand_cases s with ⟨he, -⟩ | ⟨he, -⟩ | ⟨-, -, ⟨he, -⟩ | ⟨he, -⟩ | ⟨he, -, hl⟩⟩ <;>
    cases he.symm.trans hb
  exact h.putStream hl

/-- The bits of an unpacked input fit BIT_LEN. -/
theorem State.Live.unpacked_bits (h : s.Live) (hl : s.inLen.toNat ≤ s.params.inBufSize) {pad : Nat} {bits : Bits}
    (hu : unpackStream s.input = .ok (pad, bits)) : bits.length ≤ 2 ^ 31 := by
  have hsize := h.inv.inBufSize_le
  have hbits := (length_unpackStream hu).2
  rw [s.length_input] at hbits
  omega

theorem State.Live.unpackCommand {s' : State} (h : s.Live) (hb : unpackCommand s = .ok s') : s'.Live := by
  rcases unpackCommand_cases s with ⟨he, -⟩ | ⟨he, -⟩ | ⟨pad, bits, hu, hl, ⟨he, -⟩ | ⟨he, ho⟩⟩ <;>
    cases he.symm.trans hb
  have hbits := (length_unpackStream hu).2
  rw [s.length_input] at hbits
  refine h.putOutput _ ?_ (h.unpacked_bits hl hu)
  rw [length_packMsb] <;> simp only [List.length_append, length_zeros] <;> omega

theorem State.Live.decompressCommand {s' : State} (h : s.Live) (hb : decompressCommand s = .ok s') : s'.Live := by
  rcases decompressCommand_cases s with
    ⟨he, -⟩ | ⟨he, -⟩ | ⟨hl, -, ⟨he, -⟩ | ⟨pad, bits, hu, ⟨he, -⟩ | ⟨ys, -, ⟨he, -⟩ | ⟨he, ho⟩⟩⟩⟩ <;>
    cases he.symm.trans hb
  exact h.putOutput _ ho (h.unpacked_bits hl hu)

theorem State.Live.compressCommand {s' : State} (h : s.Live) (hb : compressCommand s = .ok s') : s'.Live := by
  rcases compressCommand_cases s with ⟨he, -⟩ | ⟨he, -⟩ | ⟨hl, h0, ⟨he, -⟩ | ⟨hlen, ⟨he, -⟩ | ⟨he, ho⟩⟩⟩ <;>
    cases he.symm.trans hb
  have hbuilt := (buildTree_countBytes (input_ne_nil.2 h0) (length_input_lt s)).2
  have hcounts := h.setFreq (c := countBytes s.input)
    (by rw [total_countBytes (length_input_lt s), s.length_input]; exact hl)
  have htree := hcounts.setTree ⟨⟨_, hbuilt.tree⟩, hbuilt.oneParent⟩
  have hcode := htree.setCode (hbuilt.tree.genCodes_inv (anyCodeLonger_eq_false.2 hlen))
  exact hcode.putStream ho

/-- Whatever a command's rule writes satisfies the invariant. -/
theorem State.Live.bodyOf {i : Instr} {s' : State} (h : s.Live) (hb : bodyOf i s = .ok s') : s'.Live := by
  cases i with
  | nop => cases hb; exact h
  | clear => cases hb; exact h.clearTables
  | freq => exact h.freqCommand hb
  | buildTree => exact h.buildTreeCommand hb
  | genCodes => exact h.genCodesCommand hb
  | pack => exact h.packCommand hb
  | unpack => exact h.unpackCommand hb
  | compress => exact h.compressCommand hb
  | decompress => exact h.decompressCommand hb
  | saveTable => exact h.saveTableCommand hb
  | loadTable => exact h.loadTableCommand hb

theorem State.Live.exec {i : Instr} {t : State} (h : s.Live) (hx : exec i s = .next t) : t.Live := by
  rcases exec_next_cases hx with ⟨s', hb, rfl⟩ | ⟨e, -, rfl⟩
  · exact (h.bodyOf hb).complete
  · exact h.fail _ e

theorem State.Inv.engineStep {t : State} (h : s.Inv) (hx : engineStep s = .next t) : t.Inv := by
  rcases engineStep_cases s with he | ⟨w, hr, -, ⟨i, -, he⟩ | he⟩ <;> rw [he] at hx
  · cases hx; exact h
  · exact (State.Live.exec ⟨h, hr⟩ hx).inv
  · cases hx; exact (State.Live.fail ⟨h, hr⟩ noTargets .illegalCommand).inv

/-! ### The invariant through every host access -/

theorem State.Live.acceptCmd (h : s.Live) (w : Word) : (s.acceptCmd w).Live :=
  ⟨{ h.inv with busy := fun _ => ⟨rfl, rfl⟩, reset := fun e => absurd e h.not_low }, h.released⟩

theorem writeCmd_of_idle (w : Word) (hp : s.phase = .idle) : s.writeCmd w = s.acceptCmd w := by
  simp only [State.writeCmd, hp]

theorem writeCmd_of_busy (w : Word) {c : Word} (hp : s.phase = .busy c) :
    s.writeCmd w = { s with status := { s.status with overrun := true } } := by
  simp only [State.writeCmd, hp]

theorem State.Live.writeCmd (h : s.Live) (w : Word) : (s.writeCmd w).Live := by
  cases hp : s.phase with
  | idle => rw [writeCmd_of_idle w hp]; exact h.acceptCmd w
  | busy c =>
    rw [writeCmd_of_busy w hp]
    exact ⟨{ h.inv with reset := fun e => absurd e h.not_low }, h.released⟩

/-- A cleared bit stays 0, so DONE and ERR stay 0 while Busy (R26). -/
theorem State.Live.clearStatus (h : s.Live) (w : Word) : (s.clearStatus w).Live where
  inv :=
    { h.inv with
      busy := fun hb => by
        obtain ⟨hdone, herr⟩ := h.inv.busy hb
        simp [hdone, herr]
      reset := fun e => absurd e h.not_low }
  released := h.released

theorem State.Live.writeReg (h : s.Live) (r : RegSel) (v : Word) : (s.writeReg r v).Live := by
  cases r with
  | cmd => exact h.writeCmd v
  | status => exact h.clearStatus v
  | irqEn => exact ⟨{ h.inv with reset := fun e => absurd e h.not_low }, h.released⟩
  | inLen =>
    simp only [State.writeReg]
    split
    · exact h
    · exact ⟨{ h.inv with reset := fun e => absurd e h.not_low }, h.released⟩
  | _ => exact h

/-- A well-formed buffer write stays inside the buffer (R64, R66). -/
theorem Memory.hostWrite_keeps {m : Memory} {t : Txn} {size : Nat} (v : Word) (hm : m.wf ∧ m.within size)
    (hi : t.offset + t.width ≤ size) :
    (m.writeBytes t.offset (bytesOfWord t.width v)).wf ∧ (m.writeBytes t.offset (bytesOfWord t.width v)).within size :=
  ⟨Memory.writeBytes_wf _ _ hm.1, Memory.writeBytes_within (by simpa using hi) hm.2⟩

theorem State.Live.writeValue (h : s.Live) {t : Txn} (v : Word) (ht : t.wellFormed s.params = true) :
    (s.writeValue t v).Live := by
  obtain ⟨-, -, hi⟩ := Txn.wellFormed_iff.1 ht
  replace hi : t.offset + t.width ≤ s.params.spaceBytes t.space := of_decide_eq_true hi
  cases hs : t.space with
  | reg =>
    simp only [State.writeValue, hs]
    exact h.writeReg _ v
  | inBuf =>
    cases hb : s.busy with
    | true => rw [writeValue_busy v hb (by simp [hs])]; exact h
    | false =>
      rw [hs] at hi
      rw [writeValue_inBuf v hb hs]
      exact ⟨{ h.inv with
        inBuf := Memory.hostWrite_keeps v h.inv.inBuf hi, reset := fun e => absurd e h.not_low }, h.released⟩
  | outBuf =>
    cases hb : s.busy with
    | true => rw [writeValue_busy v hb (by simp [hs])]; exact h
    | false =>
      rw [hs] at hi
      rw [writeValue_outBuf v hb hs]
      exact ⟨{ h.inv with
        outBuf := Memory.hostWrite_keeps v h.inv.outBuf hi, reset := fun e => absurd e h.not_low }, h.released⟩

theorem State.Inv.withInputs (h : s.Inv) (es : List HostEvent) : State.Inv { s with inputs := es } :=
  { h with reset := fun e => { h.reset e with } }

theorem State.Inv.answerWrite (h : s.Inv) : s.answerWrite.Inv := { h with reset := fun e => { h.reset e with } }

theorem State.Inv.answerRead (h : s.Inv) (o : Option Word) : (s.answerRead o).Inv := by
  cases o <;> exact { h with reset := fun e => { h.reset e with } }

theorem State.Inv.perform (h : s.Inv) {t : Txn} (ht : t.wellFormed s.params = true) : (s.perform t).Inv := by
  cases hd : t.dir with
  | read =>
    simp only [State.perform, hd]
    split <;> exact h.answerRead _
  | write v =>
    simp only [State.perform, hd]
    split
    · exact h.answerWrite
    next hr => exact (State.Live.writeValue ⟨h, by simpa using hr⟩ v ht).inv.answerWrite

theorem State.Inv.hostAccess {t : Txn} {s' : State} (h : s.Inv) (hx : hostAccess t s = .next s') : s'.Inv := by
  obtain ⟨ht, rfl⟩ := hostAccess_next hx
  exact h.perform ht

/-! ### The invariant through every step -/

theorem State.Inv.driveReset (h : s.Inv) (level : Bool) : (driveReset level s).Inv := by
  cases level with
  | true => exact { h with reset := nofun }
  | false => exact s.enterReset_atReset.inv h.params

theorem State.Inv.eventStep {e : HostEvent} {s' : State} (h : s.Inv) (hx : eventStep e s = .next s') : s'.Inv := by
  cases e with
  | access t => exact h.hostAccess hx
  | accessAt t =>
    obtain ⟨_, _, -, ha⟩ := hostAccessAt_next hx
    exact h.hostAccess ha
  | resetPin level => cases hx; exact h.driveReset level
  | engine => exact h.engineStep hx

end

/-- Settles O58: a step is a host access, a level of the reset pin or the engine's transition, and each of them keeps
the invariant. -/
theorem everyStepKeepsTheInvariant : Obligations.EveryStepKeepsTheInvariant := by
  intro s t h hx
  cases hi : s.inputs with
  | nil => exact h.engineStep ((step_nil hi).symm.trans hx)
  | cons e rest => exact (h.withInputs rest).eventStep ((step_cons hi).symm.trans hx)

/-! ### Fields of a word given by its value -/

/-- A field of a word given by its value is the value's digits there. -/
theorem extract_ofNat (w n lo len : Nat) (h : lo + len ≤ w) :
    (BitVec.ofNat w n).extractLsb' lo len = BitVec.ofNat len (n / 2 ^ lo) := by
  apply BitVec.eq_of_getLsbD_eq
  intro i hi
  rw [BitVec.getLsbD_extractLsb', BitVec.getLsbD_ofNat, BitVec.getLsbD_ofNat, Nat.testBit_div_two_pow]
  simp [hi, show lo + i < w by omega, Nat.add_comm]

/-- A field reads a value where the value's digits there are the value's. -/
theorem extract_ofNat_eq {w n lo len : Nat} {v : BitVec len} (h : lo + len ≤ w)
    (hv : n / 2 ^ lo % 2 ^ len = v.toNat) : (BitVec.ofNat w n).extractLsb' lo len = v := by
  rw [extract_ofNat w n lo len h]
  exact BitVec.eq_of_toNat_eq (by rw [BitVec.toNat_ofNat, hv])

theorem bitVal_le (b : Bool) (weight : Nat) : bitVal b weight ≤ weight := by
  cases b <;> simp [bitVal]

/-- The value of a bit of a word is a binary digit of the word's value. -/
theorem bitVal_getLsbD (v : Word) (i weight : Nat) : bitVal (v.getLsbD i) weight = v.toNat / 2 ^ i % 2 * weight := by
  rw [BitVec.getLsbD, Nat.testBit_eq_decide_div_mod_eq, bitVal]
  rcases Nat.mod_two_eq_zero_or_one (v.toNat / 2 ^ i) with h | h <;> simp [h]

/-! ### STATUS, IRQ_EN and VALID (R26, R27, R32) -/

/-- The reserved bits of STATUS are 0 (R26). -/
theorem statusWord_reserved (s : State) :
    s.statusWord.extractLsb' 4 4 = 0#4 ∧ s.statusWord.extractLsb' 16 16 = 0#16 := by
  have h0 := bitVal_le s.busy 1
  have h1 := bitVal_le s.status.done 2
  have h2 := bitVal_le s.status.err 4
  have h3 := bitVal_le s.status.overrun 8
  have hc := s.status.errCode.toByte.isLt
  constructor <;> refine extract_ofNat_eq (by decide) ?_ <;> rw [BitVec.toNat_ofNat] <;> omega

theorem irqEnWord_fields (s : State) :
    s.irqEnWord.getLsbD 0 = s.irqEn.doneIE ∧ s.irqEnWord.getLsbD 1 = s.irqEn.errIE ∧
      s.irqEnWord.extractLsb' 2 30 = 0#30 := by
  unfold State.irqEnWord
  cases s.irqEn.doneIE <;> cases s.irqEn.errIE <;> decide

theorem validWord_fields (s : State) :
    s.validWord.getLsbD 0 = s.valid.freq ∧ s.validWord.getLsbD 1 = s.valid.tree ∧
      s.validWord.getLsbD 2 = s.valid.table ∧ s.validWord.extractLsb' 3 29 = 0#29 := by
  unfold State.validWord
  cases s.valid.freq <;> cases s.valid.tree <;> cases s.valid.table <;> decide

/-- Settles O14: the fields of the three words, and the rows of R200 for ERR_CODE. -/
theorem statusWordLayout : Obligations.StatusWordLayout := by
  intro s
  obtain ⟨hbusy, hdone, herr, hover, hcode⟩ := statusWord_fields s
  obtain ⟨hlow, hhigh⟩ := statusWord_reserved s
  obtain ⟨hdie, heie, hires⟩ := irqEnWord_fields s
  refine ⟨hbusy, hdone, herr, hover, hlow, hhigh, ?_, hdie, heie, hires, validWord_fields s⟩
  rw [hcode]
  cases s.status.errCode <;> rfl

/-! ### Register writes (R25 to R28, R45) -/

/-- A register write out of reset leaves what `writeReg` makes of the state, acknowledged (R63). -/
theorem hostAccess_regWrite_eq {s t : State} {off : Nat} {v : Word} (hr : s.rstLow = false) (h4 : off % 4 = 0)
    (h : off < 0x8000) (ht : s.writeReg (regAt off) v = t) :
    hostAccess { dir := .write v, space := .reg, offset := off, width := 4 } s = .next t.answerWrite := by
  rw [hostAccess_regWrite hr h4 h, ht]

/-- The same where the write is the oldest pending input: it is the step (R76). -/
theorem step_regWrite {s t : State} {off : Nat} {v : Word} {rest : List HostEvent} (hr : s.rstLow = false)
    (hi : s.inputs = .access { dir := .write v, space := .reg, offset := off, width := 4 } :: rest)
    (h4 : off % 4 = 0) (h : off < 0x8000) (ht : State.writeReg { s with inputs := rest } (regAt off) v = t) :
    step s = .next t.answerWrite :=
  (step_cons hi).trans (hostAccess_regWrite_eq hr h4 h ht)

/-- Settles O13: the write reaches CMD, which takes it in Idle and sets CMD_OVERRUN while Busy. -/
theorem cmdWriteStartsOrOverruns : Obligations.CmdWriteStartsOrOverruns := fun _ w _ hr hi =>
  ⟨fun hp => step_regWrite hr hi (by decide) (by decide) (writeCmd_of_idle w hp),
    fun _ hp => step_regWrite hr hi (by decide) (by decide) (writeCmd_of_busy w hp)⟩

theorem writeReg_inLen (s : State) (v : Word) :
    s.writeReg .inLen v = { s with inLen := if s.busy then s.inLen else v } := by
  simp only [State.writeReg]
  split <;> rfl

/-- Settles O15: the write reaches STATUS, IRQ_EN or IN_LEN. -/
theorem controlRegisterWrites : Obligations.ControlRegisterWrites := by
  intro s v off rest hr hi
  refine ⟨?_, ?_, ?_⟩
  · rintro rfl
    exact step_regWrite hr hi (by decide) (by decide) rfl
  · rintro rfl
    exact step_regWrite hr hi (by decide) (by decide) rfl
  · rintro rfl
    exact step_regWrite hr hi (by decide) (by decide) (writeReg_inLen _ v)

/-- A write of STATUS with no 1 in bits [3:1] clears nothing (R26, R45). -/
theorem clearStatus_of_zero (s : State) {v : Word} (h : v.extractLsb' 1 3 = 0#3) : s.clearStatus v = s := by
  have hbit : ∀ i < 3, v.getLsbD (1 + i) = false := by
    intro i hi
    have hfield := BitVec.getLsbD_extractLsb' 1 3 v i
    rw [h] at hfield
    simpa [hi] using hfield.symm
  rw [State.clearStatus, hbit 0 (by decide), hbit 1 (by decide), hbit 2 (by decide)]
  simp

/-- IRQ_EN keeps bits 0 and 1 of a written word and no other (R27, R45). -/
theorem irqEnWord_writeReg (s : State) (v : Word) : (s.writeReg .irqEn v).irqEnWord = v &&& 3#32 := by
  apply BitVec.eq_of_toNat_eq
  change (BitVec.ofNat 32 (bitVal (v.getLsbD 0) 1 + bitVal (v.getLsbD 1) 2)).toNat = v.toNat &&& 3
  have hmask : v.toNat &&& 3 = v.toNat % 4 := Nat.and_two_pow_sub_one_eq_mod v.toNat 2
  rw [hmask, bitVal_getLsbD, bitVal_getLsbD, BitVec.toNat_ofNat]
  omega

/-- A register read out of reset that answers a word (R73). -/
theorem hostAccess_regRead_some {s : State} {off : Nat} {v : Word} (hr : s.rstLow = false) (h4 : off % 4 = 0)
    (h : off < 0x8000) (hv : s.readReg (regAt off) = some v) :
    hostAccess { dir := .read, space := .reg, offset := off, width := 4 } s = .next { s with resp := .read v } := by
  rw [hostAccess_regRead hr h4 h, hv]
  rfl

/-- Settles O16: the register map sends every such offset to a selector that ignores the write or reads 0. -/
theorem reservedAndReadOnlyIgnoreWrites : Obligations.ReservedAndReadOnlyIgnoreWrites := by
  intro s off hr h4 h
  refine ⟨?_, ?_, ?_, ?_⟩
  · intro v h1 h2 h3 h5
    exact hostAccess_regWrite_eq hr h4 h (writeReg_ignored s off v h1 h2 h3 h5)
  · intro hres
    refine hostAccess_regRead_some hr h4 h ?_
    rw [regAt_reserved hres]
    exact readReg_shown (.inr rfl)
  · rintro v rfl hv
    exact hostAccess_regWrite_eq hr h4 h (clearStatus_of_zero s hv)
  · rintro v rfl
    exact ⟨_, hostAccess_regWrite hr h4 h, irqEnWord_writeReg s v, rfl⟩

/-! ### Register reads in Idle (R24 to R41) -/

/-- Settles O1: the reset state is at the values of R50, and its NODE and CODE entries are Unspec. -/
theorem resetLeavesTheTableOfR50 : Obligations.ResetLeavesTheTableOfR50 := by
  refine ⟨State.reset_atReset, rfl, rfl, by decide, rfl, rfl, rfl, ?_⟩
  intro off hlo hwin
  rcases hwin with h | ⟨hlo', h⟩ | ⟨hlo', h⟩
  · rw [regAt_codeLen hlo h, readReg_shown (.inl rfl)]
    exact congrArg codeLenWord (at256_replicate _ _)
  · rw [regAt_codeBits hlo' h, readReg_shown (.inl rfl)]
    exact congrArg (codeBitsWord _) (at256_replicate _ _)
  · rw [regAt_node hlo' h]
    split
    · rw [readReg_shown (.inl rfl)]
      exact congrArg nodeWord0 (entry_unspec _ _ _)
    · rw [readReg_shown (.inl rfl)]
      exact congrArg nodeWord1 (entry_unspec _ _ _)

/-! ### The table windows in Idle (R36, R39, R41) -/

/-- A register read out of reset that answers `anyval` draws a fresh free value (R75). -/
theorem hostAccess_regRead_none {s : State} {off : Nat} (hr : s.rstLow = false) (h4 : off % 4 = 0) (h : off < 0x8000)
    (hv : s.readReg (regAt off) = none) :
    hostAccess { dir := .read, space := .reg, offset := off, width := 4 } s =
      .next { s with resp := .read (Config.freeWord s.draws), draws := s.draws + 1 } := by
  rw [hostAccess_regRead hr h4 h, hv]
  rfl

/-- Word 1 of a Leaf: LEAF is 1 and SYMBOL is the symbol (R39). -/
theorem leafWord_fields (x : Byte) :
    (BitVec.ofNat 32 (2 ^ 31 + x.toNat)).getLsbD 31 = true ∧
      (BitVec.ofNat 32 (2 ^ 31 + x.toNat)).extractLsb' 8 23 = 0#23 ∧
      (BitVec.ofNat 32 (2 ^ 31 + x.toNat)).extractLsb' 0 8 = x := by
  have hx := x.isLt
  refine ⟨?_, extract_ofNat_eq (by decide) ?_, extract_ofNat_eq (by decide) ?_⟩
  · have htop : (2 ^ 31 + x.toNat) / 2 ^ 31 % 2 = 1 := by omega
    rw [BitVec.getLsbD_ofNat, Nat.testBit_eq_decide_div_mod_eq, htop]
    rfl
  · rw [BitVec.toNat_ofNat]
    omega
  · omega

/-- Word 1 of an Internal entry: LEAF is 0, RIGHT and LEFT are the children, SYMBOL is 0 (R39). -/
theorem internalWord_fields (l r : BitVec 9) :
    (BitVec.ofNat 32 (r.toNat * 2 ^ 17 + l.toNat * 2 ^ 8)).extractLsb' 26 6 = 0#6 ∧
      (BitVec.ofNat 32 (r.toNat * 2 ^ 17 + l.toNat * 2 ^ 8)).extractLsb' 17 9 = r ∧
      (BitVec.ofNat 32 (r.toNat * 2 ^ 17 + l.toNat * 2 ^ 8)).extractLsb' 8 9 = l ∧
      (BitVec.ofNat 32 (r.toNat * 2 ^ 17 + l.toNat * 2 ^ 8)).extractLsb' 0 8 = 0#8 := by
  have hl := l.isLt
  have hr := r.isLt
  refine ⟨extract_ofNat_eq (by decide) ?_, extract_ofNat_eq (by decide) ?_, extract_ofNat_eq (by decide) ?_,
    extract_ofNat_eq (by decide) ?_⟩
  · rw [BitVec.toNat_ofNat]
    omega
  · omega
  · omega
  · rw [BitVec.toNat_ofNat]
    omega

/-- Word `k` of a CODE_BITS window holds bits `32 k` to `32 k + 31` of the codeword, the first at the top (R41). -/
theorem codeBitsWord_bit (c : Bits) (k : Nat) :
    ∃ w, codeBitsWord k (.word c) = some w ∧ ∀ j < 32, w.getLsbD (31 - j) = c.getD (32 * k + j) false := by
  refine ⟨_, rfl, fun j hj => ?_⟩
  have hbit := testBit_bitsValue ((List.range 32).map fun j => c.getD (32 * k + j) false) 0 j (by simpa using hj)
  rw [List.length_map, List.length_range] at hbit
  rw [BitVec.getLsbD_ofNat, bitsValue, hbit]
  simp [hj, show 31 - j < 32 by omega]

section
variable {s : State} (hb : s.busy = false)
include hb

theorem readReg_freqWindow (x : Byte) : s.readReg (regAt (0x400 + 4 * x.toNat)) = some (s.freq.countOf x) := by
  have hx := x.isLt
  rw [regAt_freq (by omega) (by omega), readReg_shown (.inl hb), State.regValue,
    show (0x400 + 4 * x.toNat - 0x400) / 4 = x.toNat by omega, BitVec.ofNat_toNat, BitVec.setWidth_eq]

theorem readReg_codeLenWindow (x : Byte) :
    s.readReg (regAt (0x800 + 4 * x.toNat)) = codeLenWord (at256 s.code x) := by
  have hx := x.isLt
  rw [regAt_codeLen (by omega) (by omega), readReg_shown (.inl hb), State.regValue,
    show (0x800 + 4 * x.toNat - 0x800) / 4 = x.toNat by omega, BitVec.ofNat_toNat, BitVec.setWidth_eq]

theorem readReg_codeBitsWindow (x : Byte) {k : Nat} (hk : k < 8) :
    s.readReg (regAt (0x1000 + 32 * x.toNat + 4 * k)) = codeBitsWord k (at256 s.code x) := by
  have hx := x.isLt
  rw [regAt_codeBits (by omega) (by omega), readReg_shown (.inl hb), State.regValue,
    show (0x1000 + 32 * x.toNat + 4 * k - 0x1000) / 32 = x.toNat by omega,
    show (0x1000 + 32 * x.toNat + 4 * k - 0x1000) % 32 / 4 = k by omega, BitVec.ofNat_toNat, BitVec.setWidth_eq]

theorem readReg_node0Window {i : Nat} (hi : i < 511) :
    s.readReg (regAt (0x4000 + 8 * i)) = nodeWord0 (s.arena.entry i) := by
  rw [regAt_node (by omega) (by omega), if_pos (by omega), readReg_shown (.inl hb), State.regValue,
    show (0x4000 + 8 * i - 0x4000) / 8 = i by omega]

theorem readReg_node1Window {i : Nat} (hi : i < 511) :
    s.readReg (regAt (0x4004 + 8 * i)) = nodeWord1 (s.arena.entry i) := by
  rw [regAt_node (by omega) (by omega), if_neg (by omega), readReg_shown (.inl hb), State.regValue,
    show (0x4004 + 8 * i - 0x4000) / 8 = i by omega]

end

/-- Settles O25: the register map gives each offset its selector, and each window its entry. -/
theorem windowsShowTheTables : Obligations.WindowsShowTheTables := by
  intro s hb
  refine ⟨fun hr => ⟨?_, fun off h4 h => ⟨fun v hv => hostAccess_regRead_some hr h4 h hv,
    hostAccess_regRead_none hr h4 h⟩⟩, readReg_freqWindow hb, ?_, ?_, ?_, ?_, ?_⟩
  · have hreg : ∀ off v, off % 4 = 0 → off < 0x8000 → s.regValue (regAt off) = some v →
        hostAccess { dir := .read, space := .reg, offset := off, width := 4 } s = .next { s with resp := .read v } :=
      fun off v h4 h hv => hostAccess_regRead_some hr h4 h ((readReg_shown (.inl hb)).trans hv)
    simp only [List.forall_mem_cons, List.not_mem_nil, false_implies, implies_true, and_true]
    refine ⟨?_, ?_, ?_, ?_, ?_, ?_, ?_, ?_, ?_, ?_, ?_, ?_, ?_, ?_, ?_⟩ <;>
      exact hreg _ _ (by decide) (by decide) rfl
  · intro i hi x f he
    rw [readReg_node0Window hb hi, readReg_node1Window hb hi, he]
    exact ⟨rfl, _, rfl, leafWord_fields x⟩
  · intro i hi f l r he
    rw [readReg_node0Window hb hi, readReg_node1Window hb hi, he]
    exact ⟨rfl, _, rfl, internalWord_fields l r⟩
  · intro i hi he
    rw [readReg_node0Window hb hi, readReg_node1Window hb hi, he]
    exact ⟨rfl, rfl⟩
  · intro x c hc
    rw [readReg_codeLenWindow hb, hc]
    refine ⟨rfl, fun k hk => ?_⟩
    rw [readReg_codeBitsWindow hb x hk, hc]
    exact codeBitsWord_bit c k
  · intro x hc
    rw [readReg_codeLenWindow hb, hc]
    refine ⟨rfl, fun k hk => ?_⟩
    rw [readReg_codeBitsWindow hb x hk, hc]
    rfl

/-! ### The derived registers (R33 to R35) -/

theorem nsym_of_valid {s : State} (hv : s.valid.table = true) : s.nsym = (codewords s.code).length := by
  rw [State.nsym, if_pos hv]

theorem maxLen_of_valid {s : State} (hv : s.valid.table = true) :
    s.maxLen = ((codewords s.code).map fun p => p.2.length).foldr max 0 := by
  rw [State.maxLen, if_pos hv]

/-- MAX_LEN bounds the length of every codeword (R34). -/
theorem length_bitsAt_le_maxLen {s : State} (hv : s.valid.table = true) (x : Byte) :
    (bitsAt s.code x).length ≤ s.maxLen := by
  by_cases hx : bitsAt s.code x = []
  · rw [hx]
    exact Nat.zero_le _
  · rw [maxLen_of_valid hv]
    exact List.le_max_of_le (List.mem_map.2 ⟨(x, _), mem_codewords.2 ⟨rfl, hx⟩, rfl⟩) le_rfl

/-- MAX_LEN is the length of some codeword of a table that has one (R34). -/
theorem exists_length_bitsAt_eq_maxLen {s : State} (hv : s.valid.table = true) (hne : ∃ x : Byte, bitsAt s.code x ≠ []) :
    ∃ x : Byte, (bitsAt s.code x).length = s.maxLen := by
  have hmap : ((codewords s.code).map fun p => p.2.length) ≠ [] := by simpa using codewords_ne_nil hne
  obtain ⟨p, hp, hlen⟩ := List.mem_map.1 (List.maximum_mem (List.foldr_max_of_ne_nil hmap).symm)
  refine ⟨p.1, ?_⟩
  rw [(mem_codewords.1 hp).1, hlen, maxLen_of_valid hv]
  rfl

/-- TREE_INFO of a valid tree: ROOT in [8:0], NODES in [24:16], 0 elsewhere (R35). -/
theorem treeInfoWord_fields {s : State} (hv : s.valid.tree = true) :
    s.treeInfoWord.extractLsb' 0 9 = s.arena.root ∧ s.treeInfoWord.extractLsb' 9 7 = 0#7 ∧
      s.treeInfoWord.extractLsb' 16 9 = s.arena.nodes ∧ s.treeInfoWord.extractLsb' 25 7 = 0#7 := by
  have hroot := s.arena.root.isLt
  have hnodes := s.arena.nodes.isLt
  rw [State.treeInfoWord, if_pos hv]
  refine ⟨extract_ofNat_eq (by decide) ?_, extract_ofNat_eq (by decide) ?_, extract_ofNat_eq (by decide) ?_,
    extract_ofNat_eq (by decide) ?_⟩
  · omega
  · rw [BitVec.toNat_ofNat]
    omega
  · omega
  · rw [BitVec.toNat_ofNat]
    omega

/-- Settles O26: the codewords listed are those of the symbols that have one, and the tree's fields stand in
TREE_INFO. -/
theorem derivedRegistersDescribeTheTables : Obligations.DerivedRegistersDescribeTheTables := by
  intro s hs
  refine ⟨fun hv => ?_, fun hv => ?_, treeInfoWord_fields, fun hv => ?_⟩
  · have ht := hs.table hv
    obtain ⟨x, hx⟩ := exists_length_bitsAt_eq_maxLen hv ht.someCodeword
    refine ⟨?_, ?_, ?_, length_bitsAt_le_maxLen hv, ⟨x, hx⟩, ?_⟩
    · rw [nsym_of_valid hv, length_codewords]
    · rw [nsym_of_valid hv]
      exact List.length_pos_iff.2 (codewords_ne_nil ht.someCodeword)
    · rw [nsym_of_valid hv]
      exact length_codewords_le s.code
    · rw [← hx]
      exact (ht.lengths x).trans hs.maxCodeLen_le
  · simp [State.nsym, State.maxLen, hv]
  · simp [State.treeInfoWord, hv]

/-! ### COMPRESS and its input (R48, R175) -/

/-- What COMPRESS makes of its operands, before it is written: a function of the parameters, IN_LEN and the input bytes
alone (R175). -/
def compressResult (p : Params) (inLen : Word) (x : List Byte) : Except ErrCode Compressed :=
  if p.inBufSize < inLen.toNat then .error .inputTooLong
  else if inLen = 0#32 then .error .emptyInput
  else compressStages p x

/-- The four results of COMPRESS, written (R175). -/
def State.putCompressed (s : State) (c : Compressed) : State :=
  (((s.setFreq c.counts).setTree c.tree).setCode c.table).putOutput c.stream.bytes c.stream.pad c.stream.bits

/-- COMPRESS computes its result from its operands alone, then writes it. -/
theorem compressCommand_eq_map (s : State) :
    compressCommand s = (compressResult s.params s.inLen s.input).map s.putCompressed := by
  simp only [compressCommand, compressResult, inputTooLong_iff]
  split
  · rfl
  · split
    · rfl
    · cases compressStages s.params s.input <;> rfl

/-- The input is the bytes of IN_BUF below IN_LEN (R94). -/
theorem input_congr {s s' : State} (hl : s.inLen = s'.inLen) (h : ∀ a < s.inLen.toNat, s.inBuf.read a = s'.inBuf.read a) :
    s.input = s'.input := by
  rw [State.input, State.input, ← hl]
  exact Memory.readBytes_congr fun i hi => by simpa using h i hi

/-- The same bytes written to two buffers read back the same (R66). -/
theorem Memory.read_writeBytes_same (m m' : Memory) {bytes : List Byte} {a : Nat} (h : a < bytes.length) :
    (m.writeBytes 0 bytes).read a = (m'.writeBytes 0 bytes).read a := by
  rw [Memory.read_writeBytes, Memory.read_writeBytes, dif_pos (by omega), dif_pos (by omega)]

/-- Settles O51: equal operands give one result, and all COMPRESS writes comes from it. -/
theorem compressDependsOnItsInputAlone : Obligations.CompressDependsOnItsInputAlone := by
  intro s s' t t' hp hl hb hx hx'
  rw [exec_eq_finish] at hx hx'
  cases hx
  cases hx'
  simp only [bodyOf, compressCommand_eq_map]
  rw [← hp, ← hl, ← input_congr hl hb]
  cases compressResult s.params s.inLen s.input with
  | error e => exact ⟨rfl, rfl, rfl, rfl, rfl, rfl, nofun⟩
  | ok c =>
    refine ⟨rfl, rfl, rfl, rfl, rfl, rfl, fun _ => ⟨rfl, rfl, rfl, fun a ha => ?_⟩⟩
    have hlen : a < c.stream.bytes.length := by
      refine lt_of_lt_of_le ha ?_
      change (BitVec.ofNat 32 c.stream.bytes.length).toNat ≤ _
      rw [BitVec.toNat_ofNat]
      exact Nat.mod_le _ _
    exact Memory.read_writeBytes_same s.outBuf s'.outBuf hlen

end Sys2Proof.Machine

namespace Sys2Proof.Machine

/-! The memory family (20_memory.md): which accesses fault (R63, R64), the apertures (R62, R81), buffer reads and writes
(R64, R65), what reads and accesses while Busy leave alone (R73 to R75), and the frame and the operands of commands
(R66). -/

/-! ### Which accesses fault (R63, R64) -/

/-- An access in an aperture that is not well formed is a bus error (R63, R64). -/
theorem hostAccess_malformed {t : Txn} {s : State} (ha : t.outsideApertures = false)
    (hw : ¬ t.wellFormed s.params = true) : ∃ why, hostAccess t s = .fault (.busError why) := by
  rcases hostAccess_cases t s with ⟨h, -⟩ | ⟨-, -, h⟩ | ⟨h, -⟩
  · rw [ha] at h; cases h
  · exact h
  · exact absurd h hw

/-- A register access below 0x8000 is well formed exactly if it is an aligned 32-bit word (R63). -/
theorem Txn.wellFormed_reg_iff {p : Params} {t : Txn} (hs : t.space = .reg) (ho : t.offset < 0x8000) :
    t.wellFormed p = true ↔ t.width = 4 ∧ t.offset % 4 = 0 := by
  simp only [Txn.wellFormed_iff, Txn.widthFits, Txn.aligned, Txn.inside, Params.spaceBytes, Config.regBytes, hs,
    beq_iff_eq, decide_eq_true_eq]
  constructor
  · rintro ⟨hw, ha, -⟩
    rw [hw] at ha
    exact ⟨hw, ha⟩
  · rintro ⟨hw, ha⟩
    rw [hw]
    exact ⟨rfl, ha, by omega⟩

/-- A buffer access is well formed exactly if its width is 1, 2 or 4, it is aligned, and it ends inside the buffer
(R64). -/
theorem Txn.wellFormed_buffer_iff {p : Params} {t : Txn} (hs : t.space ≠ .reg) :
    t.wellFormed p = true ↔
      (t.width = 1 ∨ t.width = 2 ∨ t.width = 4) ∧ t.offset % t.width = 0 ∧ t.offset + t.width ≤ p.spaceBytes t.space := by
  have hfits : t.widthFits = t.widthOk := by
    unfold Txn.widthFits
    split
    next h => exact absurd h hs
    next => rfl
    next => rfl
  simp only [Txn.wellFormed_iff, hfits, Txn.widthOk, Txn.aligned, Txn.inside, Bool.or_eq_true, beq_iff_eq,
    decide_eq_true_eq, or_assoc]

theorem Txn.outsideApertures_buffer {t : Txn} (hs : t.space ≠ .reg) : t.outsideApertures = false := by
  unfold Txn.outsideApertures
  split
  next h => exact absurd h hs
  next => rfl
  next => rfl

theorem Txn.outsideApertures_reg {t : Txn} (hs : t.space = .reg) (ho : t.offset < 0x8000) :
    t.outsideApertures = false := by
  simpa only [Txn.outsideApertures, hs, decide_eq_false_iff_not, Nat.not_le] using ho

/-- Settles O17: below 0x8000 the aligned 32-bit words are the well-formed register accesses. -/
theorem registerAccessFaults : Obligations.RegisterAccessFaults := by
  intro s t hs ho
  have hiff := Txn.wellFormed_reg_iff (p := s.params) hs ho
  refine ⟨fun h => ?_, fun hw ha => ⟨_, hostAccess_wellFormed (hiff.2 ⟨hw, ha⟩)⟩⟩
  refine hostAccess_malformed (Txn.outsideApertures_reg hs ho) fun hwf => ?_
  obtain ⟨hw, ha⟩ := hiff.1 hwf
  exact h.elim (· hw) (· ha)

/-- Settles O18: the condition is that the access is well formed, for either buffer. -/
theorem bufferAccessFaults : Obligations.BufferAccessFaults := by
  intro s t size hsize
  have hbuffer : t.space ≠ .reg ∧ s.params.spaceBytes t.space = size := by
    rcases hsize with ⟨hs, rfl⟩ | ⟨hs, rfl⟩ <;> rw [hs] <;> exact ⟨nofun, rfl⟩
  obtain ⟨hs, rfl⟩ := hbuffer
  split
  next h => exact ⟨_, hostAccess_wellFormed ((Txn.wellFormed_buffer_iff hs).2 h)⟩
  next h => exact hostAccess_malformed (Txn.outsideApertures_buffer hs) fun hw => h ((Txn.wellFormed_buffer_iff hs).1 hw)

/-! ### The apertures (R62, R81) -/

theorem Params.apart_iff {a n b m : Nat} : Params.apart a n b m = true ↔ a + n ≤ b ∨ b + m ≤ a := by
  simp [Params.apart]

/-- The three ranges do not overlap (R62). -/
theorem Params.wellFormed_apart {p : Params} (h : p.wellFormed = true) :
    (p.regBase + 0x8000 ≤ p.inBase ∨ p.inBase + p.inBufSize ≤ p.regBase) ∧
    (p.regBase + 0x8000 ≤ p.outBase ∨ p.outBase + p.outBufSize ≤ p.regBase) ∧
    (p.inBase + p.inBufSize ≤ p.outBase ∨ p.outBase + p.outBufSize ≤ p.inBase) := by
  simp only [Params.wellFormed, Bool.and_eq_true, Params.apart_iff] at h
  obtain ⟨⟨⟨-, hri⟩, hro⟩, hio⟩ := h
  exact ⟨hri, hro, hio⟩

theorem hostAccessAt_of_some {t : AddrTxn} {s : State} {space : Space} {off : Nat}
    (h : apertureOf s.params t.addr = some (space, off)) :
    hostAccessAt t s = hostAccess { dir := t.dir, space := space, offset := off, width := t.width } s := by
  simp only [hostAccessAt, h]

theorem hostAccessAt_of_none {t : AddrTxn} {s : State} (h : apertureOf s.params t.addr = none) :
    hostAccessAt t s = .refused .outsideApertures := by
  simp only [hostAccessAt, h]

theorem apertureOf_reg (p : Params) {off : Nat} (ho : off < 0x8000) :
    apertureOf p (p.regBase + off) = some (.reg, off) := by
  rw [apertureOf, Config.regBytes, if_pos (by omega), Nat.add_sub_cancel_left]

theorem apertureOf_inBuf {p : Params} (hp : p.wellFormed = true) {off : Nat} (ho : off < p.inBufSize) :
    apertureOf p (p.inBase + off) = some (.inBuf, off) := by
  have hapart := Params.wellFormed_apart hp
  rw [apertureOf, Config.regBytes, if_neg (by omega), if_pos (by omega), Nat.add_sub_cancel_left]

theorem apertureOf_outBuf {p : Params} (hp : p.wellFormed = true) {off : Nat} (ho : off < p.outBufSize) :
    apertureOf p (p.outBase + off) = some (.outBuf, off) := by
  have hapart := Params.wellFormed_apart hp
  rw [apertureOf, Config.regBytes, if_neg (by omega), if_neg (by omega), if_pos (by omega), Nat.add_sub_cancel_left]

theorem apertureOf_outside {p : Params} {addr : Nat} (hr : addr < p.regBase ∨ p.regBase + 0x8000 ≤ addr)
    (hi : addr < p.inBase ∨ p.inBase + p.inBufSize ≤ addr) (ho : addr < p.outBase ∨ p.outBase + p.outBufSize ≤ addr) :
    apertureOf p addr = none := by
  rw [apertureOf, Config.regBytes, if_neg (by omega), if_neg (by omega), if_neg (by omega)]

/-- Settles O19: the ranges are apart, so an address inside one selects it. -/
theorem addressesSelectApertures : Obligations.AddressesSelectApertures := by
  intro s t hp
  refine ⟨fun off ho ha => hostAccessAt_of_some ?_, fun off ho ha => hostAccessAt_of_some ?_,
    fun off ho ha => hostAccessAt_of_some ?_, fun hr hi ho => hostAccessAt_of_none (apertureOf_outside hr hi ho)⟩
  · rw [ha, apertureOf_reg _ ho]
  · rw [ha, apertureOf_inBuf hp ho]
  · rw [ha, apertureOf_outBuf hp ho]

/-! ### Buffer writes in Idle (R64, R65) -/

/-- The bytes a host write stores, least significant first (R64). -/
theorem Memory.read_hostWrite (m : Memory) (off width : Nat) (v : Word) {k : Nat} (hk : k < width) :
    (m.writeBytes off (bytesOfWord width v)).read (off + k) = v.extractLsb' (8 * k) 8 := by
  rw [Memory.read_writeBytes, dif_pos (by rw [length_bytesOfWord]; omega), getElem_bytesOfWord, Nat.add_sub_cancel_left]

theorem Memory.read_hostWrite_outside (m : Memory) {off width a : Nat} (v : Word) (h : a < off ∨ off + width ≤ a) :
    (m.writeBytes off (bytesOfWord width v)).read a = m.read a :=
  Memory.read_writeBytes_outside (by rwa [length_bytesOfWord])

/-- The step of a well-formed write out of reset (R76). -/
theorem step_write {s : State} {t : Txn} {v : Word} {rest : List HostEvent} (hr : s.rstLow = false)
    (hd : t.dir = .write v) (hw : t.wellFormed s.params = true) (hi : s.inputs = .access t :: rest) :
    step s = .next (State.writeValue { s with inputs := rest } t v).answerWrite := by
  rw [step_cons hi, ← perform_write (s := { s with inputs := rest }) hr hd]
  exact hostAccess_wellFormed hw

/-- Settles O20: the write stores the bytes of the word in the one buffer it names. -/
theorem bufferWriteIsLittleEndian : Obligations.BufferWriteIsLittleEndian := by
  intro s t v rest hr hp hd hs hw hi
  have hidle : State.busy { s with inputs := rest } = false := busy_of_idle hp
  cases hsp : t.space with
  | reg => exact absurd hsp hs
  | inBuf =>
    refine ⟨s.inBuf.writeBytes t.offset (bytesOfWord t.width v), s.outBuf, ?_, fun _ => ⟨?_, ?_, fun _ => rfl⟩, nofun⟩
    · rw [step_write hr hd hw hi, writeValue_inBuf v hidle hsp]
      rfl
    · exact fun k hk => s.inBuf.read_hostWrite t.offset t.width v hk
    · exact fun a ha => s.inBuf.read_hostWrite_outside v ha
  | outBuf =>
    refine ⟨s.inBuf, s.outBuf.writeBytes t.offset (bytesOfWord t.width v), ?_, nofun, fun _ => ⟨?_, ?_, fun _ => rfl⟩⟩
    · rw [step_write hr hd hw hi, writeValue_outBuf v hidle hsp]
      rfl
    · exact fun k hk => s.outBuf.read_hostWrite t.offset t.width v hk
    · exact fun a ha => s.outBuf.read_hostWrite_outside v ha

/-! ### Reads (R64, R73, R75) -/

/-- A well-formed read out of reset that answers a word. -/
theorem hostAccess_read_some {s : State} {t : Txn} {v : Word} (hr : s.rstLow = false) (hd : t.dir = .read)
    (hw : t.wellFormed s.params = true) (hv : s.readValue t = some v) :
    hostAccess t s = .next { s with resp := .read v } := by
  rw [hostAccess_wellFormed hw, perform_read hr hd, hv]
  rfl

/-- A well-formed read out of reset that answers `anyval`. -/
theorem hostAccess_read_none {s : State} {t : Txn} (hr : s.rstLow = false) (hd : t.dir = .read)
    (hw : t.wellFormed s.params = true) (hv : s.readValue t = none) :
    hostAccess t s = .next { s with resp := .read (Config.freeWord s.draws), draws := s.draws + 1 } := by
  rw [hostAccess_wellFormed hw, perform_read hr hd, hv]
  rfl

theorem readValue_inBuf (s : State) {t : Txn} (hs : t.space = .inBuf) :
    s.readValue t = some (wordOfBytes (s.inBuf.readBytes t.offset t.width)) := by
  simp only [State.readValue, hs]

theorem readValue_outBuf_idle {s : State} {t : Txn} (hb : s.busy = false) (hs : t.space = .outBuf) :
    s.readValue t = some (wordOfBytes (s.outBuf.readBytes t.offset t.width)) := by
  simp only [State.readValue, hs, hb, Bool.false_eq_true, if_false]

theorem readValue_outBuf_busy {s : State} {t : Txn} (hb : s.busy = true) (hs : t.space = .outBuf) :
    s.readValue t = none := by
  simp only [State.readValue, hs, hb, if_true]

/-- The word of up to four bytes read from a buffer: each byte in its place, and nothing above them (R64). -/
theorem Memory.wordOfBytes_readBytes (m : Memory) (off : Nat) {width : Nat} (hw : width ≤ 4) :
    (∀ k < width, (wordOfBytes (m.readBytes off width)).extractLsb' (8 * k) 8 = m.read (off + k)) ∧
      (wordOfBytes (m.readBytes off width)).toNat < 2 ^ (8 * width) := by
  have hlen := m.length_readBytes off width
  refine ⟨fun k hk => ?_, ?_⟩
  · rw [extract_wordOfBytes (by omega) k (by omega), Memory.getElem_readBytes]
  · simpa only [hlen] using wordOfBytes_lt (m.readBytes off width)

theorem Txn.width_le {p : Params} {t : Txn} (hs : t.space ≠ .reg) (hw : t.wellFormed p = true) : t.width ≤ 4 := by
  obtain ⟨hwidth, -, -⟩ := (Txn.wellFormed_buffer_iff hs).1 hw
  omega

/-- Settles O21: the read answers the word of the bytes it covers. -/
theorem bufferReadIsLittleEndian : Obligations.BufferReadIsLittleEndian := by
  intro s t hr hd hw
  refine ⟨fun hs => ?_, fun hs hp => ?_⟩ <;> have hle := Txn.width_le (by rw [hs]; nofun) hw
  · exact ⟨_, hostAccess_read_some hr hd hw (readValue_inBuf s hs), s.inBuf.wordOfBytes_readBytes t.offset hle⟩
  · exact ⟨_, hostAccess_read_some hr hd hw (readValue_outBuf_idle (busy_of_idle hp) hs),
      s.outBuf.wordOfBytes_readBytes t.offset hle⟩

theorem answerRead_eq (s : State) (o : Option Word) :
    s.answerRead o = { s with resp := (s.answerRead o).resp, draws := (s.answerRead o).draws } := by
  cases o <;> rfl

/-- A read, in either phase and held in reset, changes the port's response and the draw counter only (R73). -/
theorem perform_read_eq (s : State) {t : Txn} (hd : t.dir = .read) :
    s.perform t = { s with resp := (s.perform t).resp, draws := (s.perform t).draws } := by
  simp only [State.perform, hd]
  split <;> exact answerRead_eq s _

/-- Settles O22: a read that is answered is `perform` of a read. -/
theorem readsHaveNoSideEffect : Obligations.ReadsHaveNoSideEffect := by
  intro s t x hd h
  obtain ⟨-, rfl⟩ := hostAccess_next h
  exact perform_read_eq s hd

/-! ### The host while a command runs (R74, R75) -/

/-- A register write while Busy changes STATUS and IRQ_EN only (R25 to R28, R74). -/
theorem writeReg_busy_eq {s : State} (hb : s.busy = true) (r : RegSel) (v : Word) :
    s.writeReg r v = { s with status := (s.writeReg r v).status, irqEn := (s.writeReg r v).irqEn } := by
  cases r with
  | cmd =>
    obtain ⟨w, hp⟩ := busy_iff.1 hb
    simp only [State.writeReg, writeCmd_of_busy v hp]
  | inLen => simp only [State.writeReg, hb, if_true]
  | _ => rfl

theorem writeValue_busy_eq {s : State} (hb : s.busy = true) (t : Txn) (v : Word) :
    s.writeValue t v = { s with status := (s.writeValue t v).status, irqEn := (s.writeValue t v).irqEn } := by
  by_cases hs : t.space = .reg
  · simp only [State.writeValue, hs]
    exact writeReg_busy_eq hb _ v
  · rw [writeValue_busy v hb hs]

/-- What an access while Busy can change: STATUS, IRQ_EN, and the model's own response and draw counter (R74). -/
theorem perform_busy_eq {s : State} (hb : s.busy = true) (t : Txn) :
    s.perform t = { s with
      status := (s.perform t).status, irqEn := (s.perform t).irqEn
      resp := (s.perform t).resp, draws := (s.perform t).draws } := by
  cases hd : t.dir with
  | read => rw [perform_read_eq s hd]
  | write v =>
    simp only [State.perform, hd]
    split
    · rfl
    · rw [writeValue_busy_eq hb t v]
      rfl

/-- Settles O23: while Busy an access changes nothing but STATUS, IRQ_EN and the port's answer. -/
theorem hostCannotDisturbARunningCommand : Obligations.HostCannotDisturbARunningCommand := by
  intro s t x hb h
  obtain ⟨-, rfl⟩ := hostAccess_next h
  rw [perform_busy_eq hb x]
  exact ⟨rfl, rfl, rfl, rfl, rfl, rfl, rfl, rfl, rfl, rfl, rfl, rfl, rfl, rfl⟩

/-- The result registers and the table windows are hidden while Busy (R75). -/
theorem regAt_hidden {off : Nat} (h4 : off % 4 = 0)
    (h : (0x014 ≤ off ∧ off < 0x030) ∨ (0x400 ≤ off ∧ off < 0xC00) ∨ (0x1000 ≤ off ∧ off < 0x3000) ∨
      (0x4000 ≤ off ∧ off < 0x4FF8)) : (regAt off).hiddenWhileBusy = true := by
  rcases h with ⟨hlo, hhi⟩ | ⟨hlo, hhi⟩ | ⟨hlo, hhi⟩ | ⟨hlo, hhi⟩
  · obtain rfl | rfl | rfl | rfl | rfl | rfl | rfl :
        off = 0x014 ∨ off = 0x018 ∨ off = 0x01C ∨ off = 0x020 ∨ off = 0x024 ∨ off = 0x028 ∨ off = 0x02C := by omega
    all_goals rfl
  · by_cases hmid : off < 0x800
    · rw [regAt_freq hlo hmid]
      rfl
    · rw [regAt_codeLen (by omega) hhi]
      rfl
  · rw [regAt_codeBits hlo hhi]
    rfl
  · rw [regAt_node hlo hhi]
    split <;> rfl

/-- STATUS while a command runs: BUSY = 1, DONE = 0, ERR = 0 (R75). -/
theorem statusWord_busy {s : State} (hb : s.busy = true) (hdone : s.status.done = false) (herr : s.status.err = false) :
    s.statusWord.extractLsb' 0 3 = 0b001#3 := by
  obtain ⟨h0, h1, h2, -, -⟩ := statusWord_fields s
  apply BitVec.eq_of_getLsbD_eq
  intro i hi
  rw [BitVec.getLsbD_extractLsb', decide_eq_true hi, Bool.true_and, Nat.zero_add]
  obtain rfl | rfl | rfl : i = 0 ∨ i = 1 ∨ i = 2 := by omega
  · rw [h0, hb]
    rfl
  · rw [h1, hdone]
    rfl
  · rw [h2, herr]
    rfl

/-- Settles O24: a register that is not hidden shows its value, and a hidden one, or OUT_BUF, answers a fresh free
value. -/
theorem readsWhileBusy : Obligations.ReadsWhileBusy := by
  intro s hb hs hr
  obtain ⟨hdone, herr⟩ := hs.busy hb
  refine ⟨statusWord_busy hb hdone herr, ?_, fun off h4 h => ?_, fun x hd hsp hw => ?_⟩
  · have hshown : ∀ off v, off % 4 = 0 → off < 0x8000 → (regAt off).hiddenWhileBusy = false →
        s.regValue (regAt off) = some v →
        hostAccess { dir := .read, space := .reg, offset := off, width := 4 } s = .next { s with resp := .read v } :=
      fun off v h4 h hh hv => hostAccess_regRead_some hr h4 h ((readReg_shown (.inr hh)).trans hv)
    simp only [List.forall_mem_cons, List.not_mem_nil, false_implies, implies_true, and_true]
    refine ⟨?_, ?_, ?_, ?_, ?_, ?_, ?_, ?_⟩ <;> exact hshown _ _ (by decide) (by decide) rfl rfl
  · exact hostAccess_regRead_none hr h4 (by omega) (readReg_hidden hb (regAt_hidden h4 h))
  · exact hostAccess_read_none hr hd hw (readValue_outBuf_busy hb hsp)

/-! ### The frame of every command (R66, R204, R205) -/

/-- What is no target structure of a command keeps its values. -/
structure KeepsNonTargets (s t : State) (g : Targets) : Prop where
  freq : g.freq = false → SameFreq s t
  node : g.node = false → SameTree s t
  code : g.code = false → SameTable s t
  out : g.out = false → SameOutput s t

/-- A failure keeps what is no target (R205). -/
theorem fail_keepsNonTargets (s : State) (g : Targets) (e : ErrCode) : KeepsNonTargets s (s.fail g e) g where
  freq h := by simpa [h] using (fail_effects s g e).freq
  node h := by simpa [h] using (fail_effects s g e).node
  code h := by simpa [h] using (fail_effects s g e).code
  out h := by simpa [h] using (fail_effects s g e).out

theorem KeepsNonTargets.complete {s s' : State} {g : Targets} (h : KeepsNonTargets s s' g) :
    KeepsNonTargets s s'.complete g := ⟨h.freq, h.node, h.code, h.out⟩

/-- OUT_BUF after a success: no byte at or beyond OUT_BUF_SIZE is written, and with the sizes of R7 none at or beyond
OUT_LEN (R66, R204). -/
structure WritesBelowOutLen (s t : State) : Prop where
  within : s.outBuf.within s.params.outBufSize → t.outBuf.within s.params.outBufSize
  above : s.params.wellFormed = true → ∀ a, t.outLen.toNat ≤ a → t.outBuf.read a = s.outBuf.read a

theorem WritesBelowOutLen.of_eq {s t : State} (h : t.outBuf = s.outBuf) : WritesBelowOutLen s t :=
  ⟨fun hw => by rwa [h], fun _ a _ => by rw [h]⟩

theorem WritesBelowOutLen.putOutput (s : State) {bytes : List Byte} (pad bits : Nat)
    (hl : bytes.length ≤ s.params.outBufSize) : WritesBelowOutLen s (s.putOutput bytes pad bits) :=
  ⟨(putOutput_keeps s pad bits hl).1, (putOutput_keeps s pad bits hl).2⟩

/-- What the rule of each command can write from `s`, on success: its own results, and an output that fits OUT_BUF. -/
def ResultOf (s : State) : Instr → State → Prop
  | .nop, s' => s' = s
  | .clear, s' => s' = s.clearTables
  | .freq, s' => ∃ c, s' = s.setFreq c
  | .buildTree, s' => ∃ a, s' = s.setTree a
  | .genCodes, s' | .loadTable, s' => ∃ t, s' = s.setCode t
  | .pack, s' | .unpack, s' | .decompress, s' | .saveTable, s' =>
    ∃ bytes pad bits, bytes.length ≤ s.params.outBufSize ∧ s' = s.putOutput bytes pad bits
  | .compress, s' =>
    ∃ c a t bytes pad bits, bytes.length ≤ s.params.outBufSize ∧
      s' = (((s.setFreq c).setTree a).setCode t).putOutput bytes pad bits

/-- The length of what UNPACK writes (R165). -/
theorem length_unpacked {s : State} {pad : Nat} {bits : Bits} (h : unpackStream s.input = .ok (pad, bits)) :
    (packMsb (bits ++ zeros pad)).length = s.inLen.toNat - 1 := by
  have hbits := (length_unpackStream h).2
  rw [s.length_input] at hbits
  rw [length_packMsb] <;> simp only [List.length_append, length_zeros] <;> omega

theorem bodyOf_resultOf {i : Instr} {s s' : State} (hb : bodyOf i s = .ok s') : ResultOf s i s' := by
  cases i with
  | nop => cases hb; rfl
  | clear => cases hb; rfl
  | freq =>
    rcases freqCommand_cases s with ⟨he, -⟩ | ⟨he, -⟩ <;> cases he.symm.trans hb
    exact ⟨_, rfl⟩
  | buildTree =>
    rcases buildTreeCommand_cases s with ⟨he, -⟩ | ⟨he, -⟩ | ⟨he, -⟩ <;> cases he.symm.trans hb
    exact ⟨_, rfl⟩
  | genCodes =>
    rcases genCodesCommand_cases s with ⟨he, -⟩ | ⟨he, -⟩ | ⟨he, -⟩ <;> cases he.symm.trans hb
    exact ⟨_, rfl⟩
  | loadTable =>
    rcases loadTableCommand_cases s with ⟨he, -⟩ | ⟨he, -⟩ | ⟨t, he, -⟩ <;> cases he.symm.trans hb
    exact ⟨t, rfl⟩
  | saveTable =>
    rcases saveTableCommand_cases s with ⟨he, -⟩ | ⟨he, -⟩ | ⟨he, -, hl⟩ <;> cases he.symm.trans hb
    exact ⟨_, _, _, hl, rfl⟩
  | pack =>
    rcases packCommand_cases s with ⟨he, -⟩ | ⟨he, -⟩ | ⟨-, -, ⟨he, -⟩ | ⟨he, -⟩ | ⟨he, -, hl⟩⟩ <;>
      cases he.symm.trans hb
    exact ⟨_, _, _, by rwa [length_streamOf_bytes], rfl⟩
  | unpack =>
    rcases unpackCommand_cases s with ⟨he, -⟩ | ⟨he, -⟩ | ⟨pad, bits, hu, -, ⟨he, -⟩ | ⟨he, hl⟩⟩ <;>
      cases he.symm.trans hb
    exact ⟨_, _, _, by rwa [length_unpacked hu], rfl⟩
  | decompress =>
    rcases decompressCommand_cases s with
      ⟨he, -⟩ | ⟨he, -⟩ | ⟨-, -, ⟨he, -⟩ | ⟨_, _, -, ⟨he, -⟩ | ⟨ys, -, ⟨he, -⟩ | ⟨he, hl⟩⟩⟩⟩ <;>
      cases he.symm.trans hb
    exact ⟨_, _, _, hl, rfl⟩
  | compress =>
    rcases compressCommand_cases s with ⟨he, -⟩ | ⟨he, -⟩ | ⟨-, -, ⟨he, -⟩ | ⟨-, ⟨he, -⟩ | ⟨he, hl⟩⟩⟩ <;>
      cases he.symm.trans hb
    exact ⟨_, _, _, _, _, _, by rwa [length_streamOf_bytes], rfl⟩

/-- A success other than CLEAR keeps what is no target (R204). -/
theorem ResultOf.keepsNonTargets {i : Instr} {s s' : State} (hi : i ≠ .clear) (h : ResultOf s i s') :
    KeepsNonTargets s s' (targetsOf i) := by
  have hf : SameFreq s s := ⟨rfl, rfl⟩
  have hn : SameTree s s := ⟨rfl, rfl⟩
  have hc : SameTable s s := ⟨rfl, rfl⟩
  have ho : SameOutput s s := ⟨rfl, rfl, rfl, fun _ => rfl⟩
  cases i with
  | nop => cases h; exact ⟨fun _ => hf, fun _ => hn, fun _ => hc, fun _ => ho⟩
  | clear => exact absurd rfl hi
  | freq => obtain ⟨c, rfl⟩ := h; exact ⟨nofun, fun _ => hn, fun _ => hc, fun _ => ho⟩
  | buildTree => obtain ⟨a, rfl⟩ := h; exact ⟨fun _ => hf, nofun, fun _ => hc, fun _ => ho⟩
  | genCodes | loadTable => obtain ⟨t, rfl⟩ := h; exact ⟨fun _ => hf, fun _ => hn, nofun, fun _ => ho⟩
  | pack | unpack | decompress | saveTable =>
    obtain ⟨bytes, pad, bits, -, rfl⟩ := h
    exact ⟨fun _ => hf, fun _ => hn, fun _ => hc, nofun⟩
  | compress => exact ⟨nofun, nofun, nofun, nofun⟩

/-- A success writes OUT_BUF below OUT_LEN only (R66, R204). -/
theorem ResultOf.writesBelowOutLen {i : Instr} {s s' : State} (h : ResultOf s i s') : WritesBelowOutLen s s' := by
  cases i with
  | nop | clear => cases h; exact .of_eq rfl
  | freq | buildTree | genCodes | loadTable => obtain ⟨_, rfl⟩ := h; exact .of_eq rfl
  | pack | unpack | decompress | saveTable => obtain ⟨bytes, pad, bits, hl, rfl⟩ := h; exact .putOutput s pad bits hl
  | compress =>
    obtain ⟨c, a, t, bytes, pad, bits, hl, rfl⟩ := h
    have hout := WritesBelowOutLen.putOutput (((s.setFreq c).setTree a).setCode t) pad bits hl
    exact ⟨hout.within, hout.above⟩

/-- Every command but CLEAR keeps what is none of its target structures, whether it succeeds or fails (R204, R205). -/
theorem exec_keepsNonTargets {i : Instr} {s t : State} (hi : i ≠ .clear) (h : exec i s = .next t) :
    KeepsNonTargets s t (targetsOf i) := by
  rcases exec_next_cases h with ⟨s', hb, rfl⟩ | ⟨e, -, rfl⟩
  · exact ((bodyOf_resultOf hb).keepsNonTargets hi).complete
  · exact fail_keepsNonTargets s _ e

/-- A failure lists no byte of OUT_BUF that was not listed (R205). -/
theorem fail_outBuf_cells (s : State) (g : Targets) (e : ErrCode) :
    (s.fail g e).outBuf.cells = if g.out then [] else s.outBuf.cells := by
  obtain ⟨f, n, c, o⟩ := g
  cases o <;> cases f <;> cases n <;> cases c <;> rfl

theorem fail_outBuf_within {s : State} {size : Nat} (g : Targets) (e : ErrCode) (h : s.outBuf.within size) :
    (s.fail g e).outBuf.within size := by
  rw [Memory.within, fail_outBuf_cells]
  split
  · exact nofun
  · exact h

/-- Settles O55: a failure keeps what is no target of the command, and a success writes the command's own results. -/
theorem engineWritesOnlyOutputs : Obligations.EngineWritesOnlyOutputs := by
  intro i s t h
  refine ⟨(exec_completed h).inBuf, ?_, ?_⟩
  · have hkeep : i ≠ .clear → KeepsNonTargets s t (targetsOf i) := fun hi => exec_keepsNonTargets hi h
    cases i with
    | nop =>
      obtain ⟨hf, hn, hc, ho⟩ := hkeep nofun
      exact ⟨hf rfl, hn rfl, hc rfl, ho rfl⟩
    | clear => cases h; exact fun _ => rfl
    | freq =>
      obtain ⟨-, hn, hc, ho⟩ := hkeep nofun
      exact ⟨hn rfl, hc rfl, ho rfl⟩
    | buildTree =>
      obtain ⟨hf, -, hc, ho⟩ := hkeep nofun
      exact ⟨hf rfl, hc rfl, ho rfl⟩
    | genCodes | loadTable =>
      obtain ⟨hf, hn, -, ho⟩ := hkeep nofun
      exact ⟨hf rfl, hn rfl, ho rfl⟩
    | pack | unpack | decompress | saveTable =>
      obtain ⟨hf, hn, hc, -⟩ := hkeep nofun
      exact ⟨hf rfl, hn rfl, hc rfl⟩
    | compress => trivial
  · rcases exec_next_cases h with ⟨s', hb, rfl⟩ | ⟨e, -, rfl⟩
    · obtain ⟨hwithin, habove⟩ := (bodyOf_resultOf hb).writesBelowOutLen
      exact ⟨hwithin, fun hp _ => habove hp⟩
    · refine ⟨fail_outBuf_within _ e, fun _ herr => ?_⟩
      rw [(fail_failedWith s _ e).1] at herr
      cases herr

/-! ### The operands of every command (R66, R94) -/

/-- The state with another IN_BUF. -/
def State.withInBuf (s : State) (m : Memory) : State := { s with inBuf := m }

@[simp] theorem State.withInBuf_params (s : State) (m : Memory) : (s.withInBuf m).params = s.params := rfl
@[simp] theorem State.withInBuf_inLen (s : State) (m : Memory) : (s.withInBuf m).inLen = s.inLen := rfl
@[simp] theorem State.withInBuf_valid (s : State) (m : Memory) : (s.withInBuf m).valid = s.valid := rfl
@[simp] theorem State.withInBuf_freq (s : State) (m : Memory) : (s.withInBuf m).freq = s.freq := rfl
@[simp] theorem State.withInBuf_arena (s : State) (m : Memory) : (s.withInBuf m).arena = s.arena := rfl
@[simp] theorem State.withInBuf_code (s : State) (m : Memory) : (s.withInBuf m).code = s.code := rfl
@[simp] theorem State.withInBuf_inputTooLong (s : State) (m : Memory) :
    (s.withInBuf m).inputTooLong = s.inputTooLong := rfl

/-- A failure neither reads nor writes IN_BUF (R205). -/
theorem fail_withInBuf (s : State) (m : Memory) (g : Targets) (e : ErrCode) :
    (s.withInBuf m).fail g e = (s.fail g e).withInBuf m := by
  obtain ⟨f, n, c, o⟩ := g
  cases f <;> cases n <;> cases c <;> cases o <;> rfl

theorem finish_withInBuf (s : State) (m : Memory) (g : Targets) (r : Except ErrCode State) :
    (s.withInBuf m).finish g (r.map (·.withInBuf m)) = (s.finish g r).withInBuf m := by
  cases r with
  | ok s' => rfl
  | error e => exact fail_withInBuf s m g e

/-- Changing IN_BUF of the result commutes with a command's tests. -/
theorem map_withInBuf_ite (c : Prop) [Decidable c] (m : Memory) (r r' : Except ErrCode State) :
    (if c then r else r').map (·.withInBuf m) = if c then r.map (·.withInBuf m) else r'.map (·.withInBuf m) :=
  apply_ite _ c r r'

/-- A body reads IN_BUF through the input bytes alone: where those are the same, it reaches the same error or writes
the same results (R66). -/
theorem bodyOf_withInBuf (i : Instr) {s : State} {m : Memory} (h : (s.withInBuf m).input = s.input) :
    bodyOf i (s.withInBuf m) = (bodyOf i s).map (·.withInBuf m) := by
  cases i with
  | nop | clear => rfl
  | freq =>
    simp only [bodyOf, freqCommand, State.withInBuf_inputTooLong, h, map_withInBuf_ite]
    rfl
  | buildTree =>
    simp only [bodyOf, buildTreeCommand, State.withInBuf_valid, State.withInBuf_freq, map_withInBuf_ite]
    cases buildTree s.freq.all <;> rfl
  | genCodes =>
    simp only [bodyOf, genCodesCommand, State.withInBuf_valid, State.withInBuf_arena, State.withInBuf_params,
      map_withInBuf_ite]
    rfl
  | loadTable =>
    simp only [bodyOf, loadTableCommand, State.withInBuf_inputTooLong, State.withInBuf_params, h, map_withInBuf_ite]
    cases parseTable s.params.maxCodeLen s.input <;> rfl
  | saveTable =>
    simp only [bodyOf, saveTableCommand, State.withInBuf_valid, State.withInBuf_code, State.withInBuf_params,
      map_withInBuf_ite]
    rfl
  | pack =>
    simp only [bodyOf, packCommand, State.withInBuf_inputTooLong, State.withInBuf_valid, State.withInBuf_code,
      State.withInBuf_params, h, map_withInBuf_ite]
    cases packStream s.code s.params.outBufSize s.input <;> rfl
  | unpack =>
    simp only [bodyOf, unpackCommand, State.withInBuf_inputTooLong, State.withInBuf_params, h, map_withInBuf_ite]
    cases unpackStream s.input with
    | error e => rfl
    | ok p =>
      simp only [map_withInBuf_ite]
      rfl
  | decompress =>
    simp only [bodyOf, decompressCommand, State.withInBuf_inputTooLong, State.withInBuf_valid, State.withInBuf_code,
      State.withInBuf_params, h, map_withInBuf_ite]
    cases unpackStream s.input with
    | error e => rfl
    | ok p =>
      cases hd : decodeBits s.code p.2 with
      | none => simp only [hd]; rfl
      | some ys =>
        simp only [hd, map_withInBuf_ite]
        rfl
  | compress =>
    simp only [bodyOf, compressCommand_eq_map, State.withInBuf_params, State.withInBuf_inLen, h]
    cases compressResult s.params s.inLen s.input <;> rfl

/-- Settles O56: the input bytes are the same, and they are all a command reads of IN_BUF. -/
theorem commandsReadOnlyTheirInput : Obligations.CommandsReadOnlyTheirInput := by
  intro i s t m hm h
  have hinput : (s.withInBuf m).input = s.input := input_congr rfl hm
  rw [exec_eq_finish] at h
  cases h
  change exec i (s.withInBuf m) = .next ((s.finish (targetsOf i) (bodyOf i s)).withInBuf m)
  rw [exec_eq_finish, bodyOf_withInBuf i hinput, finish_withInBuf]

end Sys2Proof.Machine

namespace Sys2Proof

/-! The encoding statements (30_encoding.md): the decoder against the encoder (R91 to R95), the engine on a decoded and
on an illegal word (R93, R192), and what LOAD_TABLE accepts (R109, R151). -/

/-! ### The command words (R91 to R95) -/

/-- A row of R92 is selected by its own opcode and by no other. -/
theorem opcodeRow_eq_ok_iff {op : Nat} {i : Instr} : opcodeRow op = .ok i ↔ op = (encode i).toNat := by
  constructor
  · intro h
    unfold opcodeRow at h
    split at h <;> cases h <;> rfl
  · rintro rfl
    cases i <;> rfl

theorem opcodeRow_assigned_iff {op : Nat} : (∃ i, opcodeRow op = .ok i) ↔ op ≤ 10 := by
  constructor
  · rintro ⟨i, h⟩
    rw [opcodeRow_eq_ok_iff.1 h]
    cases i <;> decide
  · intro h
    interval_cases op <;> exact ⟨_, rfl⟩

/-- The decoder in two tests: RSV is 0, and OP selects a row (R93). -/
theorem decode_eq_ok_iff {w : Word} {i : Instr} :
    decode w = .ok i ↔ w.extractLsb' 8 24 = 0#24 ∧ opcodeRow (w.extractLsb' 0 8).toNat = .ok i := by
  by_cases hrsv : w.extractLsb' 8 24 = 0#24 <;> simp [decode, hrsv]

/-- A word is its two fields, RSV above OP (R91). -/
theorem word_toNat_eq_fields (w : Word) :
    w.toNat = 256 * (w.extractLsb' 8 24).toNat + (w.extractLsb' 0 8).toNat := by
  have hw := w.isLt
  simp only [BitVec.extractLsb'_toNat, Nat.shiftRight_eq_div_pow]
  omega

/-- A command's word is its opcode, with RSV = 0 (R92). -/
theorem eq_encode_iff {w : Word} {i : Instr} :
    w = encode i ↔ w.extractLsb' 8 24 = 0#24 ∧ (w.extractLsb' 0 8).toNat = (encode i).toNat := by
  constructor
  · rintro rfl
    cases i <;> decide
  · rintro ⟨hrsv, hop⟩
    apply BitVec.eq_of_toNat_eq
    rw [word_toNat_eq_fields, hrsv, hop]
    exact Nat.zero_add _

theorem decode_eq_ok_iff_eq_encode {w : Word} {i : Instr} : decode w = .ok i ↔ w = encode i := by
  rw [decode_eq_ok_iff, opcodeRow_eq_ok_iff, eq_encode_iff]

theorem decode_encode (i : Instr) : decode (encode i) = .ok i := decode_eq_ok_iff_eq_encode.2 rfl

/-- A word is legal exactly if RSV is 0 and OP is assigned (R95). -/
theorem decode_legal_iff {w : Word} :
    (∃ i, decode w = .ok i) ↔ w.extractLsb' 8 24 = 0#24 ∧ w.extractLsb' 0 8 ≤ 0x0A#8 := by
  simp only [decode_eq_ok_iff, exists_and_left, opcodeRow_assigned_iff]
  rfl

/-- An illegal word does not decode (R95). -/
theorem decode_of_illegal {w : Word} (h : w.extractLsb' 8 24 ≠ 0#24 ∨ 0x0A#8 < w.extractLsb' 0 8) :
    ∃ e, decode w = .error e := by
  cases hd : decode w with
  | error e => exact ⟨e, rfl⟩
  | ok i =>
    obtain ⟨hrsv, hop⟩ := decode_legal_iff.1 ⟨i, hd⟩
    rcases h with h | h
    · exact absurd hrsv h
    · exact absurd h (BitVec.not_lt.2 hop)

/-- Settles O11: the decoder's two tests are those of the encoder's word. -/
theorem decodeInvertsEncode : Obligations.DecodeInvertsEncode :=
  fun _ => ⟨fun _ => decode_eq_ok_iff_eq_encode, decode_legal_iff⟩

/-- Settles O12: the first eleven words are those of `encode`. -/
theorem sampleWordsDecode : Obligations.SampleWordsDecode :=
  ⟨decode_encode .nop, decode_encode .freq, decode_encode .buildTree, decode_encode .genCodes, decode_encode .pack,
    decode_encode .unpack, decode_encode .compress, decode_encode .decompress, decode_encode .saveTable,
    decode_encode .loadTable, decode_encode .clear, by decide, by decide, by decide, by decide⟩

end Sys2Proof

namespace Sys2Proof.Machine

/-! ### The engine on a decoded and on an illegal word (R93, R192) -/

section
variable {s : State} {w : Word}

theorem engineStep_of_decode {i : Instr} (hr : s.rstLow = false) (hp : s.phase = .busy w) (hd : decode w = .ok i) :
    engineStep s = exec i s := by
  simp [engineStep, hr, hp, hd]

theorem engineStep_of_illegal {e : DecodeError} (hr : s.rstLow = false) (hp : s.phase = .busy w)
    (hd : decode w = .error e) : engineStep s = .next s.illegalWord := by
  simp [engineStep, hr, hp, hd]

end

/-- Settles O5: the step is the engine's transition, or the effect of the oldest pending input. -/
theorem stepRunsTheDecodedCommand : Obligations.StepRunsTheDecodedCommand := by
  intro s
  refine ⟨fun w i hr hp hd => ⟨fun hi => ?_, fun rest hi => ?_⟩, ?_, ?_, ?_⟩
  · exact (step_nil hi).trans (engineStep_of_decode hr hp hd)
  · exact (step_cons hi).trans (engineStep_of_decode hr hp hd)
  · exact fun _ _ hi => step_cons hi
  · exact fun _ _ hi => step_cons hi
  · exact fun _ _ hi => step_cons hi

/-- Settles O6: an illegal word does not decode, and it has no target structures, so its failure records only the
error (R205). -/
theorem illegalWordChangesOnlyStatus : Obligations.IllegalWordChangesOnlyStatus := by
  intro s w hr hp hw
  obtain ⟨e, hd⟩ := decode_of_illegal hw
  refine ⟨?_, step_nil⟩
  rw [engineStep_of_illegal hr hp hd, State.illegalWord, fail_noTargets]
  rfl

/-! ### What LOAD_TABLE accepts (R109, R151, R152) -/

/-- A command that leaves ERR = 0 reached the end of its rule (R203). -/
theorem exec_next_of_noError {i : Instr} {s t : State} (hx : exec i s = .next t) (he : t.status.err = false) :
    ∃ s', bodyOf i s = .ok s' ∧ t = s'.complete := by
  rcases exec_next_cases hx with h | ⟨e, -, rfl⟩
  · exact h
  · obtain ⟨herr, -⟩ := fail_failedWith s (targetsOf i) e
    cases he.symm.trans herr

theorem loadTableCommand_eq_ok {s s' : State} (h : loadTableCommand s = .ok s') :
    ∃ t, s' = s.setCode t ∧ parseTable s.params.maxCodeLen s.input = .ok t := by
  rcases loadTableCommand_cases s with ⟨he, -⟩ | ⟨he, -⟩ | ⟨t, he, -, hp⟩ <;> cases he.symm.trans h
  exact ⟨t, rfl, hp⟩

section
variable {maxLen : Nat} {rs : List (Byte × Bits)}

/-- The records of a good list are the nonempty words of its table. -/
theorem RecordsOk.mem_iff {lo : Nat} (h : RecordsOk maxLen lo rs) {x : Byte} {c : Bits} :
    (x, c) ∈ rs ↔ at256 (codeTableOf rs) x = .word c ∧ c ≠ [] := by
  rw [at256_eq_word_iff (at256_codeTableOf_known rs x)]
  conv_lhs => rw [← codewords_codeTableOf h]
  exact mem_codewords

variable {x : List Byte}

/-- The records of a serialization are what the parser asks of them (R109, R151). -/
theorem SerializedTable.recordsOk (h : SerializedTable maxLen rs x) : RecordsOk maxLen 0 rs :=
  ⟨h.ascending, fun _ _ => Nat.zero_le _, h.lengths⟩

/-- The table of a serialization satisfies R43. -/
theorem SerializedTable.tableInv (h : SerializedTable maxLen rs x) : TableInv (codeTableOf rs) maxLen :=
  tableInv_codeTableOf h.someRecord h.recordsOk ((prefixFree_codeTableOf h.recordsOk).2 h.prefixes)

end

/-- Settles O41: a success parsed the input, and the parser accepts serializations alone. -/
theorem loadTableAcceptsOnlySerializedTables : Obligations.LoadTableAcceptsOnlySerializedTables := by
  intro s t hinv hx herr
  obtain ⟨s', hb, rfl⟩ := exec_next_of_noError hx herr
  obtain ⟨c, rfl, hp⟩ := loadTableCommand_eq_ok hb
  obtain ⟨rs, hs, rfl⟩ := (parseTable_eq_ok_iff_serialized hinv.maxCodeLen_le).1 hp
  exact ⟨hs.tableInv, rs, hs, fun _ _ => hs.recordsOk.mem_iff⟩

end Sys2Proof.Machine

namespace Sys2Proof.Machine

/-! The frequency analyzer statements (40_frequency_analyzer.md): what FREQ counts (R121, R122) and the counting laws
(R123). -/

/-! ### FREQ counts the input (R121, R122) -/

section
variable {s : State}

/-- FREQ succeeds exactly when the input fits IN_BUF, and writes its counts (R121). -/
theorem freqCommand_eq_ok_iff {s' : State} :
    freqCommand s = .ok s' ↔ s.inLen.toNat ≤ s.params.inBufSize ∧ s' = s.setFreq (countBytes s.input) := by
  rcases freqCommand_cases s with ⟨he, hl⟩ | ⟨he, hl⟩ <;> rw [he]
  · exact ⟨nofun, fun ⟨hle, _⟩ => absurd hle (Nat.not_le.2 hl)⟩
  · exact ⟨fun h => ⟨hl, by cases h; rfl⟩, fun ⟨_, h⟩ => h ▸ rfl⟩

/-- The count of a byte value in the input, by the indices of IN_BUF below IN_LEN (R94). -/
theorem count_input (x : Byte) :
    s.input.count x = (List.range s.inLen.toNat).countP fun a => s.inBuf.read a == x := by
  simp only [State.input, Memory.readBytes, List.count, List.countP_map, Function.comp_def, Nat.zero_add]

/-- The counts of the input are exact: IN_LEN is a 32-bit number (R122, R123). -/
theorem at256_countBytes_input (x : Byte) : (at256 (countBytes s.input) x).toNat = s.input.count x :=
  at256_countBytes (length_input_lt s) x

end

/-- Settles O30: the input fits, so FREQ writes the exact counts of its input and nothing else. -/
theorem freqCountsTheInput : Obligations.FreqCountsTheInput := by
  intro s hl
  have hx : exec .freq s = .next (s.setFreq (countBytes s.input)).complete :=
    exec_of_ok (freqCommand_eq_ok_iff.2 ⟨hl, rfl⟩)
  have hkeep := exec_keepsNonTargets (by decide) hx
  exact ⟨_, hx, exec_completed hx, complete_succeeded _, rfl,
    fun x => (at256_countBytes_input x).trans (count_input x), hkeep.node rfl, hkeep.code rfl, hkeep.out rfl⟩

/-! ### The counting laws (R123) -/

/-- A symbol present counts at least once, so the symbols present are no more than what was counted (R123). -/
theorem countP_ne_zero_le_sum (f : Byte → Word) (l : List Byte) :
    (l.countP fun x => f x != 0#32) ≤ (l.map fun x => (f x).toNat).sum := by
  induction l with
  | nil => exact Nat.le_refl 0
  | cons y l ih =>
    rw [List.countP_cons, List.map_cons, List.sum_cons]
    split
    next hy =>
      have hpos : (f y).toNat ≠ 0 := fun h0 => bne_iff_ne.1 hy (BitVec.eq_of_toNat_eq h0)
      omega
    next => omega

/-- Settles O31: the counts are exact, so their laws are those of counting the IN_LEN bytes of the input. -/
theorem countsSumToTheInputLength : Obligations.CountsSumToTheInputLength := by
  intro s t hp hx herr
  obtain ⟨s', hb, rfl⟩ := exec_next_of_noError hx herr
  obtain ⟨hl, rfl⟩ := freqCommand_eq_ok_iff.1 hb
  obtain ⟨-, hsize, -⟩ := params_bounds hp
  simp only [State.complete_freq, State.setFreq_freq, countOf_counts]
  have hsum : (countBytes s.input).total = s.inLen.toNat :=
    (total_countBytes (length_input_lt s)).trans s.length_input
  have hcount : ∀ x, (at256 (countBytes s.input) x).toNat ≤ s.inLen.toNat := fun x => by
    rw [at256_countBytes_input, ← s.length_input]
    exact List.count_le_length
  have halphabet := List.countP_le_length (p := fun x => at256 (countBytes s.input) x != 0#32) (l := allSymbols)
  exact ⟨hsum, hcount, hl, hsize, length_allSymbols ▸ halphabet,
    hsum ▸ countP_ne_zero_le_sum (at256 (countBytes s.input)) allSymbols⟩

end Sys2Proof.Machine

namespace Sys2Proof.Machine

/-! The tree builder statements (41_tree_builder.md): when BUILD_TREE succeeds and what it then leaves (R131 to R133,
R136), the order of its merges (R133 to R135) and the laws of its tree (R137). -/

/-! ### What BUILD_TREE leaves (R131 to R133) -/

section
variable {s : State}

/-- BUILD_TREE succeeds exactly on valid counts with a symbol present, and writes the tree of its loop (R131). -/
theorem buildTreeCommand_eq_ok_iff {s' : State} :
    buildTreeCommand s = .ok s' ↔ s.valid.freq = true ∧ presentCounts s.freq.all ≠ [] ∧
      s' = s.setTree (finishedBuild s.freq.all).arena := by
  rcases buildTreeCommand_cases s with ⟨he, hv⟩ | ⟨he, -, hp⟩ | ⟨he, hv, hp⟩ <;> rw [he]
  · exact ⟨nofun, fun ⟨ht, _⟩ => by cases hv.symm.trans ht⟩
  · exact ⟨nofun, fun ⟨_, hne, _⟩ => absurd hp hne⟩
  · exact ⟨fun h => ⟨hv, hp, by cases h; rfl⟩, fun ⟨_, _, h⟩ => h ▸ rfl⟩

/-- Valid counts sum to at most IN_BUF_SIZE, so to at most 2^28 (R7, R123). -/
theorem State.Inv.total_freq_le (hs : s.Inv) (hv : s.valid.freq = true) : s.freq.all.total ≤ 2 ^ 28 := by
  obtain ⟨c, hc, hsum⟩ := hs.freq hv
  rw [hc]
  exact hsum.trans hs.inBufSize_le

/-- On valid counts with a symbol present, the loop builds a tree with all that R133 and R137 say of it. -/
theorem State.Inv.built (hs : s.Inv) (hv : s.valid.freq = true) (hp : presentCounts s.freq.all ≠ []) :
    Built s.freq.all (finishedBuild s.freq.all).arena := by
  have htotal := hs.total_freq_le hv
  obtain ⟨hok, hone⟩ := finishedBuild_ok (by omega) hp
  exact built_of_ok hok hone (at_finishedBuild_leaf _)

/-- A BUILD_TREE that reports no error had valid counts, and left the tree of these counts. -/
theorem exec_buildTree_built {t : State} (hs : s.Inv) (hx : exec .buildTree s = .next t)
    (herr : t.status.err = false) : s.valid.freq = true ∧ Built s.freq.all t.arena := by
  obtain ⟨s', hb, rfl⟩ := exec_next_of_noError hx herr
  obtain ⟨hv, hp, rfl⟩ := buildTreeCommand_eq_ok_iff.1 hb
  exact ⟨hv, hs.built hv hp⟩

end

/-! ### Every merge takes the two least (R133 to R135) -/

/-- Settles O33: the loop keeps, for every merge made so far, that it popped the two least entries waiting. -/
theorem everyMergeTakesTheTwoLeast : Obligations.EveryMergeTakesTheTwoLeast := by
  intro s t hs hx herr
  obtain ⟨-, hbuilt⟩ := exec_buildTree_built hs hx herr
  exact ⟨_, hbuilt.tree, hbuilt.merged⟩

/-! ### The laws of the tree (R137) -/

/-- An Internal entry in use carries the sum of its children, which stand below it (R44). -/
theorem TreeOf.children {a : Arena} {n k : Nat} (h : TreeOf a n) (hk : k < 2 * n - 1) {f : Word} {l r : BitVec 9}
    (he : a.entry k = .internal f l r) :
    l.toNat < k ∧ r.toNat < k ∧ f.toNat = (a.entry l.toNat).freq + (a.entry r.toNat).freq := by
  by_cases hkn : k < n
  · obtain ⟨x, g, hleaf, -⟩ := h.leaf k hkn
    cases he.symm.trans hleaf
  · obtain ⟨f', l', r', he', hok⟩ := h.internal k (Nat.le_of_not_lt hkn) hk
    cases he.symm.trans he'
    exact hok

/-- Frequencies do not grow along a path down the tree, since each entry carries the sum of its children (R137 (b)). -/
theorem TreeOf.follow_freq_le {a : Arena} {n i k : Nat} (h : TreeOf a n) (hi : i < 2 * n - 1) {p : Bits}
    (hp : follow a i p = some k) : (a.entry k).freq ≤ (a.entry i).freq := by
  induction p generalizing i with
  | nil => cases hp; exact Nat.le_refl _
  | cons b p ih =>
    obtain ⟨f, l, r, he, hp⟩ := follow_cons_some hp
    obtain ⟨hl, hr, hsum⟩ := h.children hi he
    rw [he, NodeEntry.freq, hsum]
    cases b
    · exact (ih (i := l.toNat) (by omega) hp).trans (Nat.le_add_right _ _)
    · exact (ih (i := r.toNat) (by omega) hp).trans (Nat.le_add_left _ _)

/-- No entry in use carries more than the root: every one lies on a path from it (R137 (d)). -/
theorem TreeOf.freq_le_root {a : Arena} {n k : Nat} (h : TreeOf a n) (ho : OneParent a) (hk : k < 2 * n - 1) :
    (a.entry k).freq ≤ (a.entry a.root.toNat).freq := by
  have hroot := h.root
  obtain ⟨p, hp⟩ := h.reached ho k (by omega)
  exact h.follow_freq_le h.root_lt hp

/-- The sum of all counts, as the registers of FREQ show them (R36, R123). -/
theorem total_freqAll (t : FreqTable) : t.all.total = (allSymbols.map fun x => (t.countOf x).toNat).sum := by
  simp only [Counts.total, at256_freqAll]

/-- Settles O34: the loop's invariant gives the sum at the root and the ownership, and frequencies and path lengths are
bounded along the paths from the root. -/
theorem treeLaws : Obligations.TreeLaws := by
  intro s t hs hx herr
  obtain ⟨hv, hbuilt⟩ := exec_buildTree_built hs hx herr
  have htree := hbuilt.tree
  refine ⟨hbuilt.total.trans (total_freqAll _), hbuilt.oneParent, _, htree, htree.atMost, fun k hk hk' => ?_,
    fun p x => htree.leafPath_length⟩
  have hfreq := htree.freq_le_root hbuilt.oneParent hk'
  rw [hbuilt.total] at hfreq
  exact ⟨htree.internal k hk hk', hfreq.trans (hs.total_freq_le hv)⟩

/-! ### One leaf per symbol present (R132, R136) -/

/-- The symbols present are those with a nonzero count (R132). -/
theorem length_presentCounts (c : Counts) :
    (presentCounts c).length = allSymbols.countP fun x => at256 c x != 0#32 := by
  rw [presentCounts, bySymbol_eq, ← List.countP_eq_length_filter, List.countP_map]
  rfl

/-- A symbol with a nonzero count has a leaf with that count (R132). -/
theorem Built.exists_leaf {c : Counts} {a : Arena} (h : Built c a) {x : Byte} (hx : at256 c x ≠ 0#32) :
    ∃ i < (presentCounts c).length, a.entry i = .leaf x (at256 c x) := by
  obtain ⟨i, hi, hxi⟩ := List.getElem_of_mem (mem_presentCounts (p := (x, at256 c x)).2 ⟨rfl, hx⟩)
  exact ⟨i, hi, by rw [h.leaves i hi, hxi]⟩

/-- Settles O32: a nonzero count is a symbol present, so BUILD_TREE writes the tree of its loop and nothing else. -/
theorem buildTreeMakesATree : Obligations.BuildTreeMakesATree := by
  intro s hs hv ⟨x, hx⟩
  rw [← at256_freqAll] at hx
  have hp : presentCounts s.freq.all ≠ [] :=
    List.ne_nil_of_mem (mem_presentCounts (p := (x, at256 s.freq.all x)).2 ⟨rfl, hx⟩)
  have hexec : exec .buildTree s = .next (s.setTree (finishedBuild s.freq.all).arena).complete :=
    exec_of_ok (buildTreeCommand_eq_ok_iff.2 ⟨hv, hp, rfl⟩)
  have hbuilt := hs.built hv hp
  have hkeep := exec_keepsNonTargets (by decide) hexec
  refine ⟨_, _, hexec, exec_completed hexec, complete_succeeded _, rfl, hbuilt.tree, ?_, fun y => ?_, hbuilt.rest,
    hkeep.freq rfl, hkeep.code rfl, hkeep.out rfl⟩
  · simp only [length_presentCounts, at256_freqAll]
  · rw [← at256_freqAll]
    exact hbuilt.exists_leaf

end Sys2Proof.Machine

namespace Sys2Proof.Machine

/-! The code table statements (42_code_table.md): the codewords GEN_CODES assigns (R141 to R143) and the code space they
fill (R144), and what SAVE_TABLE writes and LOAD_TABLE takes back (R146, R147, R150, R151, R153). -/

/-! ### Codewords are leaf paths (R142) -/

section
variable {a : Arena} {n : Nat} {f : Word} {l r : BitVec 9} {p : Bits} {x : Byte}

/-- In a tree of two or more leaves, the codewords are the leaf paths (R142). -/
theorem TreeOf.mem_codewords_iff_leafPath (h : TreeOf a n) (ho : OneParent a)
    (hroot : a.entry a.root.toNat = .internal f l r) : (x, p) ∈ codewords (genCodes a) ↔ LeafPath a p x := by
  rw [mem_codewords]
  constructor
  · rintro ⟨hbits : bitsAt (genCodes a) x = p, hne⟩
    subst hbits
    exact genCodes_path hroot hne
  · intro hp
    have hne := h.genCodes_mapped hroot hp
    obtain rfl := h.leafPath_unique ho hp (genCodes_path hroot hne)
    exact ⟨rfl, hne⟩

/-- The traversal from the root emits the leaf paths (R142). -/
theorem TreeOf.mem_leafCodes_iff_leafPath (h : TreeOf a n) (hroot : a.entry a.root.toNat = .internal f l r) :
    (x, p) ∈ leafCodes a ↔ LeafPath a p x := by
  rw [leafCodes_internal hroot]
  constructor
  · intro hm
    obtain ⟨q, k, g, rfl, hk, he⟩ := mem_visit hm
    exact ⟨k, g, hk, he⟩
  · intro hp
    have hlen := h.leafPath_length hp
    have hmost := h.atMost
    obtain ⟨k, g, hk, he⟩ := hp
    have hfuel : p.length < Config.maxNodes := by change p.length < 511; omega
    exact visit_complete hfuel hk he

end

/-- A traversal emits no leaf path twice: the paths of the two children part at their branch bit (R142). -/
theorem visit_nodup (a : Arena) (fuel i : Nat) (p : Bits) : (visit a fuel i p).Nodup := by
  induction fuel generalizing i p with
  | zero => exact List.nodup_nil
  | succ fuel ih =>
    rw [visit]
    split
    next x f he => exact List.nodup_singleton _
    next f l r he =>
      refine (ih _ _).append (ih _ _) ?_
      rintro ⟨x, q⟩ hleft hright
      obtain ⟨d, -, -, hd, -⟩ := mem_visit hleft
      obtain ⟨d', -, -, hd', -⟩ := mem_visit hright
      simp [hd] at hd'
    next he => exact List.nodup_nil

theorem codewords_nodup (t : CodeTable) : (codewords t).Nodup :=
  (codewords_ascending t).imp fun {p q} (hlt : p.1.toNat < q.1.toNat) e => by
    subst e
    exact lt_irrefl _ hlt

/-- In a tree of two or more leaves, the table holds what the traversal emits, in symbol order (R142). -/
theorem TreeOf.codewords_perm_leafCodes {a : Arena} {n : Nat} (h : TreeOf a n) (ho : OneParent a) {f : Word}
    {l r : BitVec 9} (hroot : a.entry a.root.toNat = .internal f l r) :
    (codewords (genCodes a)).Perm (leafCodes a) := by
  have hleaves : (leafCodes a).Nodup := leafCodes_internal hroot ▸ visit_nodup _ _ _ _
  refine (List.perm_ext_iff_of_nodup (codewords_nodup _) hleaves).2 fun ⟨x, p⟩ => ?_
  rw [h.mem_codewords_iff_leafPath ho hroot, h.mem_leafCodes_iff_leafPath hroot]

/-! ### The code space (R144) -/

/-- The part of the code space the listed codewords take: the sum of 2^(-len), scaled by 2^255 (R144). -/
def codeSpace (rs : List (Byte × Bits)) : Nat := (rs.map fun p => 2 ^ (255 - p.2.length)).sum

theorem codeSpace_append (rs rs' : List (Byte × Bits)) : codeSpace (rs ++ rs') = codeSpace rs + codeSpace rs' := by
  rw [codeSpace, List.map_append, List.sum_append]
  rfl

theorem codeSpace_singleton (x : Byte) (p : Bits) : codeSpace [(x, p)] = 2 ^ (255 - p.length) := by
  rw [codeSpace, List.map_singleton, List.sum_singleton]

theorem codeSpace_perm {rs rs' : List (Byte × Bits)} (h : rs.Perm rs') : codeSpace rs = codeSpace rs' :=
  (h.map _).sum_eq

/-- The sum over the alphabet in R144 is the code space of the table's codewords. -/
theorem sum_allSymbols_eq_codeSpace (t : CodeTable) :
    (allSymbols.map fun x => if bitsAt t x = [] then 0 else 2 ^ (255 - (bitsAt t x).length)).sum =
      codeSpace (codewords t) := by
  rw [codeSpace, codewords, bySymbol_eq, List.filterMap_map]
  induction allSymbols with
  | nil => rfl
  | cons x xs ih =>
    rw [List.map_cons, List.sum_cons, ih, List.filterMap_cons, Function.comp_apply, entryCodeword_eq]
    by_cases hx : bitsAt t x = []
    · simp only [if_pos hx, Nat.zero_add]
    · simp only [if_neg hx, List.map_cons, List.sum_cons]

/-- A branch halves the code space of its path between its two children. -/
theorem two_pow_sub_split {k : Nat} (h : k < 255) : 2 ^ (255 - (k + 1)) + 2 ^ (255 - (k + 1)) = 2 ^ (255 - k) := by
  rw [← Nat.two_mul, ← Nat.pow_succ']
  congr 1
  omega

/-- The leaves below an entry at the end of a path fill the code space of that path (R144). A path from entry
`i` takes at most one branch per Internal entry up to `i`, which bounds the fuel and the lengths. -/
theorem TreeOf.codeSpace_visit {a : Arena} {n : Nat} (h : TreeOf a n) {fuel i : Nat} {p : Bits} (hi : i < 2 * n - 1)
    (hfuel : i + 1 - n < fuel) (hp : p.length + (i + 1 - n) ≤ 255) :
    codeSpace (visit a fuel i p) = 2 ^ (255 - p.length) := by
  induction fuel generalizing i p with
  | zero => omega
  | succ fuel ih =>
    rw [visit]
    by_cases hleaf : i < n
    · obtain ⟨x, f, he, -⟩ := h.leaf i hleaf
      rw [he]
      exact codeSpace_singleton x p
    · obtain ⟨f, l, r, he, hl, hr, -⟩ := h.internal i (Nat.le_of_not_lt hleaf) hi
      simp only [he]
      have hchild : ∀ (c : BitVec 9) (b : Bool), c.toNat < i →
          codeSpace (visit a fuel c.toNat (p ++ [b])) = 2 ^ (255 - (p.length + 1)) := fun c b hc => by
        rw [ih (by omega) (by omega) (by simp only [List.length_append, List.length_singleton]; omega),
          List.length_append, List.length_singleton]
      rw [codeSpace_append, hchild l false hl, hchild r true hr, two_pow_sub_split (by omega)]

/-- The codewords of a tree of two or more leaves fill the code space (R144). -/
theorem TreeOf.codeSpace_codewords {a : Arena} {n : Nat} (h : TreeOf a n) (ho : OneParent a) {f : Word}
    {l r : BitVec 9} (hroot : a.entry a.root.toNat = .internal f l r) : codeSpace (codewords (genCodes a)) = 2 ^ 255 := by
  have hindex := h.root
  have hmost := h.atMost
  have hpos := h.atLeast
  rw [codeSpace_perm (h.codewords_perm_leafCodes ho hroot), leafCodes_internal hroot]
  have hfuel : a.root.toNat + 1 - n < Config.maxNodes := by change _ < 511; omega
  exact h.codeSpace_visit h.root_lt hfuel (by rw [List.length_nil]; omega)

/-- The one codeword of a lone symbol (R143). -/
theorem codewords_genCodes_lone {a : Arena} {x : Byte} {f : Word} (hroot : a.entry a.root.toNat = .leaf x f) :
    codewords (genCodes a) = [(x, [false])] := by
  have hok : RecordsOk 1 0 [(x, [false])] :=
    RecordsOk.cons.2 ⟨Nat.zero_le _, List.cons_ne_nil _ _, Nat.le_refl 1, .nil _ _⟩
  rw [genCodes, leafCodes, hroot]
  exact codewords_codeTableOf hok

/-! ### GEN_CODES (R141 to R144) -/

section
variable {s : State}

/-- GEN_CODES succeeds exactly on a valid tree whose codewords are short enough, and writes its codes (R141). -/
theorem genCodesCommand_eq_ok_iff {s' : State} :
    genCodesCommand s = .ok s' ↔ s.valid.tree = true ∧ LengthsAtMost (genCodes s.arena) s.params.maxCodeLen ∧
      s' = s.setCode (genCodes s.arena) := by
  rcases genCodesCommand_cases s with ⟨he, hv⟩ | ⟨he, -, hl⟩ | ⟨he, hv, hl⟩ <;> rw [he]
  · exact ⟨nofun, fun ⟨ht, _⟩ => by cases hv.symm.trans ht⟩
  · exact ⟨nofun, fun ⟨_, hok, _⟩ => absurd hok hl⟩
  · exact ⟨fun h => ⟨hv, hl, by cases h; rfl⟩, fun ⟨_, _, h⟩ => h ▸ rfl⟩

end

/-- Settles O35: no path is too long, so GEN_CODES writes the codes of the tree, which are its leaf paths. -/
theorem genCodesAssignsTreePaths : Obligations.GenCodesAssignsTreePaths := by
  intro s hs hv hpaths
  obtain ⟨⟨n, htree⟩, hone⟩ := hs.tree hv
  obtain ⟨-, -, -, -, hpos, -⟩ := params_bounds hs.params
  have hlen := (htree.lengthsAtMost_iff hone hpos).2 hpaths
  have hx : exec .genCodes s = .next (s.setCode (genCodes s.arena)).complete :=
    exec_of_ok (genCodesCommand_eq_ok_iff.2 ⟨hv, hlen, rfl⟩)
  have hkeep := exec_keepsNonTargets (by decide) hx
  refine ⟨_, hx, exec_completed hx, complete_succeeded _, rfl, htree.genCodes_inv (anyCodeLonger_eq_false.2 hlen),
    fun f l r hroot x => ⟨fun p hp => ?_, fun hnone => ?_⟩, fun x f hroot y => ?_, hkeep.freq rfl, hkeep.node rfl,
    hkeep.out rfl⟩
  · obtain ⟨hbits, -⟩ := mem_codewords.1 ((htree.mem_codewords_iff_leafPath hone hroot).2 hp)
    exact (at256_genCodes s.arena x).trans (congrArg _ hbits)
  · have hbits : bitsAt (genCodes s.arena) x = [] := by
      by_contra hne
      exact hnone _ (genCodes_path hroot hne)
    exact (at256_genCodes s.arena x).trans (congrArg _ hbits)
  · exact (at256_genCodes s.arena y).trans (congrArg _ (bitsAt_genCodes_lone hroot y))

/-- Settles O37: the codewords are the leaf paths, and the leaves of a tree fill the code space. -/
theorem codeLengthsFillTheCodeSpace : Obligations.CodeLengthsFillTheCodeSpace := by
  intro s t hs hx herr
  obtain ⟨s', hb, rfl⟩ := exec_next_of_noError hx herr
  obtain ⟨hv, -, rfl⟩ := genCodesCommand_eq_ok_iff.1 hb
  obtain ⟨⟨n, htree⟩, hone⟩ := hs.tree hv
  have hspace := sum_allSymbols_eq_codeSpace (genCodes s.arena)
  refine ⟨fun f l r hroot => ⟨fun p x hp => ?_, hspace.trans (htree.codeSpace_codewords hone hroot)⟩,
    fun x f hroot => ⟨?_, hspace.trans ?_⟩⟩
  · obtain ⟨hbits, hne⟩ := mem_codewords.1 ((htree.mem_codewords_iff_leafPath hone hroot).2 hp)
    exact ⟨congrArg _ hbits, List.length_pos_iff.2 hne⟩
  · exact congrArg List.length ((bitsAt_genCodes_lone hroot x).trans (if_pos rfl))
  · rw [codewords_genCodes_lone hroot, codeSpace_singleton, List.length_singleton]

/-! ### SAVE_TABLE and LOAD_TABLE (R146, R147, R150, R151, R153) -/

section
variable {s : State}

/-- On a valid table SAVE_TABLE succeeds, and its output is the serialized table, no longer than R8 allows (R146). -/
theorem State.Inv.exec_saveTable (hs : s.Inv) (hv : s.valid.table = true) :
    exec .saveTable s = .next (s.putOutput (serializeTable s.code) 0 0).complete ∧
      (serializeTable s.code).length ≤ 8705 ∧
      Output s (s.putOutput (serializeTable s.code) 0 0).complete (serializeTable s.code) 0 0 := by
  obtain ⟨hok, hlen⟩ := saveTableCommand_ok hs.params hs.lengths hv
  exact ⟨exec_of_ok hok, hlen, putOutput_output s (by decide) (by decide) (by omega)⟩

/-- LOAD_TABLE of a serialization in IN_BUF writes the table of its records (R150). -/
theorem exec_loadTable_of_serialized {rs : List (Byte × Bits)} (hp : s.params.wellFormed = true)
    (hl : s.inLen.toNat ≤ s.params.inBufSize) (h : SerializedTable s.params.maxCodeLen rs s.input) :
    exec .loadTable s = .next (s.setCode (codeTableOf rs)).complete := by
  obtain ⟨-, -, -, -, -, hmax⟩ := params_bounds hp
  have hparse := (parseTable_eq_ok_iff_serialized hmax).2 ⟨rs, h, rfl⟩
  refine exec_of_ok (show loadTableCommand s = _ from ?_)
  rcases loadTableCommand_cases s with ⟨-, hlong⟩ | ⟨-, -, hbad⟩ | ⟨t, he, -, ht⟩
  · exact absurd hl (Nat.not_le.2 hlong)
  · exact absurd hparse (hbad _)
  · cases ht.symm.trans hparse
    exact he

end

/-- The serialization of a table of R43 is well formed (R107, R109). -/
theorem TableInv.serialized {t : CodeTable} {maxLen : Nat} (h : TableInv t maxLen) :
    SerializedTable maxLen (codewords t) (serializeTable t) where
  someRecord := codewords_ne_nil h.someCodeword
  ascending := codewords_ascending t
  lengths := (recordsOk_codewords h.lengths).lengths
  prefixes := by
    rintro ⟨x, p⟩ hp ⟨y, q⟩ hq hne
    obtain ⟨hbits, hpne⟩ := mem_codewords.1 hp
    obtain ⟨hbits', hqne⟩ := mem_codewords.1 hq
    have hpre := h.prefixes x y hne
    rw [hbits, hbits'] at hpre
    exact hpre hpne hqne
  bytes := rfl

/-- A symbol no record names has no codeword (R151). -/
theorem at256_codeTableOf_of_not_mem {rs : List (Byte × Bits)} {x : Byte} (h : ∀ c, (x, c) ∉ rs) :
    at256 (codeTableOf rs) x = .word [] := by
  rw [at256_eq_word_iff (at256_codeTableOf_known rs x)]
  by_contra hne
  exact h _ (mem_of_bitsAt_codeTableOf hne)

/-- Settles O39: the records are the codewords of the table, which SAVE_TABLE lists by ascending symbol. -/
theorem saveTableWritesTheRecords : Obligations.SaveTableWritesTheRecords := by
  intro s hs hv
  obtain ⟨hx, -, hout⟩ := hs.exec_saveTable hv
  have hkeep := exec_keepsNonTargets (by decide) hx
  refine ⟨_, codewords s.code, hx, exec_completed hx, complete_succeeded _, codewords_ascending _, fun x c => ?_, hout,
    hkeep.freq rfl, hkeep.node rfl, hkeep.code rfl⟩
  rw [mem_codewords, at256_eq_word_iff ((hs.table hv).known x)]

/-- Settles O40: the parser takes the serialization, and LOAD_TABLE writes the table of its records. -/
theorem loadTableTakesWellFormedBytes : Obligations.LoadTableTakesWellFormedBytes := by
  intro s rs hs hl h
  have hx := exec_loadTable_of_serialized hs.params hl h
  have hkeep := exec_keepsNonTargets (by decide) hx
  exact ⟨_, hx, exec_completed hx, complete_succeeded _, rfl, fun _ hp => at256_codeTableOf_mem h.ascending hp,
    fun _ => at256_codeTableOf_of_not_mem, hkeep.freq rfl, hkeep.node rfl, hkeep.out rfl⟩

/-- Settles O42: the input of `u` is the serialization SAVE_TABLE wrote, whose records are the codewords of the saved
table, and they determine it. -/
theorem tableRoundTrip : Obligations.TableRoundTrip := by
  intro s t u hs hv hx hp hlen hbuf
  obtain ⟨hsave, h8705, hout⟩ := hs.exec_saveTable hv
  cases hx.symm.trans hsave
  have hinput : u.input = serializeTable s.code := by
    rw [← hout.written, ← hout.outLen, State.input, hlen]
    exact Memory.readBytes_congr fun a ha => (Nat.zero_add a).symm ▸ hbuf a ha
  obtain ⟨hsize, -⟩ := params_bounds hs.params
  have hfits : u.inLen.toNat ≤ u.params.inBufSize := by
    rw [hlen, hout.outLen, hp]
    exact h8705.trans hsize
  have htable := hs.table hv
  have hser : SerializedTable u.params.maxCodeLen (codewords s.code) u.input := by
    rw [hinput, hp]
    exact htable.serialized
  exact ⟨_, exec_loadTable_of_serialized (hp ▸ hs.params) hfits hser, complete_succeeded _, rfl,
    codeTableOf_codewords htable.known⟩

end Sys2Proof.Machine

namespace Sys2Proof.Machine

/-! The bit packer statements (43_bit_packer.md): the stream PACK writes (R160 to R162), the payload UNPACK leaves (R165,
R166), and that the unpacker inverts the packer (R167). -/

/-- PACK of an input whose codewords fit OUT_BUF puts out their stream (R160, R161). -/
theorem exec_pack_of_fits {s : State} (hl : s.inLen.toNat ≤ s.params.inBufSize) (hv : s.valid.table = true)
    (hmapped : ∀ x ∈ s.input, bitsAt s.code x ≠ [])
    (hfits : 1 + ceilDiv (codeBits s.code s.input).length 8 ≤ s.params.outBufSize) :
    exec .pack s =
      .next (s.putOutput (streamOf (codeBits s.code s.input)).bytes (padCount (codeBits s.code s.input).length)
        (codeBits s.code s.input).length).complete := by
  refine exec_of_ok (show packCommand s = _ from ?_)
  rcases packCommand_cases s with
    ⟨-, hlong⟩ | ⟨-, -, hinvalid⟩ | ⟨-, -, ⟨-, x, hx, hnone⟩ | ⟨-, -, hbig⟩ | ⟨he, -⟩⟩
  · exact absurd hl (Nat.not_le.2 hlong)
  · cases hinvalid.symm.trans hv
  · exact absurd hnone (hmapped x hx)
  · exact absurd hfits (Nat.not_le.2 hbig)
  · exact he

/-- A stream that fits OUT_BUF is put out whole, and OUT_LEN, PAD and BIT_LEN say so (R162). -/
theorem putOutput_streamOf_output {s : State} {bits : Bits} (hp : s.params.wellFormed = true)
    (hfits : 1 + ceilDiv bits.length 8 ≤ s.params.outBufSize) :
    Output s (s.putOutput (streamOf bits).bytes (padCount bits.length) bits.length).complete (streamOf bits).bytes
      (padCount bits.length) bits.length := by
  obtain ⟨-, -, -, hsize, -⟩ := params_bounds hp
  have hbits : bits.length ≤ 8 * ceilDiv bits.length 8 := by unfold ceilDiv; omega
  exact putOutput_output s (padCount_le _) (by omega) (by rw [length_streamOf_bytes]; omega)

/-- UNPACK of a stream whose payload fits OUT_BUF puts out its bits, filled with zeros again (R165). -/
theorem exec_unpack_of_fits {s : State} {pad : Nat} {bits : Bits} (hl : s.inLen.toNat ≤ s.params.inBufSize)
    (hu : unpackStream s.input = .ok (pad, bits)) (hfits : s.inLen.toNat - 1 ≤ s.params.outBufSize) :
    exec .unpack s = .next (s.putOutput (packMsb (bits ++ zeros pad)) pad bits.length).complete := by
  refine exec_of_ok (show unpackCommand s = _ from ?_)
  rcases unpackCommand_cases s with ⟨-, hlong⟩ | ⟨-, -, hbad⟩ | ⟨_, _, hu', -, ⟨-, hbig⟩ | ⟨he, -⟩⟩
  · exact absurd hl (Nat.not_le.2 hlong)
  · cases hbad.symm.trans hu
  · exact absurd hfits (Nat.not_le.2 hbig)
  · cases hu'.symm.trans hu
    exact he

/-- Settles O45: every byte is mapped and the stream fits, so PACK puts out the stream of the codewords and nothing
else. -/
theorem packWritesTheStream : Obligations.PackWritesTheStream := by
  rintro s _ hp hl hv hmapped rfl hfits
  have hexec := exec_pack_of_fits hl hv hmapped hfits
  have hkeep := exec_keepsNonTargets (by decide) hexec
  have hout := putOutput_streamOf_output hp hfits
  have hlen := hout.outLen.trans (length_streamOf_bytes _)
  refine ⟨_, hexec, exec_completed hexec, complete_succeeded _, hout, ?_, hlen, hkeep.freq rfl, hkeep.node rfl,
    hkeep.code rfl⟩
  exact hlen.trans (congrArg (1 + ·) (add_padCount_div _).symm)

/-- Settles O46: the input is a stream of R101, so UNPACK puts out its bits, and the zeros it appends take the place of the
filler. -/
theorem unpackStripsThePadding : Obligations.UnpackStripsThePadding := by
  intro s h payload hp hl hinput h7 hempty hfits
  have hu : unpackStream s.input = .ok (h.toNat, (unpackMsb payload).take (8 * payload.length - h.toNat)) :=
    unpackStream_ok_iff.2 ⟨h, payload, hinput, h7, fun hnil => hempty hnil ▸ rfl, rfl, rfl⟩
  have hpayload : s.inLen.toNat - 1 = payload.length := by
    rw [← s.length_input, hinput, List.length_cons, Nat.add_sub_cancel]
  have hexec := exec_unpack_of_fits hl hu (hpayload ▸ hfits)
  have hkeep := exec_keepsNonTargets (by decide) hexec
  obtain ⟨-, hfilled⟩ := length_unpackStream hu
  rw [s.length_input, hpayload] at hfilled
  obtain ⟨-, -, -, hsize, -⟩ := params_bounds hp
  have hbytes := (length_unpacked hu).trans hpayload
  rw [Nat.eq_sub_of_add_eq hfilled] at hexec
  have hout := putOutput_output s (bits := 8 * payload.length - h.toNat) h7 (by omega) (by rw [hbytes]; omega)
  refine ⟨_, _, hexec, exec_completed hexec, complete_succeeded _, hout, hbytes, unpackMsb_packMsb ?_, hkeep.freq rfl,
    hkeep.node rfl, hkeep.code rfl⟩
  rw [List.length_append, length_zeros, hfilled, Nat.mul_mod_right]

/-- Settles O47: a packed stream is the stream of the codewords, and the unpacker gives its bits back. -/
theorem unpackInvertsPack : Obligations.UnpackInvertsPack := by
  intro t size x p hp
  rcases packStream_cases t size x with ⟨he, -⟩ | ⟨he, -⟩ | ⟨he, -⟩ <;> cases he.symm.trans hp
  exact ⟨unpackStream_streamOf (codeBits t x), rfl⟩

end Sys2Proof.Machine

namespace Sys2Proof.Machine

/-! The facade statements (44_codec_facade.md): COMPRESS is its four stages (R175), what it leaves (R175, R178), what
DECOMPRESS writes (R176, R177), and the round trip (R179). -/

/-! ### What COMPRESS leaves (R175) -/

/-- What a COMPRESS that succeeds makes of its input (R175). -/
def compressionOf (x : List Byte) : Compressed where
  counts := countBytes x
  tree := treeFor x
  table := codesFor x
  stream := streamOf (codeBits (codesFor x) x)

section
variable {s : State}

/-- COMPRESS succeeds exactly on a non-empty input that fits IN_BUF, has short enough codewords and a stream that fits
OUT_BUF, and writes all it makes of the input (R175). -/
theorem compressCommand_eq_ok_iff {s' : State} :
    compressCommand s = .ok s' ↔ s.inLen.toNat ≤ s.params.inBufSize ∧ s.inLen ≠ 0#32 ∧
      LengthsAtMost (codesFor s.input) s.params.maxCodeLen ∧
      1 + ceilDiv (codeBits (codesFor s.input) s.input).length 8 ≤ s.params.outBufSize ∧
      s' = s.putCompressed (compressionOf s.input) := by
  rcases compressCommand_cases s with
    ⟨he, hlong⟩ | ⟨he, -, hempty⟩ | ⟨hl, h0, ⟨he, hcodes⟩ | ⟨hcodes, ⟨he, hbig⟩ | ⟨he, hfits⟩⟩⟩ <;> rw [he]
  · exact ⟨nofun, fun ⟨hl, _⟩ => absurd hl (Nat.not_le.2 hlong)⟩
  · exact ⟨nofun, fun ⟨_, h0, _⟩ => absurd hempty h0⟩
  · exact ⟨nofun, fun ⟨_, _, hok, _⟩ => absurd hok hcodes⟩
  · exact ⟨nofun, fun ⟨_, _, _, hfits, _⟩ => absurd hfits (Nat.not_le.2 hbig)⟩
  · exact ⟨fun h => ⟨hl, h0, hcodes, hfits, by cases h; rfl⟩, fun ⟨_, _, _, _, h⟩ => h ▸ rfl⟩

theorem exec_compress_of_fits (hl : s.inLen.toNat ≤ s.params.inBufSize) (h0 : s.inLen ≠ 0#32)
    (hcodes : LengthsAtMost (codesFor s.input) s.params.maxCodeLen)
    (hfits : 1 + ceilDiv (codeBits (codesFor s.input) s.input).length 8 ≤ s.params.outBufSize) :
    exec .compress s = .next (s.putCompressed (compressionOf s.input)).complete :=
  exec_of_ok (compressCommand_eq_ok_iff.2 ⟨hl, h0, hcodes, hfits, rfl⟩)

/-- A PACK that succeeds had a stream that fits OUT_BUF, and wrote it (R160). -/
theorem packCommand_eq_ok {s' : State} (h : packCommand s = .ok s') :
    1 + ceilDiv (codeBits s.code s.input).length 8 ≤ s.params.outBufSize ∧
      s' = s.putOutput (streamOf (codeBits s.code s.input)).bytes (padCount (codeBits s.code s.input).length)
        (codeBits s.code s.input).length := by
  rcases packCommand_cases s with
    ⟨he, -⟩ | ⟨he, -⟩ | ⟨-, -, ⟨he, -⟩ | ⟨he, -⟩ | ⟨he, -, hfits⟩⟩ <;> cases he.symm.trans h
  exact ⟨hfits, rfl⟩

/-- COMPRESS puts out the stream of its input under the codes it assigns (R162, R175). -/
theorem putCompressed_output (hp : s.params.wellFormed = true)
    (hfits : 1 + ceilDiv (codeBits (codesFor s.input) s.input).length 8 ≤ s.params.outBufSize) :
    Output s (s.putCompressed (compressionOf s.input)).complete (streamOf (codeBits (codesFor s.input) s.input)).bytes
      (padCount (codeBits (codesFor s.input) s.input).length) (codeBits (codesFor s.input) s.input).length :=
  have hout := putOutput_streamOf_output hp hfits
  ⟨hout.outLen, hout.written, hout.above, hout.pad, hout.bitLen⟩

end

/-- Settles O50: each stage leaves the input as it was and writes what COMPRESS makes of it, and the last completion
overwrites the status of the earlier ones. -/
theorem compressIsTheFourStages : Obligations.CompressIsTheFourStages := by
  intro s a b c d h0 hxa ha hxb hb hxc hc hxd hd
  obtain ⟨_, hfreq, rfl⟩ := exec_next_of_noError hxa ha
  obtain ⟨hl, rfl⟩ := freqCommand_eq_ok_iff.1 hfreq
  obtain ⟨_, hbuild, rfl⟩ := exec_next_of_noError hxb hb
  obtain ⟨-, -, rfl⟩ := buildTreeCommand_eq_ok_iff.1 hbuild
  obtain ⟨_, hgen, rfl⟩ := exec_next_of_noError hxc hc
  obtain ⟨-, hcodes, rfl⟩ := genCodesCommand_eq_ok_iff.1 hgen
  obtain ⟨_, hpack, rfl⟩ := exec_next_of_noError hxd hd
  obtain ⟨hfits, rfl⟩ := packCommand_eq_ok hpack
  exact (exec_compress_of_fits hl h0 hcodes hfits :)

/-- Settles O49: COMPRESS succeeds, its tree is the one the merge loop builds from the exact counts, and its table the
codes of that tree. -/
theorem compressWritesAllFourResults : Obligations.CompressWritesAllFourResults := by
  intro s hs h0 hl hcodes hfits
  have hexec := exec_compress_of_fits hl h0 hcodes hfits
  obtain ⟨-, hbuilt⟩ := buildTree_countBytes (input_ne_nil.2 h0) (length_input_lt s)
  exact ⟨_, hexec, exec_completed hexec, complete_succeeded _, rfl, at256_countBytes_input, ⟨_, hbuilt.tree⟩,
    hbuilt.oneParent, hbuilt.tree.genCodes_inv (anyCodeLonger_eq_false.2 hcodes),
    fun _ => codesFor_mapped (length_input_lt s), _, rfl, putCompressed_output hs.params hfits⟩

/-! ### What DECOMPRESS writes (R176, R177) -/

/-- Under a valid table DECOMPRESS of the codewords of `ys` puts out `ys`: the greedy decode finds them (R102,
R176, R177), and the sizes of R7 keep the counts within their registers. -/
theorem State.Inv.exec_decompress {s : State} (hs : s.Inv) (hv : s.valid.table = true)
    (hl : s.inLen.toNat ≤ s.params.inBufSize) {ys : List Byte} {pad : Nat}
    (hu : unpackStream s.input = .ok (pad, codeBits s.code ys)) (hmapped : ∀ y ∈ ys, bitsAt s.code y ≠ [])
    (hfits : ys.length ≤ s.params.outBufSize) :
    exec .decompress s = .next (s.putOutput ys pad (codeBits s.code ys).length).complete ∧
      Output s (s.putOutput ys pad (codeBits s.code ys).length).complete ys pad (codeBits s.code ys).length := by
  constructor
  · have hdecode := (decodeBits_eq_some_iff (hs.table hv).prefixes).2 ⟨rfl, hmapped⟩
    refine exec_of_ok (show decompressCommand s = _ from ?_)
    rcases decompressCommand_cases s with
      ⟨-, hlong⟩ | ⟨-, -, hinvalid⟩ | ⟨-, -, ⟨-, hbad⟩ | ⟨_, _, hu', hcases⟩⟩
    · exact absurd hl (Nat.not_le.2 hlong)
    · cases hinvalid.symm.trans hv
    · cases hbad.symm.trans hu
    · cases hu'.symm.trans hu
      rcases hcases with ⟨-, hnone⟩ | ⟨_, hsome, hcases⟩
      · cases hnone.symm.trans hdecode
      · cases hsome.symm.trans hdecode
        rcases hcases with ⟨-, hbig⟩ | ⟨he, -⟩
        · exact absurd hfits (Nat.not_le.2 hbig)
        · exact he
  · obtain ⟨h7, hbits⟩ := length_unpackStream hu
    rw [s.length_input] at hbits
    have hin := hs.inBufSize_le
    have hout := hs.outBufSize_le
    exact putOutput_output s h7 (by omega) (by omega)

/-- Settles O52: the unpacker gives the codewords of `ys`, which the greedy decode cuts into `ys`. -/
theorem decompressWritesTheSymbols : Obligations.DecompressWritesTheSymbols := by
  intro s h payload ys hs hl hv hinput h7 hempty hmapped hbits hfits
  have hu : unpackStream s.input = .ok (h.toNat, codeBits s.code ys) :=
    unpackStream_ok_iff.2 ⟨h, payload, hinput, h7, fun hnil => hempty hnil ▸ rfl, rfl, hbits⟩
  obtain ⟨-, hfilled⟩ := length_unpackStream hu
  rw [hinput, List.length_cons, Nat.add_sub_cancel] at hfilled
  obtain ⟨hexec, hout⟩ := hs.exec_decompress hv hl hu hmapped hfits
  have hkeep := exec_keepsNonTargets (by decide) hexec
  exact ⟨_, hexec, exec_completed hexec, complete_succeeded _, Nat.eq_sub_of_add_eq hfilled ▸ hout,
    hkeep.freq rfl, hkeep.node rfl, hkeep.code rfl⟩

/-! ### The round trip (R179) -/

/-- An output copied to IN_BUF is the input there (R94). -/
theorem Output.input_eq {s t u : State} {bytes : List Byte} {pad bits : Nat} (h : Output s t bytes pad bits)
    (hl : u.inLen = t.outLen) (hbuf : ∀ a < t.outLen.toNat, u.inBuf.read a = t.outBuf.read a) : u.input = bytes := by
  rw [← h.written, ← h.outLen, State.input, hl]
  exact Memory.readBytes_congr fun a ha => (Nat.zero_add a).symm ▸ hbuf a ha

/-- An output that is the input of some state reads back as its IN_BUF (R66, R94). -/
theorem Output.read_eq_input {s t u : State} {pad bits : Nat} (h : Output s t u.input pad bits) :
    t.outLen = u.inLen ∧ ∀ a < u.inLen.toNat, t.outBuf.read a = u.inBuf.read a := by
  obtain ⟨hlen, hwritten, -⟩ := h
  rw [u.length_input] at hlen hwritten
  refine ⟨BitVec.eq_of_toNat_eq hlen, fun a ha => ?_⟩
  simpa using List.map_inj_left.1 hwritten a (List.mem_range.2 ha)

/-- Settles O53: the input of `u` is the stream COMPRESS put out, whose bits are the codewords of the bytes it read. -/
theorem compressThenDecompressIsIdentity : Obligations.CompressThenDecompressIsIdentity := by
  intro s t u hs hx herr hu hp hcode hv hlen hbuf hstream hfits
  obtain ⟨_, hb, rfl⟩ := exec_next_of_noError hx herr
  obtain ⟨-, -, -, hout, rfl⟩ := compressCommand_eq_ok_iff.1 hb
  have hcode : u.code = codesFor s.input := hcode
  have hunpack : unpackStream u.input = .ok (padCount (codeBits u.code s.input).length, codeBits u.code s.input) := by
    rw [(putCompressed_output hs.params hout).input_eq hlen hbuf, hcode]
    exact unpackStream_streamOf _
  have hl : u.inLen.toNat ≤ u.params.inBufSize := by
    rw [hlen, hp]
    exact hstream
  have hfits : s.input.length ≤ u.params.outBufSize := by
    rw [s.length_input, hp]
    exact hfits
  have hmapped : ∀ y ∈ s.input, bitsAt u.code y ≠ [] := hcode ▸ fun _ => codesFor_mapped (length_input_lt s)
  obtain ⟨hexec, hcopy⟩ := hu.exec_decompress hv hl hunpack hmapped hfits
  exact ⟨_, hexec, complete_succeeded _, hcopy.read_eq_input⟩

end Sys2Proof.Machine

namespace Sys2Proof.Machine

/-! The control statements (45_control.md): what NOP leaves as it was (R190), and what CLEAR zeroes and keeps, with the
words a host then reads in the table windows (R191). -/

/-- Settles O28: NOP is the completion of the state it found. -/
theorem nopChangesOnlyStatus : Obligations.NopChangesOnlyStatus := fun _ => exec_of_ok rfl

/-! ### The window words of tables at zero (R36, R39, R41) -/

/-- The empty codeword shows 0 in each of its CODE_BITS words (R41). -/
theorem codeBitsWord_nil (k : Nat) : codeBitsWord k (.word []) = some 0#32 := by
  simp only [codeBitsWord, List.getD_nil]
  rfl

section
variable {s : State} (hb : s.busy = false) (hfreq : ∀ x : Byte, s.freq.countOf x = 0#32)
  (hcode : ∀ x : Byte, at256 s.code x = .word []) (hnode : ∀ i < 511, s.arena.entry i = .internal 0#32 0#9 0#9)
include hb hfreq hcode hnode

/-- In Idle, tables at zero show 0 at every offset of their windows. -/
theorem readReg_window_of_zero {off : Nat}
    (h : (0x400 ≤ off ∧ off < 0xC00) ∨ (0x1000 ≤ off ∧ off < 0x3000) ∨ (0x4000 ≤ off ∧ off < 0x4FF8)) :
    s.readReg (regAt off) = some 0#32 := by
  rw [readReg_shown (.inl hb)]
  rcases h with ⟨hlo, hhi⟩ | ⟨hlo, hhi⟩ | ⟨hlo, hhi⟩
  · by_cases hmid : off < 0x800
    · rw [regAt_freq hlo hmid]
      exact congrArg some (hfreq _)
    · rw [regAt_codeLen (by omega) hhi]
      exact congrArg codeLenWord (hcode _)
  · rw [regAt_codeBits hlo hhi]
    exact (congrArg (codeBitsWord _) (hcode _)).trans (codeBitsWord_nil _)
  · have hentry := hnode ((off - 0x4000) / 8) (by omega)
    rw [regAt_node hlo hhi]
    split
    · exact congrArg nodeWord0 hentry
    · exact congrArg nodeWord1 hentry

end

/-! ### What CLEAR leaves (R191) -/

/-- Every entry of a uniform arena is the one it is filled with (R38). -/
theorem Arena.entry_replicate (e : NodeEntry) (root nodes : BitVec 9) {i : Nat} (hi : i < 511) :
    Arena.entry { entries := Vector.replicate 511 e, root := root, nodes := nodes } i = e := by
  rw [Arena.entry, Vector.toList_replicate, List.getD_replicate _ hi]

/-- Settles O29: CLEAR completes in the state with its tables at zero, and the window words follow from the tables. -/
theorem clearZeroesTheTables : Obligations.ClearZeroesTheTables := by
  intro s
  have hexec : exec .clear s = .next s.clearTables.complete := exec_of_ok rfl
  have hfreq : ∀ x : Byte, s.clearTables.complete.freq.countOf x = 0#32 := at256_replicate _
  have hcode : ∀ x : Byte, at256 s.clearTables.complete.code x = .word [] := at256_replicate _
  have hnode : ∀ i < 511, s.clearTables.complete.arena.entry i = .internal 0#32 0#9 0#9 :=
    fun _ => Arena.entry_replicate _ _ _
  exact ⟨_, hexec, exec_completed hexec, complete_succeeded _, hfreq, hcode, hnode, rfl, rfl, rfl, rfl, fun _ => rfl,
    fun _ _ => readReg_window_of_zero rfl hfreq hcode hnode⟩

end Sys2Proof.Machine

namespace Sys2Proof.Machine

/-! The exception statements (60_exceptions.md): the one completion of a command and what a failure leaves (R203 to
R205), the errors of each command and the first one it reaches (R206 to R208), the interrupt (R210, R211), what a polling
host sees (R212), what can stop the machine (R201), and Idle with nothing pending (R221). -/

/-! ### Completion and failure (R203 to R205) -/

section
variable {s t : State} {i : Instr} {e : ErrCode}

/-- A command whose body reaches an error completes with it (R205). -/
theorem exec_failedWith (h : bodyOf i s = .error e) : ∃ t, exec i s = .next t ∧ FailedWith t e :=
  ⟨_, exec_of_error h, fail_failedWith s _ e⟩

/-- A command that leaves ERR = 1 reached an error, and spoiled its target structures (R205). -/
theorem exec_next_of_error (hx : exec i s = .next t) (herr : t.status.err = true) :
    ∃ e, bodyOf i s = .error e ∧ t = s.fail (targetsOf i) e := by
  rcases exec_next_cases hx with ⟨s', -, rfl⟩ | h
  · obtain ⟨hok, -⟩ := complete_succeeded s'
    cases hok.symm.trans herr
  · exact h

/-- The code of a success is no error of any command (R200). -/
theorem none_not_mem_errorsOf (i : Instr) : .none ∉ errorsOf i := by
  cases i <;> decide

theorem exec_err_iff (hx : exec i s = .next t) : t.status.err = true ↔ t.status.errCode ≠ .none := by
  rcases exec_next_cases hx with ⟨s', -, rfl⟩ | ⟨e, hb, rfl⟩
  · obtain ⟨herr, hcode⟩ := complete_succeeded s'
    simp only [herr, hcode, Bool.false_eq_true, ne_eq, not_true_eq_false]
  · obtain ⟨herr, hcode⟩ := fail_failedWith s (targetsOf i) e
    have hne : e ≠ .none := fun h0 => none_not_mem_errorsOf i (h0 ▸ bodyOf_error_mem hb)
    exact iff_of_true herr (hcode ▸ hne)

end

/-- Settles O7: every command is its body, completed. -/
theorem everyCommandCompletesOnce : Obligations.EveryCommandCompletesOnce := fun i s =>
  have hx := exec_eq_finish i s
  ⟨_, hx, exec_completed hx, exec_err_iff hx⟩

/-- Settles O8: the failure effects on the targets of each row of R205. -/
theorem failureSpoilsExactlyTheTargets : Obligations.FailureSpoilsExactlyTheTargets := by
  intro i s t hx herr
  obtain ⟨e, hb, rfl⟩ := exec_next_of_error hx herr
  obtain ⟨hfreq, hnode, hcode, hout⟩ := fail_effects s (targetsOf i) e
  cases i with
  | nop | clear => cases hb
  | freq | buildTree | genCodes | loadTable | pack | unpack | decompress | saveTable | compress =>
    exact ⟨hfreq, hnode, hcode, hout⟩

/-- Settles O9: the code recorded is that of an error the command's body can reach. -/
theorem eachCommandReportsOnlyItsErrors : Obligations.EachCommandReportsOnlyItsErrors := by
  intro i s t hx herr
  obtain ⟨e, hb, rfl⟩ := exec_next_of_error hx herr
  obtain ⟨-, hcode⟩ := fail_failedWith s (targetsOf i) e
  rw [hcode]
  exact bodyOf_error_mem hb

/-! ### The first error of the stage commands (R131, R141, R206, R208) -/

section
variable {s : State}

/-- Every command that reads the input checks its length first (R206). -/
theorem bodyOf_of_inputTooLong {i : Instr} (hi : .inputTooLong ∈ errorsOf i)
    (hl : s.params.inBufSize < s.inLen.toNat) : bodyOf i s = .error .inputTooLong := by
  have hlong := inputTooLong_iff.2 hl
  cases i with
  | freq | pack | unpack | compress | decompress | loadTable => exact if_pos hlong
  | nop | buildTree | genCodes | saveTable | clear => exact absurd hi (by decide)

theorem exec_inputTooLong {i : Instr} (hi : .inputTooLong ∈ errorsOf i) (hl : s.params.inBufSize < s.inLen.toNat) :
    ∃ t, exec i s = .next t ∧ FailedWith t .inputTooLong :=
  exec_failedWith (bodyOf_of_inputTooLong hi hl)

theorem buildTreeCommand_of_invalid (hv : s.valid.freq = false) : buildTreeCommand s = .error .sequenceError :=
  if_neg (Bool.eq_false_iff.1 hv)

/-- No symbol is present exactly where every count is 0 (R132). -/
theorem presentCounts_eq_nil_iff {c : Counts} : presentCounts c = [] ↔ ∀ x, at256 c x = 0#32 := by
  rw [List.eq_nil_iff_forall_not_mem]
  constructor
  · intro h x
    by_contra hx
    exact h (x, at256 c x) (mem_presentCounts.2 ⟨rfl, hx⟩)
  · rintro h ⟨x, n⟩ hp
    obtain ⟨hx, hn⟩ := mem_presentCounts.1 hp
    exact hn (hx.symm.trans (h x))

theorem buildTreeCommand_of_noSymbol (hv : s.valid.freq = true) (h : ∀ x : Byte, s.freq.countOf x = 0#32) :
    buildTreeCommand s = .error .emptyAlphabet := by
  have hnone : presentCounts s.freq.all = [] := presentCounts_eq_nil_iff.2 fun x => (at256_freqAll _ x).trans (h x)
  rcases buildTreeCommand_cases s with ⟨-, hinvalid⟩ | ⟨he, -⟩ | ⟨-, -, hsome⟩
  · cases hinvalid.symm.trans hv
  · exact he
  · exact absurd hnone hsome

theorem genCodesCommand_of_invalid (hv : s.valid.tree = false) : genCodesCommand s = .error .sequenceError :=
  if_neg (Bool.eq_false_iff.1 hv)

theorem genCodesCommand_of_long (hv : s.valid.tree = true)
    (h : ¬ LengthsAtMost (genCodes s.arena) s.params.maxCodeLen) : genCodesCommand s = .error .codeTooLong := by
  rcases genCodesCommand_cases s with ⟨-, hinvalid⟩ | ⟨he, -⟩ | ⟨-, -, hshort⟩
  · cases hinvalid.symm.trans hv
  · exact he
  · exact absurd hshort h

/-- A leaf of a valid tree deeper than MAX_CODE_LEN gets a codeword longer than that (R141, R142). -/
theorem State.Inv.not_lengthsAtMost_of_leafPath (hs : s.Inv) (hv : s.valid.tree = true) {p : Bits} {x : Byte}
    (hp : LeafPath s.arena p x) (hlong : s.params.maxCodeLen < p.length) :
    ¬ LengthsAtMost (genCodes s.arena) s.params.maxCodeLen := by
  obtain ⟨⟨n, htree⟩, hone⟩ := hs.tree hv
  obtain ⟨-, -, -, -, hpos, -⟩ := params_bounds hs.params
  intro hl
  exact Nat.not_le.2 hlong ((htree.lengthsAtMost_iff hone hpos).1 hl p x hp)

end

/-- Settles O38: each condition is that of the first test of the command's body that fails. -/
theorem stageErrorsInOrder : Obligations.StageErrorsInOrder := by
  intro s
  refine ⟨exec_inputTooLong (by decide), fun hv => ?_, fun hv h => ?_, fun hv => ?_, fun hv hs ⟨p, x, hp, hlong⟩ => ?_⟩
  · exact exec_failedWith (buildTreeCommand_of_invalid hv)
  · exact exec_failedWith (buildTreeCommand_of_noSymbol hv h)
  · exact exec_failedWith (genCodesCommand_of_invalid hv)
  · exact exec_failedWith (genCodesCommand_of_long hv (hs.not_lengthsAtMost_of_leafPath hv hp hlong))

/-! ### The first error of the table commands (R146, R150 to R152, R208) -/

/-- The shortest serialization has a count, a symbol and a length (R107, R109). -/
theorem parseTable_of_short {maxLen : Nat} {x : List Byte} (h : x.length < 3) :
    parseTable maxLen x = .error .invalidTable := by
  match x, h with
  | [], _ | [_], _ | [_, _], _ => rfl

/-- A record has a codeword of 1 to `maxLen` bits, in just as many bytes as it needs, and the last record ends the table
(R151). -/
theorem parseRecords_last_of_malformed {maxLen lo : Nat} {x l : Byte} {rest : List Byte}
    (h : l = 0#8 ∨ maxLen < l.toNat ∨ rest.length ≠ ceilDiv l.toNat 8) :
    parseRecords maxLen 1 lo (x :: l :: rest) = none := by
  simp only [parseRecords]
  split; · rfl
  split; · rfl
  next hlen =>
    split; · rfl
    next hbytes =>
      split; · rfl
      have hl : l.toNat ≠ 0 := fun h0 => hlen (.inl h0)
      have hmax : ¬ maxLen < l.toNat := fun hlong => hlen (.inr hlong)
      have hover : rest.length ≠ ceilDiv l.toNat 8 := by
        rcases h with rfl | h | h
        · exact absurd rfl hl
        · exact absurd h hmax
        · exact h
      cases hd : rest.drop (ceilDiv l.toNat 8) with
      | nil =>
        have hle := List.drop_eq_nil_iff.1 hd
        omega
      | cons b bs => rfl

theorem parseTable_one_of_malformed {maxLen : Nat} {x l : Byte} {rest : List Byte}
    (h : l = 0#8 ∨ maxLen < l.toNat ∨ rest.length ≠ ceilDiv l.toNat 8) :
    parseTable maxLen (0#8 :: x :: l :: rest) = .error .invalidTable := by
  simp only [parseTable, BitVec.toNat_ofNat, Nat.zero_mod, Nat.zero_add, parseRecords_last_of_malformed h]

section
variable {s : State}

theorem saveTableCommand_of_invalid (hv : s.valid.table = false) : saveTableCommand s = .error .sequenceError :=
  if_neg (Bool.eq_false_iff.1 hv)

/-- LOAD_TABLE of an input that is read and that the parser does not take (R150, R151). -/
theorem loadTableCommand_of_rejected (hl : s.inLen.toNat ≤ s.params.inBufSize)
    (h : ∀ t, parseTable s.params.maxCodeLen s.input ≠ .ok t) : loadTableCommand s = .error .invalidTable := by
  rcases loadTableCommand_cases s with ⟨-, hlong⟩ | ⟨he, -⟩ | ⟨t, -, -, hp⟩
  · exact absurd hl (Nat.not_le.2 hlong)
  · exact he
  · exact absurd hp (h t)

end

/-- Settles O43: the parser takes serializations alone, and it rejects each of the malformed inputs named. -/
theorem tableErrorsInOrder : Obligations.TableErrorsInOrder := by
  intro s
  refine ⟨fun hv => ?_, exec_inputTooLong (by decide), fun hs hl hno => ?_, fun hl h => ?_⟩
  · exact exec_failedWith (saveTableCommand_of_invalid hv)
  · refine exec_failedWith (loadTableCommand_of_rejected hl fun t hp => ?_)
    obtain ⟨rs, hser, -⟩ := (parseTable_eq_ok_iff_serialized hs.maxCodeLen_le).1 hp
    exact hno rs hser
  · have hbad : parseTable s.params.maxCodeLen s.input = .error .invalidTable := by
      rcases h with hshort | ⟨x, l, rest, hinput, hrec⟩
      · exact parseTable_of_short (s.length_input.symm ▸ hshort)
      · exact hinput ▸ parseTable_one_of_malformed hrec
    exact exec_failedWith (loadTableCommand_of_rejected hl fun t hp => by cases hbad.symm.trans hp)

/-! ### The first error of the stream commands (R160, R165, R206 to R208) -/

section
variable {s : State} (hl : s.inLen.toNat ≤ s.params.inBufSize)
include hl

theorem packCommand_of_invalid (hv : s.valid.table = false) : packCommand s = .error .sequenceError := by
  rcases packCommand_cases s with ⟨-, hlong⟩ | ⟨he, -⟩ | ⟨-, hvalid, -⟩
  · exact absurd hl (Nat.not_le.2 hlong)
  · exact he
  · cases hv.symm.trans hvalid

theorem packCommand_of_unmapped (hv : s.valid.table = true) (h : ∃ x ∈ s.input, bitsAt s.code x = []) :
    packCommand s = .error .unmappedSymbol := by
  obtain ⟨x, hx, hnone⟩ := h
  rcases packCommand_cases s with ⟨-, hlong⟩ | ⟨-, -, hinvalid⟩ | ⟨-, -, ⟨he, -⟩ | ⟨-, hmapped, -⟩ | ⟨-, hmapped, -⟩⟩
  · exact absurd hl (Nat.not_le.2 hlong)
  · cases hinvalid.symm.trans hv
  · exact he
  · exact absurd hnone (hmapped x hx)
  · exact absurd hnone (hmapped x hx)

theorem packCommand_of_overflow (hv : s.valid.table = true) (hmapped : ∀ x ∈ s.input, bitsAt s.code x ≠ [])
    (hbig : s.params.outBufSize < 1 + ceilDiv (codeBits s.code s.input).length 8) :
    packCommand s = .error .outputOverflow := by
  rcases packCommand_cases s with
    ⟨-, hlong⟩ | ⟨-, -, hinvalid⟩ | ⟨-, -, ⟨-, x, hx, hnone⟩ | ⟨he, -⟩ | ⟨-, -, hfits⟩⟩
  · exact absurd hl (Nat.not_le.2 hlong)
  · cases hinvalid.symm.trans hv
  · exact absurd hnone (hmapped x hx)
  · exact he
  · exact absurd hfits (Nat.not_le.2 hbig)

theorem unpackCommand_of_truncated (hu : unpackStream s.input = .error .truncatedStream) :
    unpackCommand s = .error .truncatedStream := by
  rcases unpackCommand_cases s with ⟨-, hlong⟩ | ⟨he, -⟩ | ⟨_, _, hok, -⟩
  · exact absurd hl (Nat.not_le.2 hlong)
  · exact he
  · cases hu.symm.trans hok

theorem unpackCommand_of_overflow {p : Nat × Bits} (hu : unpackStream s.input = .ok p)
    (hbig : s.params.outBufSize < s.inLen.toNat - 1) : unpackCommand s = .error .outputOverflow := by
  rcases unpackCommand_cases s with ⟨-, hlong⟩ | ⟨-, -, hbad⟩ | ⟨_, _, -, -, ⟨he, -⟩ | ⟨-, hfits⟩⟩
  · exact absurd hl (Nat.not_le.2 hlong)
  · cases hu.symm.trans hbad
  · exact he
  · exact absurd hfits (Nat.not_le.2 hbig)

end

/-- An input with a padding count of R101 is unpacked (R166). -/
theorem unpackStream_of_padding {x : List Byte} {h : Byte} {payload : List Byte} (hx : x = h :: payload)
    (h7 : h.toNat ≤ 7) (hempty : payload = [] → h = 0#8) :
    unpackStream x = .ok (h.toNat, (unpackMsb payload).take (8 * payload.length - h.toNat)) :=
  unpackStream_ok_iff.2 ⟨h, payload, hx, h7, fun hnil => hempty hnil ▸ rfl, rfl, rfl⟩

/-- Settles O48: each condition is that of the first test of the command's body that fails. -/
theorem streamErrorsInOrder : Obligations.StreamErrorsInOrder := by
  intro s
  refine ⟨fun hlong => ⟨exec_inputTooLong (by decide) hlong, exec_inputTooLong (by decide) hlong⟩, fun hl =>
    ⟨fun hv => ?_, fun hv hnone => ?_, fun hv hmapped hbig => ?_, fun hbad => ?_,
      fun h payload hinput h7 hempty hbig => ?_⟩⟩
  · exact exec_failedWith (packCommand_of_invalid hl hv)
  · exact exec_failedWith (packCommand_of_unmapped hl hv hnone)
  · exact exec_failedWith (packCommand_of_overflow hl hv hmapped hbig)
  · exact exec_failedWith (unpackCommand_of_truncated hl (unpackStream_truncated hbad))
  · have hlen : s.inLen.toNat - 1 = payload.length := by
      rw [← s.length_input, hinput, List.length_cons, Nat.add_sub_cancel]
    exact exec_failedWith (unpackCommand_of_overflow hl (unpackStream_of_padding hinput h7 hempty) (hlen ▸ hbig))

/-! ### The first error of the facade commands (R175, R176, R206 to R208) -/

section
variable {s : State} (hl : s.inLen.toNat ≤ s.params.inBufSize)
include hl

theorem compressCommand_of_empty (h0 : s.inLen = 0#32) : compressCommand s = .error .emptyInput := by
  rcases compressCommand_cases s with ⟨-, hlong⟩ | ⟨he, -⟩ | ⟨-, hne, -⟩
  · exact absurd hl (Nat.not_le.2 hlong)
  · exact he
  · exact absurd h0 hne

theorem compressCommand_of_long (h0 : s.inLen ≠ 0#32)
    (h : ¬ LengthsAtMost (codesFor s.input) s.params.maxCodeLen) : compressCommand s = .error .codeTooLong := by
  rcases compressCommand_cases s with ⟨-, hlong⟩ | ⟨-, -, hempty⟩ | ⟨-, -, ⟨he, -⟩ | ⟨hshort, -⟩⟩
  · exact absurd hl (Nat.not_le.2 hlong)
  · exact absurd hempty h0
  · exact he
  · exact absurd hshort h

theorem compressCommand_of_overflow (h0 : s.inLen ≠ 0#32)
    (hcodes : LengthsAtMost (codesFor s.input) s.params.maxCodeLen)
    (hbig : s.params.outBufSize < 1 + ceilDiv (codeBits (codesFor s.input) s.input).length 8) :
    compressCommand s = .error .outputOverflow := by
  rcases compressCommand_cases s with
    ⟨-, hlong⟩ | ⟨-, -, hempty⟩ | ⟨-, -, ⟨-, hcode⟩ | ⟨-, ⟨he, -⟩ | ⟨-, hfits⟩⟩⟩
  · exact absurd hl (Nat.not_le.2 hlong)
  · exact absurd hempty h0
  · exact absurd hcodes hcode
  · exact he
  · exact absurd hfits (Nat.not_le.2 hbig)

theorem decompressCommand_of_invalid (hv : s.valid.table = false) : decompressCommand s = .error .sequenceError := by
  rcases decompressCommand_cases s with ⟨-, hlong⟩ | ⟨he, -⟩ | ⟨-, hvalid, -⟩
  · exact absurd hl (Nat.not_le.2 hlong)
  · exact he
  · cases hv.symm.trans hvalid

theorem decompressCommand_of_truncated (hv : s.valid.table = true)
    (hu : unpackStream s.input = .error .truncatedStream) : decompressCommand s = .error .truncatedStream := by
  rcases decompressCommand_cases s with
    ⟨-, hlong⟩ | ⟨-, -, hinvalid⟩ | ⟨-, -, ⟨he, -⟩ | ⟨_, _, hok, -⟩⟩
  · exact absurd hl (Nat.not_le.2 hlong)
  · cases hinvalid.symm.trans hv
  · exact he
  · cases hu.symm.trans hok

/-- On a stream that is unpacked under a valid table, DECOMPRESS decodes the bits and then checks the length of what
they give (R176, R207). -/
theorem decompressCommand_of_unpacked (hv : s.valid.table = true) {pad : Nat} {bits : Bits}
    (hu : unpackStream s.input = .ok (pad, bits)) :
    (decodeBits s.code bits = none → decompressCommand s = .error .undecodableStream) ∧
    ∀ ys, decodeBits s.code bits = some ys → s.params.outBufSize < ys.length →
      decompressCommand s = .error .outputOverflow := by
  rcases decompressCommand_cases s with
    ⟨-, hlong⟩ | ⟨-, -, hinvalid⟩ | ⟨-, -, ⟨-, hbad⟩ | ⟨_, _, hu', hcases⟩⟩
  · exact absurd hl (Nat.not_le.2 hlong)
  · cases hinvalid.symm.trans hv
  · cases hbad.symm.trans hu
  · cases hu'.symm.trans hu
    rcases hcases with ⟨he, hnone⟩ | ⟨zs, hsome, ⟨he, -⟩ | ⟨-, hfits⟩⟩
    · exact ⟨fun _ => he, fun ys hys => absurd (hnone.symm.trans hys) nofun⟩
    · exact ⟨fun hnone => absurd (hnone.symm.trans hsome) nofun, fun _ _ _ => he⟩
    · refine ⟨fun hnone => absurd (hnone.symm.trans hsome) nofun, fun ys hys hbig => ?_⟩
      cases hys.symm.trans hsome
      exact absurd hfits (Nat.not_le.2 hbig)

end

/-- Bits that are no concatenation of codewords are not decoded (R177). -/
theorem decodeBits_eq_none {t : CodeTable} {bits : Bits}
    (h : ∀ ys : List Byte, (∀ y ∈ ys, bitsAt t y ≠ []) → ys.flatMap (bitsAt t) ≠ bits) : decodeBits t bits = none := by
  cases hd : decodeBits t bits with
  | none => rfl
  | some ys =>
    obtain ⟨hbits, hmapped⟩ := decodeFrom_sound hd
    exact absurd hbits (h ys hmapped)

/-- Settles O54: each condition is that of the first test of the command's body that fails; the greedy decode of a table
of R43 fails exactly on bits that are no concatenation of codewords. -/
theorem facadeErrorsInOrder : Obligations.FacadeErrorsInOrder := by
  intro s
  refine ⟨fun hlong => ⟨exec_inputTooLong (by decide) hlong, exec_inputTooLong (by decide) hlong⟩, fun hl =>
    ⟨fun h0 => ?_, fun h0 hcode => ?_, fun h0 hcodes hbig => ?_, fun hv => ?_, fun hv hbad => ?_,
      fun hv hs h payload hinput h7 hempty => ?_⟩⟩
  · exact exec_failedWith (compressCommand_of_empty hl h0)
  · exact exec_failedWith (compressCommand_of_long hl h0 hcode)
  · exact exec_failedWith (compressCommand_of_overflow hl h0 hcodes hbig)
  · exact exec_failedWith (decompressCommand_of_invalid hl hv)
  · exact exec_failedWith (decompressCommand_of_truncated hl hv (unpackStream_truncated hbad))
  · obtain ⟨hundecodable, hoverflow⟩ :=
      decompressCommand_of_unpacked hl hv (unpackStream_of_padding hinput h7 hempty)
    refine ⟨fun hnone => ?_, fun ys hmapped hbits hbig => ?_⟩
    · exact exec_failedWith (hundecodable (decodeBits_eq_none hnone))
    · have hdecode := (decodeBits_eq_some_iff (hs.table hv).prefixes).2 ⟨hbits, hmapped⟩
      exact exec_failedWith (hoverflow ys hdecode hbig)

/-! ### The interrupt (R210, R211) -/

section
variable {s t : State}

theorem irq_iff : s.irq = true ↔
    (s.status.done = true ∧ s.irqEn.doneIE = true) ∨ (s.status.err = true ∧ s.irqEn.errIE = true) := by
  simp only [State.irq, Bool.or_eq_true, Bool.and_eq_true]

/-- DONE is 1 after every completion, so DONE_IE alone raises the interrupt, and ERR_IE does where the command failed
(R210). -/
theorem Completed.irq_iff (h : Completed s t) :
    t.irq = true ↔ s.irqEn.doneIE = true ∨ (s.irqEn.errIE = true ∧ t.status.err = true) := by
  rw [Machine.irq_iff, h.done, h.irqEn, and_comm (a := t.status.err = true)]
  simp only [true_and]

/-- A register write that is answered left what `writeReg` makes of the state (R63). -/
theorem hostAccess_regWrite_next {off : Nat} {v : Word} (hr : s.rstLow = false) (h4 : off % 4 = 0) (h : off < 0x8000)
    (hx : hostAccess { dir := .write v, space := .reg, offset := off, width := 4 } s = .next t) :
    t = (s.writeReg (regAt off) v).answerWrite := by
  rw [hostAccess_regWrite hr h4 h] at hx
  cases hx
  rfl

end

/-- Settles O27: the level is that of DONE and ERR under their enables, so each event sets it by what it writes of the
four. -/
theorem interruptFollowsCompletion : Obligations.InterruptFollowsCompletion := by
  refine ⟨fun i s t hx => (exec_completed hx).irq_iff, fun s t w e hr hp hd hx => ?_, fun s t w hp hr hx => ?_,
    fun s t w hr hx => ?_, fun s t w hr hx => ?_, fun s => rfl⟩
  · cases (engineStep_of_illegal hr hp hd).symm.trans hx
    rw [State.illegalWord, (fail_completed s noTargets .illegalCommand).irq_iff,
      (fail_failedWith s noTargets .illegalCommand).1, and_iff_left rfl]
  · obtain rfl := hostAccess_regWrite_next hr (by decide) (by decide) hx
    have hcmd : s.writeReg (regAt 0x004) w = s.acceptCmd w := writeCmd_of_idle w hp
    rw [hcmd]
    rfl
  · obtain rfl := hostAccess_regWrite_next hr (by decide) (by decide) hx
    have hstatus : s.writeReg (regAt 0x008) w = s.clearStatus w := rfl
    simp only [hstatus, irq_iff, State.answerWrite_status, State.answerWrite_irqEn, State.clearStatus_status,
      State.clearStatus_irqEn, Bool.and_eq_true, Bool.not_eq_true', and_assoc]
  · obtain rfl := hostAccess_regWrite_next hr (by decide) (by decide) hx
    exact irq_iff

/-! ### A polling host (R113, R212) -/

/-- A host read of STATUS (R113). -/
abbrev statusPoll : HostEvent := .access { dir := .read, space := .reg, offset := 0x008, width := 4 }

section
variable {s : State}

/-- A poll that is the oldest pending input answers STATUS and changes nothing of the block (R73, R76). -/
theorem step_statusPoll {rest : List HostEvent} (hr : s.rstLow = false) (hi : s.inputs = statusPoll :: rest) :
    step s = .next { s with inputs := rest, resp := .read s.statusWord } :=
  (step_cons hi).trans (hostAccess_regRead_some hr (by decide) (by decide) (readReg_shown (.inr rfl)))

/-- Out of reset, the engine's transition completes the running command, whatever its word (R93, R203). -/
theorem engineStep_busy (hr : s.rstLow = false) (hb : s.busy = true) :
    ∃ t, engineStep s = .next t ∧ Completed s t := by
  obtain ⟨w, hp⟩ := busy_iff.1 hb
  cases hd : decode w with
  | ok i =>
    have hx := exec_eq_finish i s
    exact ⟨_, (engineStep_of_decode hr hp hd).trans hx, exec_completed hx⟩
  | error e => exact ⟨_, engineStep_of_illegal hr hp hd, fail_completed s noTargets .illegalCommand⟩

end

/-- Settles O10: each poll leaves the command running, and with the last one answered the engine completes it. -/
theorem pollingTheStatusEnds : Obligations.PollingTheStatusEnds := by
  intro n
  induction n with
  | zero =>
    intro s hb hr hi
    obtain ⟨t, hx, hcompleted⟩ := engineStep_busy hr hb
    refine ⟨nofun, t, ?_, hcompleted.phase, hcompleted.done, hcompleted.inputs.trans hi⟩
    rw [run_succ ((step_nil hi).trans hx), run_zero]
  | succ n ih =>
    intro s hb hr hi
    have hstep := step_statusPoll hr hi
    obtain ⟨hpolls, hend⟩ := ih { s with inputs := List.replicate n statusPoll, resp := .read s.statusWord } hb hr rfl
    refine ⟨fun k hk => ?_, run_succ hstep (n + 1) ▸ hend⟩
    rw [run_succ hstep]
    cases k with
    | zero =>
      obtain ⟨hbusy, -⟩ := statusWord_fields s
      exact ⟨_, _, run_zero _, rfl, hbusy.trans hb⟩
    | succ k => exact hpolls k (Nat.lt_of_succ_lt_succ hk)

/-! ### What stops the machine (R201) -/

theorem engineStep_next (s : State) : ∃ t, engineStep s = .next t := by
  rcases engineStep_cases s with he | ⟨w, -, -, ⟨i, -, he⟩ | he⟩
  · exact ⟨_, he⟩
  · exact ⟨_, he.trans (exec_eq_finish i s)⟩
  · exact ⟨_, he⟩

/-- A pending input is a host access, or the step it makes has a next state (R201). -/
theorem eventStep_next_or_access (e : HostEvent) (s : State) :
    (∃ t, eventStep e s = .next t) ∨ (∃ t, e = .access t) ∨ ∃ t, e = .accessAt t := by
  cases e with
  | access t => exact .inr (.inl ⟨t, rfl⟩)
  | accessAt t => exact .inr (.inr ⟨t, rfl⟩)
  | resetPin level => exact .inl ⟨_, rfl⟩
  | engine => exact .inl (engineStep_next s)

/-- A step has a next state, or its oldest pending input is a host access (R201). -/
theorem step_next_or_access (s : State) :
    (∃ t, step s = .next t) ∨ ∃ e rest, s.inputs = e :: rest ∧ ((∃ t, e = .access t) ∨ ∃ t, e = .accessAt t) := by
  cases hi : s.inputs with
  | nil => exact .inl (step_nil hi ▸ engineStep_next s)
  | cons e rest =>
    rw [step_cons hi]
    exact (eventStep_next_or_access e _).imp_right fun h => ⟨e, rest, rfl, h⟩

theorem hostAccess_refused {t : Txn} {s : State} {r : Refusal} (h : hostAccess t s = .refused r) :
    r = .outsideApertures := by
  rcases hostAccess_cases t s with ⟨-, he⟩ | ⟨-, -, _, he⟩ | ⟨-, he⟩ <;> cases he.symm.trans h
  rfl

theorem hostAccessAt_refused {t : AddrTxn} {s : State} {r : Refusal} (h : hostAccessAt t s = .refused r) :
    r = .outsideApertures := by
  unfold hostAccessAt at h
  split at h
  · cases h
    rfl
  · exact hostAccess_refused h

/-- The one refusal of a step is that of an access outside the apertures (R81). -/
theorem step_refused {s : State} {r : Refusal} (h : step s = .refused r) : r = .outsideApertures := by
  cases hi : s.inputs with
  | nil =>
    obtain ⟨t, hx⟩ := engineStep_next s
    cases h.symm.trans ((step_nil hi).trans hx)
  | cons e rest =>
    rw [step_cons hi] at h
    rcases eventStep_next_or_access e { s with inputs := rest } with ⟨t, hx⟩ | ⟨t, rfl⟩ | ⟨t, rfl⟩
    · cases h.symm.trans hx
    · exact hostAccess_refused h
    · exact hostAccessAt_refused h

/-- Settles O60: the engine and the reset pin always have a next state, so a step that has none is a host access. -/
theorem onlyHostAccessesStopTheMachine : Obligations.OnlyHostAccessesStopTheMachine := by
  intro s
  have hstop : (∀ t, step s ≠ .next t) →
      ∃ e rest, s.inputs = e :: rest ∧ ((∃ t, e = .access t) ∨ ∃ t, e = .accessAt t) := fun hno =>
    (step_next_or_access s).resolve_left fun ⟨t, ht⟩ => hno t ht
  refine ⟨fun f h => hstop fun t ht => ?_, fun r h => ⟨step_refused h, hstop fun t ht => ?_⟩⟩ <;>
    cases h.symm.trans ht

/-! ### Idle (R221) -/

/-- Settles O4: with nothing pending the engine moves, and in Idle it has nothing to run. -/
theorem idleRetainsAllState : Obligations.IdleRetainsAllState := by
  intro s hp hi
  rw [step_nil hi]
  rcases engineStep_cases s with he | ⟨w, -, hbusy, -⟩
  · exact he
  · cases hp.symm.trans hbusy

end Sys2Proof.Machine

namespace Sys2Proof.Machine

/-! The statements on reset and hazards (70_reset_and_hazards.md): the reset event, which takes the state of R50 whatever
was running (R231, R232), and what a block held in reset answers a host and keeps (R231). -/

/-! ### The reset event (R231, R232) -/

/-- At the values of R50 neither DONE nor ERR is set, so the interrupt is low (R210). -/
theorem State.AtReset.irq_low {s : State} (h : s.AtReset) : s.irq = false := by
  rw [State.irq, h.status]
  rfl

/-- Driving the pin low enters reset, whatever the phase. -/
theorem step_resetLow {s : State} {rest : List HostEvent} (hi : s.inputs = .resetPin false :: rest) :
    step s = .next (State.enterReset { s with inputs := rest }) :=
  step_cons hi

/-- Settles O2: the step enters reset, and the state it enters is at the values of R50. -/
theorem resetPinAbandonsTheCommand : Obligations.ResetPinAbandonsTheCommand := by
  intro s rest hi
  have hreset := State.enterReset_atReset { s with inputs := rest }
  exact ⟨_, step_resetLow hi, hreset, State.enterReset_rstLow _, hreset.irq_low, State.enterReset_params _,
    State.enterReset_inputs _, State.enterReset_resp _⟩

/-! ### Held in reset (R231) -/

section
variable {s : State} (hr : s.rstLow = true)
include hr

/-- The engine does nothing while the block is held in reset. -/
theorem engineStep_held : engineStep s = .next s := by
  rcases engineStep_cases s with he | ⟨w, hreleased, -⟩
  · exact he
  · cases hr.symm.trans hreleased

/-- A write to a block held in reset is acknowledged and ignored. -/
theorem perform_write_held {t : Txn} {v : Word} (hd : t.dir = .write v) : s.perform t = s.answerWrite := by
  simp only [State.perform, hd, hr, if_true]

/-- A read of a block held in reset answers `anyval` (R14). -/
theorem perform_read_held {t : Txn} (hd : t.dir = .read) : s.perform t = s.answerRead none := by
  simp only [State.perform, hd, hr, if_true]

end

/-- The step of a well-formed access that is the oldest pending input (R76). -/
theorem step_access {s : State} {t : Txn} {rest : List HostEvent} (hw : t.wellFormed s.params = true)
    (hi : s.inputs = .access t :: rest) : step s = .next (State.perform { s with inputs := rest } t) :=
  (step_cons hi).trans (hostAccess_wellFormed hw)

/-- Settles O3: with nothing pending it is the engine's turn; a well-formed access is performed as one held in reset. -/
theorem heldInResetIgnoresTheHost : Obligations.HeldInResetIgnoresTheHost := by
  intro s hr
  refine ⟨fun hi => (step_nil hi).trans (engineStep_held hr), fun t rest hi hw => ⟨fun v hd => ?_, fun hd => ?_⟩⟩
  · rw [step_access hw hi, perform_write_held (s := { s with inputs := rest }) hr hd, State.answerWrite]
  · rw [step_access hw hi, perform_read_held (s := { s with inputs := rest }) hr hd, State.answerRead]

end Sys2Proof.Machine
